-- ==== Sys2Proof/Word.lean ====
section
/-! DEFINITION. The engine's values: every one is an unsigned 8-bit integer (00_scope R12; REG_WIDTH = 8, R7), a nibble
is 4 bits (R16), and a transfer's mode is COMMAND or DATA (R16). -/

namespace Sys2Proof

/-- An 8-bit value; bit 0 is the least significant (R12). Addition and shifts wrap modulo 256. -/
abbrev Byte := BitVec 8

/-- "4 bits; the HD44780's reduced-pin bus mode transfers each byte as two nibbles" (R16). -/
abbrev Nibble := BitVec 4

/-- The mode of a transfer: it selects the register-select bit of every phase byte (R16, R84). -/
inductive Mode where
  | command
  | data
  deriving DecidableEq, Repr

end Sys2Proof
end

