-- ==== Sys2Proof/Config.lean ====
section
/-! DEFINITION. The implementation parameters of 00_scope R7, each a field with the spec's default, and the constraints
of R8. A machine's parameters stand in `State.cfg`, which no step changes, so that a statement about every state holds
for every parameter value (log 10). -/

namespace Sys2Proof

/-- The parameters of R7. -/
structure Config where
  /-- REG_WIDTH: width in bits of every engine register and of every value the engine computes; `Byte` has this width
  (`Config.valid`, log 10). -/
  regWidth : Nat := 8
  /-- DEV_ADDR: 7-bit I2C device address of every write. -/
  devAddr : BitVec 7 := 0x27
  /-- XFER_LEN: payload length of every I2C write. -/
  xferLen : Nat := 1
  /-- SEND_STOP: `sendStop` argument of every I2C write (D22). -/
  sendStop : Bool := true
  /-- BIT_RS: expander bit 0, register select. -/
  bitRs : Byte := 0x01
  /-- BIT_RW: expander bit 1, read/write. -/
  bitRw : Byte := 0x02
  /-- BIT_E: expander bit 2, enable. -/
  bitE : Byte := 0x04
  /-- BIT_LED: expander bit 3, backlight. -/
  bitLed : Byte := 0x08
  /-- DATA_SHIFT: the data nibble occupies expander bits 7:4. -/
  dataShift : Nat := 4
  /-- MODE_COMMAND: value of the mode bit for a command byte (D12). -/
  modeCommand : Byte := 0x00
  /-- MODE_DATA: value of the mode bit for a data byte (D12). -/
  modeData : Byte := 0x01
  /-- IDLE_BYTE: phase-4 idle-restore byte before the backlight OR (D8). -/
  idleByte : Byte := 0x02
  /-- INIT_BACKLIGHT: backlight state INIT installs (D7). -/
  initBacklight : Bool := true
  /-- POWERUP_WAIT_US: wait at the start of INIT. -/
  powerupWaitUs : Nat := 200000
  /-- RESYNC1_WAIT_US: wait after the first resync nibble. -/
  resync1WaitUs : Nat := 5000
  /-- RESYNC2_WAIT_US: wait after the second resync nibble (D44). -/
  resync2WaitUs : Nat := 100
  /-- RESYNC3_WAIT_US: wait after the third resync nibble (0: no event). -/
  resync3WaitUs : Nat := 0
  /-- CMD_SETTLE_US: wait after each display control command. -/
  cmdSettleUs : Nat := 2000
  /-- INIT_CMD_SETTLE_US: wait after each full command of INIT (D13). -/
  initCmdSettleUs : Nat := 2000
  /-- E_PULSE_MIN_NS: minimum time E is held high; a duty of the platform (R201). -/
  ePulseMinNs : Nat := 230
  /-- ROWOFF: row base offsets, exactly 4 entries (R33). -/
  rowOff : Vector Byte 4 := #v[0x00, 0x40, 0x14, 0x54]
  /-- GLYPH_SLOTS: CGRAM glyph slots. -/
  glyphSlots : Nat := 8
  /-- GLYPH_ROWS: pattern bytes per glyph. -/
  glyphRows : Nat := 8
  /-- RESYNC_NIBBLE: nibble of the "reset to 8-bit mode" command (D10). -/
  resyncNibble : Nibble := 0x3
  deriving DecidableEq, Repr

/-- The parameters at the defaults of R7. -/
def Config.default : Config := {}

/-- A single bit in bits 3:0 (R8). -/
def Config.lowBit (b : Byte) : Bool := b == 0x01 || b == 0x02 || b == 0x04 || b == 0x08

/-- The constraints of R8; a configuration that breaks one is outside the spec. That ROWOFF has exactly 4 entries is its
type. The last clause is the model's (log 10): REG_WIDTH is the width of the type of the engine's values (R12: 8 bits).
The machine's invariant holds `State.cfg` to all of it. -/
def Config.valid (c : Config) : Bool :=
  (Config.lowBit c.bitRs && Config.lowBit c.bitRw && Config.lowBit c.bitE && Config.lowBit c.bitLed)
  && decide ([c.bitRs, c.bitRw, c.bitE, c.bitLed].Nodup)
  && c.modeData == c.bitRs && c.modeCommand == 0
  && decide (40000 ≤ c.powerupWaitUs) && decide (100 ≤ c.resync2WaitUs)
  && c.regWidth == 8

end Sys2Proof
end

