-- ==== Sys2Proof/Machine/State.lean ====
section
/-! DEFINITION. Everything the spec gives the engine, as plain data (10_state R20 to R37), with the environment's inputs
(the request stream, the Transport's answers, the reset input) and the event trace that is the observation of a run
(00_scope R10). READY and STATUS are computed from these fields (Machine/Flags.lean). -/

namespace Sys2Proof.Machine

/-- INIT_STATE: the nine values of R25, numbered 0 to 8 in this order. -/
inductive InitState where
  | poweredUnknown
  | eightBitFallback1
  | eightBitFallback2
  | eightBitFallback3
  | fourBitConfirmed
  | functionSet
  | displayConfigured
  | entryModeSet
  | ready
  deriving DecidableEq, Repr

/-- The reasons of a fault that the engine raises (R29, 60_exceptions R162 to R164). -/
inductive Cause where
  | illegalRequest
  | notReady
  | rowTableOverrun
  deriving DecidableEq, Repr

/-- The four kinds of event (R10). -/
inductive Event where
  /-- `W(b, ack)`: one I2C write of byte `b` to DEV_ADDR, with the Transport's answer. -/
  | w (b : Byte) (ack : Bool)
  /-- `T(us)`: a wait of at least `us` microseconds. -/
  | t (us : Nat)
  /-- `L(b)`: the log event of a failed write of byte `b`. -/
  | l (b : Byte)
  /-- `Resp(r)`: the response byte of a completed request. -/
  | resp (r : Byte)
  deriving DecidableEq, Repr

/-- What the Transport does with a write (40 R80): it answers success or failure, or never answers (60 R166). -/
inductive Answer where
  | success
  | failure
  | never
  deriving DecidableEq, Repr

/-- The arguments of one `write(deviceAddress, payload, length, sendStop)` (R80). -/
structure BusWrite where
  address : BitVec 7
  payload : List Byte
  length : Nat
  sendStop : Bool
  deriving DecidableEq, Repr

/-- The Transport: its answers to the writes to come, oldest first, the answer to every write after those, and the writes
it was asked for and has answered, oldest first. The answers are draws (R80): a statement about every state holds for every
script (log 2). -/
structure Transport where
  script : List Answer
  afterwards : Answer
  calls : List BusWrite := []
  deriving DecidableEq, Repr

/-- A DisplayState register (R21 to R23): its byte, and whether anything has written it since reset (R37: "unwritten").
The byte of a register that is not written is never used (log 1). -/
structure DisplayReg where
  value : Byte
  written : Bool
  deriving DecidableEq, Repr

/-- The request in progress (R34): "the opcode byte, the operand bytes fetched so far and the index of the next event of
the request's event sequence", the place in its pseudocode, counted in actions, from which the engine goes on (log 12),
and the write that the Transport was asked for and never answers (R50: "one outstanding access"; R166). -/
structure Progress where
  opcode : Byte
  operands : List Byte
  event : Nat
  next : Nat
  outstanding : Option BusWrite
  deriving DecidableEq, Repr

/-- The request stream: bytes at their positions, positions strictly rising; a position that is not listed holds a byte
the Host has not supplied yet (20_memory R40, log 8). -/
abbrev Memory := List Host.Cell

/-- The engine, its inputs and its output so far. -/
@[ext]
structure State where
  /-- The parameters of R7, fixed for a run (log 10). -/
  cfg : Config
  /-- COLS (R21). -/
  cols : DisplayReg
  /-- ROWS (R22). -/
  rows : DisplayReg
  /-- BLMASK (R23). -/
  blmask : DisplayReg
  /-- INIT_STATE (R25). -/
  initState : InitState
  /-- REQPC (R27). -/
  reqpc : Nat
  /-- BUSY (R28). -/
  busy : Bool
  /-- FAULT (R29). -/
  fault : Bool
  /-- CAUSE (R29). -/
  cause : BitVec 4
  /-- FAILED (R30). -/
  failed : Bool
  /-- The request in progress (R34). -/
  request : Option Progress
  /-- The byte of a failed write whose log event is the next event (R34, R81, log 12). -/
  logDue : Option Byte
  /-- The reset input (70_reset R191, log 5). -/
  resetInput : Bool
  /-- The Transport: its answers to come and the writes it was asked for (R80, log 2). -/
  transport : Transport
  /-- The request stream (R40, log 8). -/
  stream : Memory
  /-- The events emitted so far, oldest first (R10, log 9). -/
  trace : List Event
  deriving DecidableEq, Repr

/-- Why the machine stops. A fault the ENGINE raises (R161) is no such stop: it is a next state with FAULT = 1. -/
inductive Fault where
  /-- Raised by an XWrite that reads BLMASK, or by GOTO when it reads ROWS, while the register is unwritten: "a model
  must fault on reading it" (R37); "a model faults on reading an unwritten register" (93 U10). Safe: the model stops. No
  run from reset comes to it, since every request but INIT is refused with NotReady until an INIT has written the
  registers. -/
  | unwrittenRegister
  deriving DecidableEq, Repr

/-- Why the model has no meaning for an instruction. -/
inductive Refusal where
  /-- Raised by an arm of `exec` whose instruction is not modelled. Safe: nothing is claimed of it. No arm does so: all
  twelve requests are modelled. -/
  | notModelled (mnemonic : String)
  deriving DecidableEq, Repr

/-- The outcome of a step of this machine. -/
abbrev Result := Host.Outcome State Fault Refusal

/-- The state after reset (70_reset R190): every field at the value the spec states. COLS, ROWS and BLMASK are unwritten
(R37) and their byte is 0 (log 1); the Transport acknowledges every write (log 2, an input, not the engine's); the
stream and the trace are empty and the reset input is not asserted. -/
def State.reset : State where
  cfg := Config.default
  cols := ⟨0, false⟩
  rows := ⟨0, false⟩
  blmask := ⟨0, false⟩
  initState := .poweredUnknown
  reqpc := 0
  busy := false
  fault := false
  cause := 0
  failed := false
  request := none
  logDue := none
  resetInput := false
  transport := { script := [], afterwards := .success }
  stream := []
  trace := []

end Sys2Proof.Machine
end

