-- ==== Sys2Proof/Machine/Flags.lean ====
section
/-! DEFINITION. The engine's flags and the values computed from them (10_state R25 to R32, 40_nibble_protocol R82). -/

namespace Sys2Proof.Machine

/-- The number of an INIT_STATE value (R25). -/
def InitState.number : InitState → Nat
  | .poweredUnknown => 0
  | .eightBitFallback1 => 1
  | .eightBitFallback2 => 2
  | .eightBitFallback3 => 3
  | .fourBitConfirmed => 4
  | .functionSet => 5
  | .displayConfigured => 6
  | .entryModeSet => 7
  | .ready => 8

/-- The CAUSE value of a fault (R29). -/
def Cause.code : Cause → BitVec 4
  | .illegalRequest => 1
  | .notReady => 2
  | .rowTableOverrun => 3

/-- `READY = (INIT_STATE == Ready)` (R26). -/
def State.ready (s : State) : Bool := s.initState == .ready

/-- A flag as a byte at a bit position. -/
def flagBit (b : Bool) (n : Nat) : Byte := if b then 1 <<< n else 0

/-- STATUS: bit 0 BUSY, bit 1 READY, bit 2 FAULT, bit 3 reads 0, bits 7:4 CAUSE (R31). -/
def State.status (s : State) : Byte :=
  flagBit s.busy 0 ||| flagBit s.ready 1 ||| flagBit s.fault 2 ||| (s.cause.setWidth 8 <<< 4)

/-- A Host write to STATUS: "writes to it have no effect" (R31). -/
def State.writeStatus (_ : Byte) (s : State) : State := s

/-- FAILED after a write: "Every `XWrite` that returns `ack = false` sets it" (R30, R81). -/
def failedAfter (failed ack : Bool) : Bool := failed || !ack

/-- The response byte: 0xFF if FAILED = 1 and 0x00 otherwise (R82). -/
def responseByte (failed : Bool) : Byte := if failed then 0xFF else 0x00

end Sys2Proof.Machine
end

