-- ==== Sys2Proof/Syntax.lean ====
section
/-! DEFINITION. The request set: one constructor per row of spec/opcode_table.json (30_encoding R60, R61). Flags are
Booleans (1 = true), operand bytes are bytes in the order the request table lists them. -/

namespace Sys2Proof

/-- A request with its flags and operands (R61). -/
inductive Instr where
  /-- INIT: COLS8, ROWS8 (R100). -/
  | init (cols rows : Byte)
  /-- CLEAR (R110). -/
  | clear
  /-- HOME (R112). -/
  | home
  /-- ENTRY: ID = F[1] (left-to-right), S = F[0] (shift on write) (R63, R114). -/
  | entry (leftToRight shift : Bool)
  /-- DISPCTL: D = F[2], C = F[1], B = F[0] (R64, R116). -/
  | dispctl (display cursor blink : Bool)
  /-- SHIFT: SC = F[1] (moveDisplay), RL = F[0] (right) (R65, R118). -/
  | shift (moveDisplay right : Bool)
  /-- GOTO: X8, Y8 (R130). -/
  | goto (x y : Byte)
  /-- GLYPH: SLOT8, then the pattern rows P0..P7, top row first (R140). -/
  | glyph (slot p0 p1 p2 p3 p4 p5 p6 p7 : Byte)
  /-- BACKLIGHT: L = F[0] (R66, R120). -/
  | backlight (on : Bool)
  /-- WRSTR: the characters C1..Cn, without the terminator (R150). -/
  | wrstr (chars : List Byte)
  /-- SENDBYTE: V8, and the mode M = F[0] (R67, R86). -/
  | sendbyte (value : Byte) (mode : Mode)
  /-- WRRAW: B8 (R88). -/
  | wrraw (byte : Byte)
  deriving DecidableEq, Repr

end Sys2Proof
end

