-- ==== Sys2Proof/Syntax/Pseudo.lean ====
section
/-! DEFINITION. The assembler's pseudo-requests (30_encoding R78); `Sys2Proof.expandPseudo` in Decode.lean expands
them. -/

namespace Sys2Proof

/-- A pseudo-request (R78). `print` carries the text the Host has rendered: rendering is out of scope (R5). -/
inductive Pseudo where
  | sendCmd (v : Byte)
  | sendData (v : Byte)
  | putc (c : Byte)
  | blOn
  | blOff
  | cursorLeft
  | cursorRight
  | scrollLeft
  | scrollRight
  | setDdram (a : Byte)
  | print (text : List Byte)
  deriving DecidableEq, Repr

end Sys2Proof
end

