-- ==== Sys2Proof/WellFormed.lean ====
section
/-! DEFINITION. Which requests have an encoding. Operand bytes and flags are legal at every value (30_encoding R69);
the one check is that a WRSTR character is never 0x00, which is always the terminator (R72, R150). -/

namespace Sys2Proof

/-- The request can be encoded: each WRSTR character is in 0x01..0xFF (R150). -/
def Instr.wellFormed : Instr → Bool
  | .init _ _ => true
  | .clear => true
  | .home => true
  | .entry _ _ => true
  | .dispctl _ _ _ => true
  | .shift _ _ => true
  | .goto _ _ => true
  | .glyph _ _ _ _ _ _ _ _ _ => true
  | .backlight _ => true
  | .wrstr chars => chars.all (fun c => c != 0)
  | .sendbyte _ _ => true
  | .wrraw _ => true

end Sys2Proof
end

