-- ==== Sys2Proof/Decode.lean ====
section
/-! DEFINITION. Decoding a request's bytes and encoding a request (30_encoding R60 to R78). The decoder is total on
bytes (R74): it answers a request and the bytes after it, or rejects the opcode byte by name (R71), or says that the
request's operands are not all there yet (R62, 60_exceptions R167). -/

namespace Sys2Proof

/-- A flag as a byte: 1 = true. -/
def bitByte (b : Bool) : Byte := if b then 1 else 0

/-- OP = bits 7:4 of the opcode byte (R61). -/
def opField (op : Byte) : Nibble := op.extractLsb' 4 4

/-- F = bits 3:0 of the opcode byte (R61). -/
def flagField (op : Byte) : Nibble := op.extractLsb' 0 4

/-- OP is one of the twelve requests, not 0x0, 0xD, 0xE or 0xF (R71). -/
def definedOp (o : Nibble) : Bool := o != 0x0 && o != 0xD && o != 0xE && o != 0xF

/-- The reserved-bit mask of F for a defined OP (R71, R73). -/
def reservedBits (o : Nibble) : Nibble :=
  if o = 0x4 ∨ o = 0x6 then 0xC
  else if o = 0x5 then 0x8
  else if o = 0x9 ∨ o = 0xB then 0xE
  else 0xF

/-- The opcode byte is legal: a defined OP with no reserved F bit set (R71). -/
def legalOpcode (op : Byte) : Bool :=
  definedOp (opField op) && (reservedBits (opField op) &&& flagField op) == 0

/-- A request must find READY = 1 unless it is INIT (R73: OPC ≠ 0x1; 60_exceptions R163). -/
def needsReady (op : Byte) : Bool := opField op != 0x1

/-- What the opcode byte alone says: the request and its flags. -/
inductive Head where
  | init
  | clear
  | home
  | entry (leftToRight shift : Bool)
  | dispctl (display cursor blink : Bool)
  | shift (moveDisplay right : Bool)
  | goto
  | glyph
  | backlight (on : Bool)
  | wrstr
  | sendbyte (mode : Mode)
  | wrraw
  deriving DecidableEq, Repr

/-- M = F[0]: 0 = COMMAND, 1 = DATA (R67). -/
def modeOfBit (m : Bool) : Mode := if m then .data else .command

/-- M of a mode (R67). -/
def bitOfMode : Mode → Bool
  | .command => false
  | .data => true

/-- The request an opcode byte names, with its flags (R61, R63 to R68); none for an illegal byte (R71). -/
def decodeOpcode (op : Byte) : Option Head :=
  if legalOpcode op then
    let f := flagField op
    match (opField op).toNat with
    | 0x1 => some .init
    | 0x2 => some .clear
    | 0x3 => some .home
    | 0x4 => some (.entry (f.getLsbD 1) (f.getLsbD 0))
    | 0x5 => some (.dispctl (f.getLsbD 2) (f.getLsbD 1) (f.getLsbD 0))
    | 0x6 => some (.shift (f.getLsbD 1) (f.getLsbD 0))
    | 0x7 => some .goto
    | 0x8 => some .glyph
    | 0x9 => some (.backlight (f.getLsbD 0))
    | 0xA => some .wrstr
    | 0xB => some (.sendbyte (modeOfBit (f.getLsbD 0)))
    | 0xC => some .wrraw
    | _ => none
  else none

/-- The characters before the first 0x00 and the bytes after it (R62, R72); none while there is no 0x00. -/
def splitString : List Byte → Option (List Byte × List Byte)
  | [] => none
  | b :: bs =>
    if b = 0 then some ([], bs)
    else match splitString bs with
      | some (cs, rest) => some (b :: cs, rest)
      | none => none

/-- The request with its operand bytes, in the order of R61, and the bytes after it; none while an operand byte is
missing. -/
def decodeOperands : Head → List Byte → Option (Instr × List Byte)
  | .init, c :: r :: rest => some (.init c r, rest)
  | .init, _ => none
  | .clear, rest => some (.clear, rest)
  | .home, rest => some (.home, rest)
  | .entry i s, rest => some (.entry i s, rest)
  | .dispctl d c b, rest => some (.dispctl d c b, rest)
  | .shift m r, rest => some (.shift m r, rest)
  | .goto, x :: y :: rest => some (.goto x y, rest)
  | .goto, _ => none
  | .glyph, s :: p0 :: p1 :: p2 :: p3 :: p4 :: p5 :: p6 :: p7 :: rest =>
    some (.glyph s p0 p1 p2 p3 p4 p5 p6 p7, rest)
  | .glyph, _ => none
  | .backlight l, rest => some (.backlight l, rest)
  | .wrstr, bs =>
    match splitString bs with
    | some (cs, rest) => some (.wrstr cs, rest)
    | none => none
  | .sendbyte m, v :: rest => some (.sendbyte v m, rest)
  | .sendbyte _, [] => none
  | .wrraw, b :: rest => some (.wrraw b, rest)
  | .wrraw, [] => none

/-- What the decoder answers on a list of bytes. -/
inductive Decoded where
  /-- A whole request, and the bytes after it. -/
  | request (i : Instr) (rest : List Byte)
  /-- The opcode byte is illegal (R71): the engine raises IllegalRequest. -/
  | illegal (op : Byte)
  /-- A legal opcode byte whose operands are not all there (R167). -/
  | incomplete (op : Byte) (operands : List Byte)
  /-- No byte at all. -/
  | empty
  deriving DecidableEq, Repr

/-- The decoder, total on bytes (R74). -/
def decode : List Byte → Decoded
  | [] => .empty
  | op :: bs =>
    match decodeOpcode op with
    | none => .illegal op
    | some h =>
      match decodeOperands h bs with
      | some (i, rest) => .request i rest
      | none => .incomplete op bs

/-- The opcode byte of a request (R61, R77). -/
def opcodeOf : Instr → Byte
  | .init _ _ => 0x10
  | .clear => 0x20
  | .home => 0x30
  | .entry i s => 0x40 ||| (bitByte i <<< 1) ||| bitByte s
  | .dispctl d c b => 0x50 ||| (bitByte d <<< 2) ||| (bitByte c <<< 1) ||| bitByte b
  | .shift m r => 0x60 ||| (bitByte m <<< 1) ||| bitByte r
  | .goto _ _ => 0x70
  | .glyph _ _ _ _ _ _ _ _ _ => 0x80
  | .backlight l => 0x90 ||| bitByte l
  | .wrstr _ => 0xA0
  | .sendbyte _ m => 0xB0 ||| bitByte (bitOfMode m)
  | .wrraw _ => 0xC0

/-- The operand bytes of a request, the WRSTR terminator included (R61). -/
def operandsOf : Instr → List Byte
  | .init c r => [c, r]
  | .clear => []
  | .home => []
  | .entry _ _ => []
  | .dispctl _ _ _ => []
  | .shift _ _ => []
  | .goto x y => [x, y]
  | .glyph s p0 p1 p2 p3 p4 p5 p6 p7 => [s, p0, p1, p2, p3, p4, p5, p6, p7]
  | .backlight _ => []
  | .wrstr cs => cs ++ [0]
  | .sendbyte v _ => [v]
  | .wrraw b => [b]

/-- The bytes of a request (R61, R77). -/
def encode (i : Instr) : List Byte := opcodeOf i :: operandsOf i

/-- The length of a request in bytes (R61, R62, R76). -/
def lengthOf : Instr → Nat
  | .init _ _ => 3
  | .clear => 1
  | .home => 1
  | .entry _ _ => 1
  | .dispctl _ _ _ => 1
  | .shift _ _ => 1
  | .goto _ _ => 3
  | .glyph _ _ _ _ _ _ _ _ _ => 10
  | .backlight _ => 1
  | .wrstr cs => cs.length + 2
  | .sendbyte _ _ => 2
  | .wrraw _ => 2

/-- One row of the opcode table: an opcode byte belongs to the row when its masked bits match. -/
structure OpcodeRow where
  mnemonic : String
  pattern : Byte
  mask : Byte
  deriving DecidableEq, Repr

/-- The match and mask of each row of spec/opcode_table.json, in its order (R74). -/
def opcodeTable : List OpcodeRow :=
  [⟨"INIT", 0x10, 0xFF⟩, ⟨"CLEAR", 0x20, 0xFF⟩, ⟨"HOME", 0x30, 0xFF⟩, ⟨"ENTRY", 0x40, 0xFC⟩,
   ⟨"DISPCTL", 0x50, 0xF8⟩, ⟨"SHIFT", 0x60, 0xFC⟩, ⟨"GOTO", 0x70, 0xFF⟩, ⟨"GLYPH", 0x80, 0xFF⟩,
   ⟨"BACKLIGHT", 0x90, 0xFE⟩, ⟨"WRSTR", 0xA0, 0xFF⟩, ⟨"SENDBYTE", 0xB0, 0xFE⟩, ⟨"WRRAW", 0xC0, 0xFF⟩]

/-- The opcode byte belongs to the row. -/
def rowMatches (op : Byte) (r : OpcodeRow) : Bool := (op &&& r.mask) == r.pattern

/-- The mnemonic of a head, as the table spells it. -/
def mnemonicOf : Head → String
  | .init => "INIT"
  | .clear => "CLEAR"
  | .home => "HOME"
  | .entry _ _ => "ENTRY"
  | .dispctl _ _ _ => "DISPCTL"
  | .shift _ _ => "SHIFT"
  | .goto => "GOTO"
  | .glyph => "GLYPH"
  | .backlight _ => "BACKLIGHT"
  | .wrstr => "WRSTR"
  | .sendbyte _ => "SENDBYTE"
  | .wrraw => "WRRAW"

/-- The request a pseudo-request expands to (R78). -/
def expandPseudo : Pseudo → Instr
  | .sendCmd v => .sendbyte v .command
  | .sendData v => .sendbyte v .data
  | .putc c => .sendbyte c .data
  | .blOn => .backlight true
  | .blOff => .backlight false
  | .cursorLeft => .shift false false
  | .cursorRight => .shift false true
  | .scrollLeft => .shift true false
  | .scrollRight => .shift true true
  | .setDdram a => .sendbyte (0x80 ||| a) .command
  | .print text => .wrstr text

/-- `n` bytes of the number `w`, its least significant byte first. -/
def bytesOfNat : Nat → Nat → List Byte
  | 0, _ => []
  | n + 1, w => BitVec.ofNat 8 w :: bytesOfNat n (w / 256)

/-- The bytes of a table word of `nbits` bits: its first byte is bits 7:0, and every bit above `nbits` is 0, up to the
longest fixed-length request (10 bytes, R76). -/
def tableBytes (nbits w : Nat) : List Byte :=
  bytesOfNat (max ((nbits + 7) / 8) 10) (w % 2 ^ nbits)

/-- The request the decoder reads from a table word. -/
def decodeTableWord (nbits w : Nat) : Option Instr :=
  match decode (tableBytes nbits w) with
  | .request i _ => some i
  | .illegal _ => none
  | .incomplete _ _ => none
  | .empty => none

end Sys2Proof
end

