-- ==== Sys2Proof/Machine/Operands.lean ====
section
/-! DEFINITION. The bytes the engine computes: the phases of a nibble transfer (40_nibble_protocol R83 to R85), the
HD44780 command bytes (00_scope R18, 30_encoding R70), the cursor address (43_addressing R130) and the glyph address
(44_custom_glyph R140). -/

namespace Sys2Proof.Machine

/-- `v[7:4]`. -/
def hiNibble (v : Byte) : Nibble := v.extractLsb' 4 4

/-- `v[3:0]`. -/
def loNibble (v : Byte) : Nibble := v.extractLsb' 0 4

/-- MODE_COMMAND or MODE_DATA (R84). -/
def modeByte (cfg : Config) : Mode → Byte
  | .command => cfg.modeCommand
  | .data => cfg.modeData

/-- The base byte `(zext_8(n) << 4) | mode` (R17, R83). -/
def baseByte (cfg : Config) (n : Nibble) (m : Byte) : Byte := (n.setWidth 8 <<< cfg.dataShift) ||| m

/-- The four phases of NibbleXfer, before the backlight OR (R83). -/
def nibbleBytes (cfg : Config) (n : Nibble) (mode : Mode) : List Byte :=
  let base := baseByte cfg n (modeByte cfg mode)
  [base, base ||| cfg.bitE, base, cfg.idleByte]

/-- SendByte: high nibble first, then low nibble (R84). -/
def sendByteBytes (cfg : Config) (v : Byte) (mode : Mode) : List Byte :=
  nibbleBytes cfg (hiNibble v) mode ++ nibbleBytes cfg (loNibble v) mode

/-- SendCommand: phases 1 to 3 of the low nibble, RS = 0 (R85). -/
def sendCommandBytes (cfg : Config) (v : Byte) : List Byte :=
  let base := baseByte cfg (loNibble v) 0
  [base, base ||| cfg.bitE, base]

/-- The BLMASK value of a backlight state: BIT_LED or 0x00 (R100, R120). -/
def backlightMask (cfg : Config) (on : Bool) : Byte := if on then cfg.bitLed else 0x00

/-- Clear display (R18). -/
def clearCommand : Byte := 0x01

/-- Return home (R18). -/
def homeCommand : Byte := 0x02

/-- Entry mode set: `0x04 | (ID << 1) | S` (R18, R114). -/
def entryCommand (leftToRight shift : Bool) : Byte := 0x04 ||| (bitByte leftToRight <<< 1) ||| bitByte shift

/-- Display control: `0x08 | (D << 2) | (C << 1) | B` (R18, R116). -/
def displayCommand (display cursor blink : Bool) : Byte :=
  0x08 ||| (bitByte display <<< 2) ||| (bitByte cursor <<< 1) ||| bitByte blink

/-- Cursor or display shift: `0x10 | (SC << 3) | (RL << 2)` (R18, R118). -/
def shiftCommand (moveDisplay right : Bool) : Byte :=
  0x10 ||| (bitByte moveDisplay <<< 3) ||| (bitByte right <<< 2)

/-- Function set: `0x20 | (DL << 4) | (N << 3) | (F << 2)` (R18). -/
def functionSetCommand (eightBit twoLine largeFont : Bool) : Byte :=
  0x20 ||| (bitByte eightBit <<< 4) ||| (bitByte twoLine <<< 3) ||| (bitByte largeFont <<< 2)

/-- Set CGRAM address: `0x40 | a` (R18, R140). -/
def cgramCommand (a : Byte) : Byte := 0x40 ||| a

/-- Set DDRAM address: `0x80 | addr` (R18, R130, R134). -/
def ddramCommand (addr : Byte) : Byte := 0x80 ||| addr

/-- The clamped row of GOTO as an index of ROWOFF; none where the row table would be overrun: ROWS = 0, or the clamped
row above 3 (R130, R131). -/
def clampRow (rows y : Byte) : Option (Fin 4) :=
  if rows = 0 then none
  else
    let yc := if rows ≤ y then rows - 1 else y
    if h : yc.toNat < 4 then some ⟨yc.toNat, h⟩ else none

/-- `MemRead(ROWOFF + i, 1)` (R13, R45). -/
def rowOffset (cfg : Config) (i : Fin 4) : Byte := cfg.rowOff[i]

/-- `addr <- (X + ROWOFF[yc]) mod 256` (R130). -/
def cursorAddress (cfg : Config) (x : Byte) (yc : Fin 4) : Byte := x + rowOffset cfg yc

/-- The CGRAM address of a slot: the slot number modulo the slots, times the rows of a glyph; with the parameters of R7
this is `(S & 0x07) << 3` (R140, R142). -/
def glyphAddress (cfg : Config) (slot : Byte) : Byte :=
  BitVec.ofNat 8 (slot.toNat % cfg.glyphSlots * cfg.glyphRows)

end Sys2Proof.Machine
end

