-- ==== Sys2Proof/Machine/Ops.lean ====
section
/-! DEFINITION. The named operations over the state: the request stream (20_memory R40), the DisplayState registers
(10_state R37), the pseudocode primitives of 00_scope R14 (FetchReq, XWrite, Wait, Log, Respond, raise), the logged
write (40_nibble_protocol R81), raising a fault (60_exceptions R161) and the reset that alone leaves it
(70_reset R190, R191), and the one way a request runs: its actions in order, up to its end, its fault, or the first one
that blocks. -/

namespace Sys2Proof.Machine

/-! ### The request stream -/

/-- The canonical form: positions strictly rising. No entry could equal what an unlisted position reads as, since that
is no byte at all. -/
abbrev Memory.wf (m : Memory) : Prop := m.Pairwise (fun c d => c.1 < d.1)

/-- The byte at a position; none where the Host has supplied none. -/
def Memory.read : Memory → Nat → Option Byte
  | [], _ => none
  | (b, v) :: rest, a => if b = a then some v else Memory.read rest a

/-- Supply a byte at a position. -/
def Memory.write : Memory → Nat → Byte → Memory
  | [], a, v => [(a, v)]
  | (b, w) :: rest, a, v =>
    if a < b then (a, v) :: (b, w) :: rest
    else if a = b then (a, v) :: rest
    else (b, w) :: Memory.write rest a v

/-- Supply bytes at consecutive positions. -/
def Memory.writeBytes : Memory → Nat → List Byte → Memory
  | m, _, [] => m
  | m, a, b :: bs => Memory.writeBytes (Memory.write m a b) (a + 1) bs

/-- The supplied bytes at `a`, `a + 1`, ..., up to the first position with none. -/
def Memory.bytesFrom : Memory → Nat → List Byte
  | [], _ => []
  | (b, v) :: rest, a =>
    if b < a then Memory.bytesFrom rest a
    else if b = a then v :: Memory.bytesFrom rest (a + 1)
    else []

/-- The bytes the engine could fetch now, in order: those from REQPC on (R27, R40). -/
def State.available (s : State) : List Byte := s.stream.bytesFrom s.reqpc

/-- The Host supplies bytes from position `a` on (R40). -/
def State.supply (a : Nat) (bs : List Byte) (s : State) : State :=
  { s with stream := s.stream.writeBytes a bs }

/-! ### The Transport -/

/-- The answer to the next write and the answers after it; none where the Transport never answers (R80, R166). -/
def Transport.next? (t : Transport) : Option (Bool × Transport) :=
  match t.script with
  | .success :: rest => some (true, { t with script := rest })
  | .failure :: rest => some (false, { t with script := rest })
  | .never :: _ => none
  | [] =>
    match t.afterwards with
    | .success => some (true, t)
    | .failure => some (false, t)
    | .never => none

/-- Every write is `write(DEV_ADDR, [b], XFER_LEN, SEND_STOP)` (R14, R80). -/
def busWrite (cfg : Config) (b : Byte) : BusWrite := ⟨cfg.devAddr, [b], cfg.xferLen, cfg.sendStop⟩

/-- The Transport was asked for a write and has answered it. -/
def Transport.recorded (w : BusWrite) (t : Transport) : Transport := { t with calls := t.calls ++ [w] }

/-- The engine asks the Transport for a write (R80): its answer, and the Transport after it; none where it never answers. -/
def Transport.call (w : BusWrite) (t : Transport) : Option (Bool × Transport) :=
  t.next?.map fun p => (p.1, p.2.recorded w)

/-- The answer `never` is used up by the write that is not answered: one draw for each write (R80, 93 U5; log 21). -/
def Transport.stalled (t : Transport) : Transport := { t with script := t.script.tail }

/-! ### Registers -/

/-- Reading a DisplayState register; none while it is unwritten (R37). -/
def DisplayReg.read? (r : DisplayReg) : Option Byte := if r.written then some r.value else none

/-- Writing a DisplayState register. -/
def DisplayReg.of (v : Byte) : DisplayReg := ⟨v, true⟩

/-- Events are emitted, and the index of the request's next event moves past them (R10, R34). -/
def State.emitted (es : List Event) (s : State) : State :=
  { s with
    request := s.request.map fun r => { r with event := r.event + es.length }
    trace := s.trace ++ es }

/-- The place in the request's pseudocode moves past one action (R34). -/
def State.advanced (s : State) : State :=
  { s with request := s.request.map fun r => { r with next := r.next + 1 } }

/-- FetchReq of the opcode byte: REQPC + 1, BUSY = 1, FAILED = 0, the request is in progress (R73). -/
def State.started (op : Byte) (s : State) : State :=
  { s with reqpc := s.reqpc + 1, busy := true, failed := false, request := some ⟨op, [], 0, 0, none⟩, logDue := none }

/-- FetchReq of an operand byte: REQPC + 1 (R14, R27), the byte joins the operands fetched so far (R34). -/
def State.fetched (b : Byte) (s : State) : State :=
  { s with
    reqpc := s.reqpc + 1
    request := s.request.map fun r => { r with operands := r.operands ++ [b], next := r.next + 1 } }

/-- INIT's writes of COLS, ROWS and BLMASK (R100). -/
def State.installed (c r m : Byte) (s : State) : State :=
  { s.advanced with cols := .of c, rows := .of r, blmask := .of m }

/-- A write of BLMASK (R120). -/
def State.backlightSet (m : Byte) (s : State) : State := { s.advanced with blmask := .of m }

/-- A write of INIT_STATE (R100, R101). -/
def State.initStateSet (i : InitState) (s : State) : State := { s.advanced with initState := i }

/-- The events of one logged write: `W(b, ack)`, and `L(b)` after a failed one (R81). -/
def loggedWrite (b : Byte) (ack : Bool) : List Event := if ack then [.w b ack] else [.w b ack, .l b]

/-- XWrite when the Transport has answered: the event `W(b, ack)`, FAILED (R30), and, after a failed write, the log event
that is due next (R81). R81's pseudocode sets FAILED after the log event; nothing reads it in between. -/
def State.wroteByte (b : Byte) (ack : Bool) (t : Transport) (s : State) : State :=
  { s.advanced.emitted [.w b ack] with
    transport := t
    failed := failedAfter s.failed ack
    logDue := if ack then none else some b }

/-- The log event that is due, if one is (R81). -/
def State.logged (s : State) : State :=
  match s.logDue with
  | none => s
  | some b => { s.emitted [.l b] with logDue := none }

/-- XWriteL when the Transport has answered: the write, then the log event of a failed one (R81). -/
def State.wrote (b : Byte) (ack : Bool) (t : Transport) (s : State) : State := (s.wroteByte b ack t).logged

/-- The write that the Transport never answers is outstanding (R50, R166). -/
def State.stalled (w : BusWrite) (s : State) : State :=
  { s with
    transport := s.transport.stalled
    request := s.request.map fun r => { r with outstanding := some w } }

/-- The write that the engine waits for without end, if there is one (R166). -/
def State.outstanding (s : State) : Option BusWrite := s.request.bind (·.outstanding)

/-- The events of a wait: `T(us)`; `Wait(0)` emits nothing (R14). -/
def waitEvents (us : Nat) : List Event := if us = 0 then [] else [.t us]

/-- Wait (R14): the wait always ends (log 3) and changes no register. -/
def State.waited (us : Nat) (s : State) : State := s.advanced.emitted (waitEvents us)

/-- Respond, then BUSY = 0 (R73, R82): the request is no longer in progress; FAILED stays until the next fetch. -/
def State.responded (s : State) : State :=
  { s with busy := false, request := none, trace := s.trace ++ [.resp (responseByte s.failed)] }

/-- `raise Fault(c)`: FAULT = 1, CAUSE = c, BUSY = 0, no event (R161). The request stops (log 13). -/
def State.raised (c : Cause) (s : State) : State :=
  { s with fault := true, cause := c.code, busy := false, request := none }

/-- Reset (R190, R191): every register at its reset value and the request in progress dropped, with no event, not even a
log event that was due. What was emitted stays emitted, the external devices are not touched (R192), a write that was not
answered is waited for no longer (log 21), and the stream starts anew (log 5). -/
def State.afterReset (s : State) : State :=
  { State.reset with cfg := s.cfg, transport := s.transport, trace := s.trace }

/-- The reset input is asserted (R191). -/
def State.assertReset (s : State) : State := { s with resetInput := true }

/-! ### Running a request -/

/-- One action of a request's pseudocode. -/
inductive Act where
  /-- FetchReq of an operand byte. -/
  | fetch (b : Byte)
  /-- `COLS <- c; ROWS <- r; BLMASK <- m`. -/
  | install (c r m : Byte)
  /-- `BLMASK <- m`. -/
  | setBacklight (m : Byte)
  /-- `INIT_STATE <- i`. -/
  | setInitState (i : InitState)
  /-- `XWriteL(b)`. -/
  | write (b : Byte)
  /-- `Wait(us)`. -/
  | wait (us : Nat)
  /-- A read of a register that is unwritten (R37). -/
  | readUnwritten
  /-- `raise Fault(c)`. -/
  | raise (c : Cause)
  /-- Respond, then BUSY = 0. -/
  | respond
  deriving DecidableEq, Repr

/-- What one action does. -/
inductive ActResult where
  /-- The request goes on. -/
  | goesOn (s : State)
  /-- The Transport does not answer: the engine waits (R166). -/
  | blocked (s : State)
  /-- The engine raised a fault: the request's remaining actions are not done (R161). -/
  | stopped (s : State)
  /-- An unwritten register was read (R37). -/
  | unwritten
  deriving DecidableEq, Repr

/-- `XWrite(b)`: `write(DEV_ADDR, [b | BLMASK], XFER_LEN, SEND_STOP)`, up to the Transport's answer (R14). -/
def xwrite (b : Byte) (s : State) : ActResult :=
  match s.blmask.read? with
  | none => .unwritten
  | some m =>
    match s.transport.call (busWrite s.cfg (b ||| m)) with
    | none => .blocked (s.stalled (busWrite s.cfg (b ||| m)))
    | some (ack, t) => .goesOn (s.wroteByte (b ||| m) ack t)

/-- `XWriteL(b)`: the write, then the log event of a failed one (R81). -/
def writeLogged (b : Byte) (s : State) : ActResult :=
  match xwrite b s with
  | .goesOn s' => .goesOn s'.logged
  | .blocked s' => .blocked s'
  | .stopped s' => .stopped s'
  | .unwritten => .unwritten

/-- One action. -/
def runAct : Act → State → ActResult
  | .fetch b, s => .goesOn (s.fetched b)
  | .install c r m, s => .goesOn (s.installed c r m)
  | .setBacklight m, s => .goesOn (s.backlightSet m)
  | .setInitState i, s => .goesOn (s.initStateSet i)
  | .write b, s => writeLogged b s
  | .wait us, s => .goesOn (s.waited us)
  | .readUnwritten, _ => .unwritten
  | .raise c, s => .stopped (s.raised c)
  | .respond, s => .goesOn s.responded

/-- One action, or the part of it that emits at most one event: a logged write stops before its log event. -/
def microAct : Act → State → ActResult
  | .write b, s => xwrite b s
  | .fetch b, s => runAct (.fetch b) s
  | .install c r m, s => runAct (.install c r m) s
  | .setBacklight m, s => runAct (.setBacklight m) s
  | .setInitState i, s => runAct (.setInitState i) s
  | .wait us, s => runAct (.wait us) s
  | .readUnwritten, s => runAct .readUnwritten s
  | .raise c, s => runAct (.raise c) s
  | .respond, s => runAct .respond s

/-- What an action answers, as the outcome of a step. -/
def ActResult.outcome : ActResult → Result
  | .goesOn s => .next s
  | .blocked s => .next s
  | .stopped s => .next s
  | .unwritten => .fault .unwrittenRegister

/-- Actions in order (20_memory R50), up to the last, a fault, or the first that blocks. A blocked request stays in
progress with BUSY = 1: the state is a next state, since a run that hangs is a run with no end (R166). -/
def runActs : List Act → State → Result
  | [], s => .next s
  | a :: rest, s =>
    match runAct a s with
    | .goesOn s' => runActs rest s'
    | .blocked s' => .next s'
    | .stopped s' => .next s'
    | .unwritten => .fault .unwrittenRegister

/-- The request cycle of R73 for a legal opcode byte: fetch it, raise NotReady where the request needs READY = 1 (R163),
else run the request's actions. -/
def beginRequest (op : Byte) (script : List Act) (s : State) : Result :=
  if needsReady op && !s.ready then .next ((s.started op).raised .notReady)
  else runActs script (s.started op)

/-! ### The actions the requests share -/

/-- SendByte as actions (R84). -/
def sendByteActs (cfg : Config) (v : Byte) (mode : Mode) : List Act := (sendByteBytes cfg v mode).map .write

/-- SendCommand as actions (R85). -/
def sendCommandActs (cfg : Config) (v : Byte) : List Act := (sendCommandBytes cfg v).map .write

/-- CmdSettle: SendByte in mode COMMAND, then the settle wait (42_display_control R111). -/
def cmdSettleActs (cfg : Config) (c : Byte) : List Act := sendByteActs cfg c .command ++ [.wait cfg.cmdSettleUs]

end Sys2Proof.Machine
end

