-- ==== Sys2Proof/Machine/Addressing.lean ====
section
/-! DEFINITION. The cursor address calculator: GOTO (43_addressing R130 to R135). -/

namespace Sys2Proof.Machine

/-- GOTO after its operands are fetched, with ROWS as read: RowTableOverrun before any write, or the set-DDRAM-address
command; no settle wait (R130, R131). -/
def gotoBody (cfg : Config) (rows x y : Byte) : List Act :=
  match clampRow rows y with
  | none => [.raise .rowTableOverrun]
  | some yc => sendByteActs cfg (ddramCommand (cursorAddress cfg x yc)) .command ++ [.respond]

/-- GOTO's pseudocode (R130): the operands, then ROWS is read. -/
def gotoScript (cfg : Config) (rows : DisplayReg) (x y : Byte) : List Act :=
  [.fetch x, .fetch y] ++
    match rows.read? with
    | none => [.readUnwritten]
    | some r => gotoBody cfg r x y

/-- GOTO (R130). -/
def execGoto (x y : Byte) (s : State) : Result :=
  beginRequest (opcodeOf (.goto x y)) (gotoScript s.cfg s.rows x y) s

end Sys2Proof.Machine
end

