-- ==== Sys2Proof/Machine/CustomGlyph.lean ====
section
/-! DEFINITION. Custom character programming: GLYPH (44_custom_glyph R140 to R143). -/

namespace Sys2Proof.Machine

/-- GLYPH's pseudocode: all operands are fetched, then the CGRAM address command, then GLYPH_ROWS pattern bytes verbatim,
in order; no settle wait (R140, R141). The request has eight pattern bytes (30_encoding R61), all of them sent with the
parameter of R7 (log 10). -/
def glyphScript (cfg : Config) (slot : Byte) (pattern : List Byte) : List Act :=
  (slot :: pattern).map .fetch
  ++ sendByteActs cfg (cgramCommand (glyphAddress cfg slot)) .command
  ++ (pattern.take cfg.glyphRows).flatMap (fun p => sendByteActs cfg p .data)
  ++ [.respond]

/-- GLYPH (R140). -/
def execGlyph (slot p0 p1 p2 p3 p4 p5 p6 p7 : Byte) (s : State) : Result :=
  beginRequest (opcodeOf (.glyph slot p0 p1 p2 p3 p4 p5 p6 p7))
    (glyphScript s.cfg slot [p0, p1, p2, p3, p4, p5, p6, p7]) s

end Sys2Proof.Machine
end

