-- ==== Sys2Proof/Machine/DisplayControl.lean ====
section
/-! DEFINITION. The display control requests: CLEAR, HOME, ENTRY, DISPCTL, SHIFT and BACKLIGHT (42_display_control
R110 to R122). -/

namespace Sys2Proof.Machine

/-- CLEAR's pseudocode (R110). -/
def clearScript (cfg : Config) : List Act := cmdSettleActs cfg clearCommand ++ [.respond]

/-- HOME's pseudocode (R112). -/
def homeScript (cfg : Config) : List Act := cmdSettleActs cfg homeCommand ++ [.respond]

/-- ENTRY's pseudocode (R114). -/
def entryScript (cfg : Config) (leftToRight shift : Bool) : List Act :=
  cmdSettleActs cfg (entryCommand leftToRight shift) ++ [.respond]

/-- DISPCTL's pseudocode (R116). -/
def dispctlScript (cfg : Config) (display cursor blink : Bool) : List Act :=
  cmdSettleActs cfg (displayCommand display cursor blink) ++ [.respond]

/-- SHIFT's pseudocode (R118). -/
def shiftScript (cfg : Config) (moveDisplay right : Bool) : List Act :=
  cmdSettleActs cfg (shiftCommand moveDisplay right) ++ [.respond]

/-- BACKLIGHT's pseudocode: write BLMASK, then the flush write of 0x00 (R120). -/
def backlightScript (cfg : Config) (on : Bool) : List Act :=
  [.setBacklight (backlightMask cfg on), .write 0x00, .respond]

/-- CLEAR (R110). -/
def execClear (s : State) : Result := beginRequest (opcodeOf .clear) (clearScript s.cfg) s

/-- HOME (R112). -/
def execHome (s : State) : Result := beginRequest (opcodeOf .home) (homeScript s.cfg) s

/-- ENTRY (R114). -/
def execEntry (leftToRight shift : Bool) (s : State) : Result :=
  beginRequest (opcodeOf (.entry leftToRight shift)) (entryScript s.cfg leftToRight shift) s

/-- DISPCTL (R116). -/
def execDispctl (display cursor blink : Bool) (s : State) : Result :=
  beginRequest (opcodeOf (.dispctl display cursor blink)) (dispctlScript s.cfg display cursor blink) s

/-- SHIFT (R118). -/
def execShift (moveDisplay right : Bool) (s : State) : Result :=
  beginRequest (opcodeOf (.shift moveDisplay right)) (shiftScript s.cfg moveDisplay right) s

/-- BACKLIGHT (R120). -/
def execBacklight (on : Bool) (s : State) : Result :=
  beginRequest (opcodeOf (.backlight on)) (backlightScript s.cfg on) s

end Sys2Proof.Machine
end

