-- ==== Sys2Proof/Machine/Initialization.lean ====
section
/-! DEFINITION. The display initialization sequencer: INIT (41_initialization R100 to R104). -/

namespace Sys2Proof.Machine

/-- A full command of INIT: SendByte in mode COMMAND, then INIT_CMD_SETTLE_US (R100, D13). -/
def initCommandActs (cfg : Config) (c : Byte) : List Act := sendByteActs cfg c .command ++ [.wait cfg.initCmdSettleUs]

/-- A resync: SendCommand(RESYNC_NIBBLE), the state after it, the wait after it (R100, R101). -/
def resyncActs (cfg : Config) (i : InitState) (us : Nat) : List Act :=
  sendCommandActs cfg (cfg.resyncNibble.setWidth 8) ++ [.setInitState i, .wait us]

/-- INIT's pseudocode (R100), with the transitions of R101. The commands are return home, function set (4-bit, 2-line,
5x8), display control (on, cursor off, blink off), clear, entry mode (left-to-right, no shift) (R19). -/
def initScript (cfg : Config) (c r : Byte) : List Act :=
  [.fetch c, .fetch r, .setInitState .poweredUnknown, .install c r (backlightMask cfg cfg.initBacklight),
    .wait cfg.powerupWaitUs]
  ++ resyncActs cfg .eightBitFallback1 cfg.resync1WaitUs
  ++ resyncActs cfg .eightBitFallback2 cfg.resync2WaitUs
  ++ resyncActs cfg .eightBitFallback3 cfg.resync3WaitUs
  ++ initCommandActs cfg homeCommand ++ [.setInitState .fourBitConfirmed]
  ++ initCommandActs cfg (functionSetCommand false true false) ++ [.setInitState .functionSet]
  ++ initCommandActs cfg (displayCommand true false false) ++ [.setInitState .displayConfigured]
  ++ initCommandActs cfg clearCommand
  ++ initCommandActs cfg (entryCommand true false)
  ++ [.setInitState .entryModeSet, .setInitState .ready, .respond]

/-- INIT: the one request that needs no READY (R163). -/
def execInit (c r : Byte) (s : State) : Result :=
  beginRequest (opcodeOf (.init c r)) (initScript s.cfg c r) s

end Sys2Proof.Machine
end

