-- ==== Sys2Proof/Machine/LowLevel.lean ====
section
/-! DEFINITION. The low-level requests: SENDBYTE and WRRAW (40_nibble_protocol R86 to R88). -/

namespace Sys2Proof.Machine

/-- SENDBYTE's pseudocode; no settle wait (R86). -/
def sendbyteScript (cfg : Config) (v : Byte) (mode : Mode) : List Act :=
  [.fetch v] ++ sendByteActs cfg v mode ++ [.respond]

/-- WRRAW's pseudocode: one logged write, ORed with BLMASK as every write is (R88). -/
def wrrawScript (b : Byte) : List Act := [.fetch b, .write b, .respond]

/-- SENDBYTE (R86). -/
def execSendbyte (v : Byte) (mode : Mode) (s : State) : Result :=
  beginRequest (opcodeOf (.sendbyte v mode)) (sendbyteScript s.cfg v mode) s

/-- WRRAW (R88). -/
def execWrraw (b : Byte) (s : State) : Result := beginRequest (opcodeOf (.wrraw b)) (wrrawScript b) s

end Sys2Proof.Machine
end

