-- ==== Sys2Proof/Machine/TextOutput.lean ====
section
/-! DEFINITION. Text output: WRSTR (45_text_output R150 to R153). -/

namespace Sys2Proof.Machine

/-- One turn of WRSTR's loop: fetch the character, send it in mode DATA (R150). -/
def charActs (cfg : Config) (c : Byte) : List Act := .fetch c :: sendByteActs cfg c .data

/-- WRSTR's pseudocode: characters are fetched one at a time between writes (D27); "the terminator is consumed and not
sent"; no settle wait (R150). -/
def wrstrScript (cfg : Config) (chars : List Byte) : List Act :=
  chars.flatMap (charActs cfg) ++ [.fetch 0, .respond]

/-- WRSTR (R150). -/
def execWrstr (chars : List Byte) (s : State) : Result :=
  beginRequest (opcodeOf (.wrstr chars)) (wrstrScript s.cfg chars) s

end Sys2Proof.Machine
end

