-- ==== Sys2Proof/Machine/Dispatch.lean ====
section
/-! DEFINITION. What a request does from the fetch of its opcode byte to its end, its fault, or the first thing it has
to wait for (30_encoding R73): one arm per request. The request stands at REQPC; the arm fetches it. -/

namespace Sys2Proof.Machine

def exec (i : Instr) (s : State) : Host.Outcome State Fault Refusal :=
  match i with
  | .init cols rows => Sys2Proof.Machine.execInit cols rows s
  | .clear => Sys2Proof.Machine.execClear s
  | .home => Sys2Proof.Machine.execHome s
  | .entry leftToRight shift => Sys2Proof.Machine.execEntry leftToRight shift s
  | .dispctl display cursor blink => Sys2Proof.Machine.execDispctl display cursor blink s
  | .shift moveDisplay right => Sys2Proof.Machine.execShift moveDisplay right s
  | .goto x y => Sys2Proof.Machine.execGoto x y s
  | .glyph slot p0 p1 p2 p3 p4 p5 p6 p7 => Sys2Proof.Machine.execGlyph slot p0 p1 p2 p3 p4 p5 p6 p7 s
  | .backlight on => Sys2Proof.Machine.execBacklight on s
  | .wrstr chars => Sys2Proof.Machine.execWrstr chars s
  | .sendbyte value mode => Sys2Proof.Machine.execSendbyte value mode s
  | .wrraw byte => Sys2Proof.Machine.execWrraw byte s

end Sys2Proof.Machine
end

