-- ==== Sys2Proof/Machine/Request.lean ====
section
/-! DEFINITION. The request in progress (10_state R34): going on with one that had to wait for the Transport
(60_exceptions R166) or for the Host (R167), beginning one whose operands are not all there, rejecting an illegal opcode
byte (R162), and going one action at a time, which is how an input (a reset, more bytes) can come between two events. -/

namespace Sys2Proof.Machine

/-- The actions of a request, as its meaning runs them. -/
def scriptOf (i : Instr) (s : State) : List Act :=
  match i with
  | .init c r => initScript s.cfg c r
  | .clear => clearScript s.cfg
  | .home => homeScript s.cfg
  | .entry l sh => entryScript s.cfg l sh
  | .dispctl d c b => dispctlScript s.cfg d c b
  | .shift m r => shiftScript s.cfg m r
  | .goto x y => gotoScript s.cfg s.rows x y
  | .glyph slot p0 p1 p2 p3 p4 p5 p6 p7 => glyphScript s.cfg slot [p0, p1, p2, p3, p4, p5, p6, p7]
  | .backlight on => backlightScript s.cfg on
  | .wrstr chars => wrstrScript s.cfg chars
  | .sendbyte v m => sendbyteScript s.cfg v m
  | .wrraw b => wrrawScript b

/-- The actions an incomplete request can do with the operand bytes there are: a WRSTR sends the characters before the
missing byte, every other request only fetches (R140, R150, R167). -/
def incompleteScript (cfg : Config) (op : Byte) (operands : List Byte) : List Act :=
  if opField op = 0xA then operands.flatMap (charActs cfg) else operands.map .fetch

/-- The actions of the request whose opcode byte and operand bytes these are. -/
def scriptFor (op : Byte) (operands : List Byte) (s : State) : List Act :=
  match decode (op :: operands) with
  | .request i _ => scriptOf i s
  | .incomplete _ got => incompleteScript s.cfg op got
  | .illegal _ => []
  | .empty => []

/-- The actions the request in progress has left: its operand bytes are those fetched and those the Host has supplied
since, and the index says how many actions are done (R34). -/
def remainingActs (r : Progress) (s : State) : List Act :=
  (scriptFor r.opcode (r.operands ++ s.available) s).drop r.next

/-- Go on with the request in progress, up to its end, its fault, or the next thing it has to wait for: the log event that
is due, then the actions left. A write that the Transport never answers is waited for without end (R166). -/
def resume (s : State) : Result :=
  match s.request with
  | none => .next s
  | some r => if r.outstanding.isSome then .next s else runActs (remainingActs r s) s.logged

/-- An illegal opcode byte: IllegalRequest, after its fetch and before any other (R71, R162). -/
def rejectOpcode (op : Byte) (s : State) : Result := .next ((s.started op).raised .illegalRequest)

/-- A legal opcode byte whose operands are not all there: what can be done is done, then the engine waits with BUSY = 1
(R167). NotReady comes first (R163). -/
def beginIncomplete (op : Byte) (operands : List Byte) (s : State) : Result :=
  beginRequest op (incompleteScript s.cfg op operands) s

/-- The fetch of an opcode byte and its checks alone (R73). -/
def openRequest (op : Byte) (s : State) : Result :=
  if legalOpcode op then beginRequest op [] s else rejectOpcode op s

/-- The next event of the request in progress, or its next action that emits none: the log event that is due, or the first
of the actions left. -/
def resumeOnce (s : State) : Result :=
  match s.request with
  | none => .next s
  | some r =>
    if r.outstanding.isSome then .next s
    else if s.logDue.isSome then .next s.logged
    else
      match remainingActs r s with
      | [] => .next s
      | a :: _ => (microAct a s).outcome

/-- One event or one action of the request in progress, or the fetch of the next opcode byte: the grain at which a reset or
a Host's byte can come (R191). `step` does all the actions it can at once (log 4). -/
def microStep (s : State) : Result :=
  if s.resetInput then .next s.afterReset
  else if s.fault then .next s
  else if s.busy then resumeOnce s
  else
    match s.available with
    | [] => .next s
    | op :: _ => openRequest op s

/-- `n` micro-steps. -/
def microRun : Nat → State → Result
  | 0, s => .next s
  | n + 1, s =>
    match microStep s with
    | .next s' => microRun n s'
    | .fault f => .fault f
    | .refused r => .refused r

/-- The state in which the next step fetches these bytes: they stand in the stream from REQPC on, and nothing keeps the
engine from fetching (no reset, no fault, no request in progress). -/
def State.placed (bs : List Byte) (s : State) : State :=
  { s.supply s.reqpc bs with
    resetInput := false, fault := false, cause := 0, busy := false, request := none, logDue := none }

end Sys2Proof.Machine
end

