-- ==== Sys2Proof/Machine/Step.lean ====
section
/-! DEFINITION. One step of the machine: the request cycle of 30_encoding R73, under the reset input (70_reset R191) and
the fault state (60_exceptions R161). A step that has nothing to do answers the same state: an idle engine waits, a
faulted one is stopped, a hung one hangs (log 6, 7). -/

namespace Sys2Proof.Machine

/-- One step. -/
def step (s : State) : Host.Outcome State Fault Refusal :=
  if s.resetInput then .next s.afterReset
  else if s.fault then .next s
  else if s.busy then resume s
  else
    match decode s.available with
    | .request i _ => exec i s
    | .illegal op => rejectOpcode op s
    | .incomplete op operands => beginIncomplete op operands s
    | .empty => .next s

/-- The table word's bytes, placed where the next step fetches. -/
def State.withFetchWord (s : State) (nbits w : Nat) : State := s.placed (tableBytes nbits w)

end Sys2Proof.Machine
end

