-- ==== Sys2Proof/Safety.lean ====
section
/-! DEFINITION. The terms claims use: how a run stands (60_exceptions R160), the machine's invariant, what a request that
completes leaves behind, the view of the expander port and of the nibbles latched through it (20_memory R42, 10_state
R36), and the Host's duties (70_reset R193, R204). -/

namespace Sys2Proof.Machine

/-! ### How a run stands (R160) -/

/-- Idle: no request in progress, not faulted. -/
def State.idle (s : State) : Bool := !s.busy && !s.fault

/-- The run is complete: the engine is idle and no opcode byte waits (R167: "The run is not complete while BUSY = 1";
R161: "A faulted engine is never a completed run"). -/
def State.complete (s : State) : Bool := s.idle && s.available.isEmpty

/-- A request other than INIT can write: READY = 1 (R163) and BLMASK is written (R37), which every INIT sees to (R100). -/
def State.canWrite (s : State) : Bool := s.ready && s.blmask.written

/-- Ready to take a request: no reset input, no fault, no request in progress (R73). -/
def State.accepting (s : State) : Bool := !s.resetInput && !s.fault && !s.busy

/-! ### The invariant -/

/-- INIT in progress is still fetching its operands, so that it has not yet written the registers. -/
def Progress.fetchingInit (r : Progress) : Bool :=
  opField r.opcode == 0x1 && decide (r.operands.length < 2) && r.next == r.operands.length

/-- COLS, ROWS and BLMASK have been written. -/
def State.registersWritten (s : State) : Bool := s.cols.written && s.rows.written && s.blmask.written

/-- What holds of the request in progress: a legal opcode byte, no fault, and the registers written, unless it is an
INIT that has not come to write them; every request but INIT found READY = 1. -/
def State.requestOk (s : State) (r : Progress) : Bool :=
  !s.fault && legalOpcode r.opcode && (r.fetchingInit || s.registersWritten) && (!needsReady r.opcode || s.ready)

/-- The machine's invariant: the parameters meet R8; the stream keeps its form; BLMASK is 0x00 or BIT_LED (R23); FAULT
and CAUSE agree and CAUSE is at most 3 (R29); READY = 1 only with the registers written (R37, R100); BUSY says whether a
request is in progress (R28, R34), and such a request is sound; only a request in progress has a log event due (R81). -/
structure State.Inv (s : State) : Prop where
  cfg : s.cfg.valid = true
  stream : s.stream.wf
  blmask : s.blmask.value = 0x00 ∨ s.blmask.value = s.cfg.bitLed
  cause : s.cause.toNat ≤ 3 ∧ (s.fault = true ↔ s.cause ≠ 0)
  ready : s.ready = true → s.registersWritten = true
  busy : s.busy = s.request.isSome
  request : ∀ r, s.request = some r → s.requestOk r = true
  logDue : s.logDue.isSome = true → s.busy = true

/-! ### What a completed request leaves behind -/

/-- One thing a request puts on the bus: a logged write of a byte (before the backlight OR) or a wait. -/
inductive BusItem where
  | write (b : Byte)
  | wait (us : Nat)
  deriving DecidableEq, Repr

/-- The Transport answers each of the next `n` writes. -/
def Transport.answers : Nat → Transport → Bool
  | 0, _ => true
  | n + 1, t =>
    match t.next? with
    | none => false
    | some (_, t') => Transport.answers n t'

/-- The Transport's answers to the next writes, and the rest. -/
def Transport.take : Nat → Transport → List Bool × Transport
  | 0, t => ([], t)
  | n + 1, t =>
    match t.next? with
    | none => ([], t)
    | some (ack, t') => (ack :: (Transport.take n t').1, (Transport.take n t').2)

/-- The number of writes among the items. -/
def writeCount : List BusItem → Nat
  | [] => 0
  | .write _ :: rest => writeCount rest + 1
  | .wait _ :: rest => writeCount rest

/-- The events of the items under a backlight mask, given the answers to the writes: `W(b | mask, ack)` for a write,
then `L(b | mask)` if it failed (R81); `T(us)` for a wait, nothing for `Wait(0)` (R14). -/
def busEvents (mask : Byte) : List BusItem → List Bool → List Event
  | [], _ => []
  | .wait us :: rest, acks => (if us = 0 then [] else [.t us]) ++ busEvents mask rest acks
  | .write _ :: _, [] => []
  | .write b :: rest, ack :: acks =>
    (.w (b ||| mask) ack :: if ack then [] else [.l (b ||| mask)]) ++ busEvents mask rest acks

/-- The bytes on the bus of the items under a backlight mask, in order. -/
def busBytes (mask : Byte) : List BusItem → List Byte
  | [] => []
  | .write b :: rest => (b ||| mask) :: busBytes mask rest
  | .wait _ :: rest => busBytes mask rest

/-- The state after a request of `len` bytes that puts `items` on the bus under a backlight mask, completes, and writes
no register: REQPC is past the request (R62), BUSY = 0, FAILED says whether a write failed (R30), the events are those
of the items and then one response (R82), and the Transport was asked for each write (R14). -/
def State.afterRequest (s : State) (len : Nat) (mask : Byte) (items : List BusItem) : State :=
  let (acks, rest) := s.transport.take (writeCount items)
  { s with
    reqpc := s.reqpc + len
    busy := false
    request := none
    logDue := none
    failed := acks.contains false
    transport := { rest with calls := s.transport.calls ++ (busBytes mask items).map (busWrite s.cfg) }
    trace := s.trace ++ busEvents mask items acks ++ [.resp (if acks.contains false then 0xFF else 0x00)] }

/-- The state after a request that raises a fault once `fetched` of its bytes are fetched: no event, and only REQPC,
FAULT, CAUSE, BUSY and FAILED change (R161, R169). -/
def State.afterFault (s : State) (fetched : Nat) (cause : BitVec 4) : State :=
  { s with
    reqpc := s.reqpc + fetched
    fault := true
    cause := cause
    busy := false
    failed := false
    request := none
    logDue := none }

/-- SendByte as bus items (R84). -/
def sendByteItems (cfg : Config) (v : Byte) (mode : Mode) : List BusItem := (sendByteBytes cfg v mode).map .write

/-- SendCommand as bus items (R85). -/
def sendCommandItems (cfg : Config) (v : Byte) : List BusItem := (sendCommandBytes cfg v).map .write

/-- A request that is refused with NotReady while READY = 0: CAUSE = 2, REQPC one past the opcode byte (R163). -/
def RefusedUntilReady (i : Instr) : Prop :=
  ∀ s : State, s.ready = false → exec i s = .next (s.afterFault 1 2)

/-- An opcode byte of the request `op` with a bit of `reserved` set in F is illegal, whatever follows it (R71). -/
def ReservedFlagsIllegal (op reserved : Byte) : Prop :=
  ∀ (f : Byte) (bs : List Byte), f &&& 0xF0 = 0 → f &&& reserved ≠ 0 → decode ((op ||| f) :: bs) = .illegal (op ||| f)

/-- The INIT_STATE values that actions write, in order. -/
def initStateWrites : List Act → List InitState
  | [] => []
  | .setInitState i :: rest => i :: initStateWrites rest
  | .fetch _ :: rest => initStateWrites rest
  | .install _ _ _ :: rest => initStateWrites rest
  | .setBacklight _ :: rest => initStateWrites rest
  | .write _ :: rest => initStateWrites rest
  | .wait _ :: rest => initStateWrites rest
  | .readUnwritten :: rest => initStateWrites rest
  | .raise _ :: rest => initStateWrites rest
  | .respond :: rest => initStateWrites rest

/-- INIT_STATE while INIT's write `k` (of 0 to 48) stands: 3 writes a resync, then 8 a command (R100, R101). -/
def initStateAtWrite (k : Nat) : InitState :=
  if k < 3 then .poweredUnknown
  else if k < 6 then .eightBitFallback1
  else if k < 9 then .eightBitFallback2
  else if k < 17 then .eightBitFallback3
  else if k < 25 then .fourBitConfirmed
  else if k < 33 then .functionSet
  else .displayConfigured

/-! ### What stands in the trace -/

/-- The bytes of the `W` events, in order. -/
def writtenBytes : List Event → List Byte
  | [] => []
  | .w b _ :: rest => b :: writtenBytes rest
  | .t _ :: rest => writtenBytes rest
  | .l _ :: rest => writtenBytes rest
  | .resp _ :: rest => writtenBytes rest

/-- The sum of the waits (R210). -/
def totalWait : List Event → Nat
  | [] => 0
  | .t us :: rest => us + totalWait rest
  | .w _ _ :: rest => totalWait rest
  | .l _ :: rest => totalWait rest
  | .resp _ :: rest => totalWait rest

/-- The number of `T` events (R210). -/
def waitEventCount : List Event → Nat
  | [] => 0
  | .t _ :: rest => waitEventCount rest + 1
  | .w _ _ :: rest => waitEventCount rest
  | .l _ :: rest => waitEventCount rest
  | .resp _ :: rest => waitEventCount rest

/-- Some write failed. -/
def anyFailure (es : List Event) : Bool := es.any fun e => match e with
  | .w _ false => true
  | .w _ true => false
  | .t _ => false
  | .l _ => false
  | .resp _ => false

/-- A log event stands right after each failed write, with its byte, and nowhere else (R81, R165); `due` is the byte of a
failed write whose log event has not come. -/
def failuresLogged : Option Byte → List Event → Bool
  | none, [] => true
  | some _, [] => false
  | none, .w b ack :: rest => failuresLogged (if ack then none else some b) rest
  | none, .t _ :: rest => failuresLogged none rest
  | none, .l _ :: _ => false
  | none, .resp _ :: rest => failuresLogged none rest
  | some b, .l b' :: rest => b == b' && failuresLogged none rest
  | some _, .w _ _ :: _ => false
  | some _, .t _ :: _ => false
  | some _, .resp _ :: _ => false

/-- The last expander byte written with an answer of success: "the model's only view" of the port (R36). -/
def portView : List Event → Option Byte
  | [] => none
  | e :: rest =>
    match portView rest, e with
    | some b, _ => some b
    | none, .w b true => some b
    | none, _ => none

/-- The HD44780 lines as the expander bits drive them (R42). -/
structure Lines where
  data : Nibble
  led : Bool
  e : Bool
  rw : Bool
  rs : Bool
  deriving DecidableEq, Repr

/-- "D7-D6-D5-D4-LED-E-RW-RS mapped to expander output bits 7-6-5-4-3-2-1-0" (R42). -/
def linesOf (b : Byte) : Lines := ⟨b.extractLsb' 4 4, b.getLsbD 3, b.getLsbD 2, b.getLsbD 1, b.getLsbD 0⟩

/-- The nibbles latched by falling edges of E along a sequence of port bytes, each with its RS line (R83 phase 3, R206);
`high` says whether E stands high before the first byte. Which bytes reach the port is not said here: taken over
`writtenBytes`, the bytes of failed writes among them, it is the view of a bus that loses no write (log 19; R36 and R209
let a failed write be lost). -/
def latched : Bool → List Byte → List (Nibble × Bool)
  | _, [] => []
  | high, b :: rest =>
    let now := linesOf b
    (if high && !now.e then [(now.data, now.rs)] else []) ++ latched now.e rest

/-! ### Duties of the Host and the platform -/

/-- The Host sends INIT as the first request (R193). -/
def bootsWithInit : List Instr → Bool
  | .init _ _ :: _ => true
  | _ => false

/-- After a GLYPH the Host repositions into DDRAM (GOTO, or a set-DDRAM-address command) before any data byte (R204);
`inCgram` says whether a GLYPH is pending. -/
def glyphDutyKept : Bool → List Instr → Bool
  | _, [] => true
  | inCgram, i :: rest =>
    match i with
    | .glyph _ _ _ _ _ _ _ _ _ => glyphDutyKept true rest
    | .goto _ _ => glyphDutyKept false rest
    | .sendbyte v .command => glyphDutyKept (inCgram && !v.getLsbD 7) rest
    | .sendbyte _ .data => !inCgram && glyphDutyKept inCgram rest
    | .wrstr cs => (!inCgram || cs.isEmpty) && glyphDutyKept inCgram rest
    | .init _ _ => glyphDutyKept inCgram rest
    | .clear => glyphDutyKept inCgram rest
    | .home => glyphDutyKept inCgram rest
    | .entry _ _ => glyphDutyKept inCgram rest
    | .dispctl _ _ _ => glyphDutyKept inCgram rest
    | .shift _ _ => glyphDutyKept inCgram rest
    | .backlight _ => glyphDutyKept inCgram rest
    | .wrraw _ => glyphDutyKept inCgram rest

/-- The platform's Transport takes at least E_PULSE_MIN_NS per write, which holds E high long enough (R201). -/
def platformHoldsEnable (cfg : Config) (writeNs : Nat) : Bool := decide (cfg.ePulseMinNs ≤ writeNs)

end Sys2Proof.Machine
end

