-- ==== Sys2Proof/Certificates/Slice0/Obligations.lean ====
section
/-! DEFINITION. The statements for the provers. Each docstring says which rule of spec/ it formalises, or the sentences
it rests on. A statement about `exec i s` is about every state `s`, whatever its parameters, answers of the Transport
and trace. -/

open Sys2Proof Sys2Proof.Machine

/-! ### Encoding -/

/-- Every well-formed request is what the decoder reads from its encoding, with the bytes after it left over
(30_encoding sections 1, 2 and 6). -/
def Obligations.DecodeOfEncode : Prop :=
  ∀ (i : Instr) (rest : List Byte), i.wellFormed = true → decode (encode i ++ rest) = .request i rest

/-- What the decoder reads as a request is the encoding of that request, which is well-formed: no word has two meanings
and no bit of it is dropped (30_encoding sections 1 to 3). -/
def Obligations.EncodeOfDecode : Prop :=
  ∀ (bs : List Byte) (i : Instr) (rest : List Byte), decode bs = .request i rest →
    i.wellFormed = true ∧ encode i ++ rest = bs

/-- "Every byte value as an opcode byte is exactly one of: one of the twelve requests, selected by the match/mask of
opcode_table.json; or illegal" (R74, which the spec derives from R61 and R71). -/
def Obligations.OpcodeByteHasOneMeaning : Prop :=
  ∀ op : Byte, ((opcodeTable.filter (rowMatches op)).map (·.mnemonic)) = ((decodeOpcode op).map mnemonicOf).toList

/-- R71: the illegal opcode bytes are those with OP 0x0, 0xD, 0xE or 0xF, and those of a defined OP with a reserved F bit
set; they alone are not decoded; decoding one raises IllegalRequest, after the opcode byte is fetched and before any
operand byte is fetched or any event is emitted. -/
def Obligations.IllegalEncodingsRaise : Prop :=
  (∀ op : Byte, legalOpcode op = false ↔
    (opField op = 0x0 ∨ opField op = 0xD ∨ opField op = 0xE ∨ opField op = 0xF) ∨
    ((opField op = 0x4 ∨ opField op = 0x6) ∧ flagField op &&& 0xC ≠ 0) ∨
    (opField op = 0x5 ∧ flagField op &&& 0x8 ≠ 0) ∨
    ((opField op = 0x9 ∨ opField op = 0xB) ∧ flagField op &&& 0xE ≠ 0) ∨
    ((opField op = 0x1 ∨ opField op = 0x2 ∨ opField op = 0x3 ∨ opField op = 0x7 ∨ opField op = 0x8 ∨
      opField op = 0xA ∨ opField op = 0xC) ∧ flagField op ≠ 0)) ∧
  (∀ (op : Byte) (bs : List Byte), decode (op :: bs) = .illegal op ↔ legalOpcode op = false) ∧
  (∀ (s : State) (op : Byte) (bs : List Byte), s.accepting = true → s.available = op :: bs → legalOpcode op = false →
    step s = .next (s.afterFault 1 1))

/-- Words written out from the spec's encodings (30_encoding R77, 95_test_vectors) decode to the requests they stand
for. -/
def Obligations.SpecWordsDecode : Prop :=
  decode [0x10, 0x14, 0x04] = .request (.init 20 4) [] ∧
  decode [0x43] = .request (.entry true true) [] ∧
  decode [0x56] = .request (.dispctl true true false) [] ∧
  decode [0x62] = .request (.shift true false) [] ∧
  decode [0x70, 0x05, 0x01, 0x20] = .request (.goto 5 1) [0x20] ∧
  decode [0x91] = .request (.backlight true) [] ∧
  decode [0xA0, 0x48, 0x69, 0x00] = .request (.wrstr [0x48, 0x69]) [] ∧
  decode [0xB1, 0x41] = .request (.sendbyte 0x41 .data) [] ∧
  decode [0xC0, 0x04] = .request (.wrraw 0x04) [] ∧
  decode [0x44] = .illegal 0x44 ∧
  decode [0x80, 0x01] = .incomplete 0x80 [0x01]

/-- The assembler's pseudo-requests expand to these bytes (R78; of PRINT, the text that the Host has rendered). -/
def Obligations.PseudoRequestsExpand : Prop :=
  ∀ (v : Byte) (text : List Byte),
    encode (expandPseudo (.sendCmd v)) = [0xB0, v] ∧ encode (expandPseudo (.sendData v)) = [0xB1, v] ∧
    encode (expandPseudo (.putc v)) = [0xB1, v] ∧
    encode (expandPseudo .blOn) = [0x91] ∧ encode (expandPseudo .blOff) = [0x90] ∧
    encode (expandPseudo .cursorLeft) = [0x60] ∧ encode (expandPseudo .cursorRight) = [0x61] ∧
    encode (expandPseudo .scrollLeft) = [0x62] ∧ encode (expandPseudo .scrollRight) = [0x63] ∧
    encode (expandPseudo (.setDdram v)) = [0xB0, 0x80 ||| v] ∧
    encode (expandPseudo (.print text)) = 0xA0 :: (text ++ [0x00])

/-! ### The step, the fault state and reset -/

/-- When the bytes at REQPC decode to a request and the engine takes a request (no reset input, FAULT = 0, BUSY = 0), the
step is exec of that request at that state, and nothing around it (30_encoding section 4). -/
def Obligations.StepRunsDecodedRequest : Prop :=
  ∀ (s : State) (i : Instr) (rest : List Byte), s.accepting = true → decode s.available = .request i rest →
    step s = exec i s

/-- R168: "IllegalRequest, then NotReady, then RowTableOverrun": an illegal opcode byte raises IllegalRequest whatever
READY is; a legal one that needs READY raises NotReady if READY = 0; only after both checks can a step that begins a
request fault, and then it is a GOTO's RowTableOverrun. Faults and transport failures never coincide. -/
def Obligations.FaultPriority : Prop :=
  ∀ (s : State) (op : Byte) (bs : List Byte), s.accepting = true → s.available = op :: bs →
    (legalOpcode op = false → step s = .next (s.afterFault 1 1)) ∧
    (legalOpcode op = true → needsReady op = true → s.ready = false → step s = .next (s.afterFault 1 2)) ∧
    (legalOpcode op = true → (needsReady op = false ∨ s.ready = true) →
      ∀ t, step s = .next t → t.fault = true → opField op = 0x7 ∧ t = s.afterFault 3 3)

/-- R163: every legal request other than INIT raises NotReady while READY = 0, after the opcode byte is fetched and
before any operand byte; it records CAUSE only. -/
def Obligations.RequestBeforeInitIsNotReady : Prop :=
  (∀ (i : Instr) (s : State), (∀ c r, i ≠ .init c r) → s.ready = false → exec i s = .next (s.afterFault 1 2)) ∧
  (∀ (s : State) (op : Byte) (bs : List Byte), s.accepting = true → s.available = op :: bs → legalOpcode op = true →
    opField op ≠ 0x1 → s.ready = false → step s = .next (s.afterFault 1 2))

/-- R161: a raise sets FAULT and CAUSE, ends BUSY and emits nothing; "While FAULT = 1 the engine has no enabled step. It
fetches no request byte, emits no event and changes no state"; STATUS shows FAULT and CAUSE; only reset clears FAULT; a
faulted engine is never a completed run. The last clause: the step in which a request faults emits no event (no log event
of an earlier write is due before a step, log 12: `EventsComeOneAtATime`). -/
def Obligations.FaultedEngineIsStopped : Prop :=
  (∀ (c : Cause) (s : State), (s.raised c).fault = true ∧ (s.raised c).cause = c.code ∧ (s.raised c).busy = false ∧
    (s.raised c).trace = s.trace) ∧
  (∀ s : State, s.fault = true → s.resetInput = false → step s = .next s) ∧
  (∀ s : State, s.fault = true → s.status.getLsbD 2 = true ∧ s.status.extractLsb' 4 4 = s.cause ∧ s.complete = false) ∧
  (∀ s t : State, step s = .next t → s.fault = true → t.fault = false → s.resetInput = true) ∧
  (∀ s t : State, s.logDue = none → step s = .next t → s.fault = false → t.fault = true → t.trace = s.trace)

/-- R29: FAULT and CAUSE change only by a raise, to 1 and one of CAUSE 1 (IllegalRequest), 2 (NotReady) and
3 (RowTableOverrun), and by a reset, to 0 and 0; FAULT = 1 means that the engine has stopped. -/
def Obligations.OnlyARaiseWritesCause : Prop :=
  Cause.illegalRequest.code = 1 ∧ Cause.notReady.code = 2 ∧ Cause.rowTableOverrun.code = 3 ∧
  (∀ s t : State, s.resetInput = false → step s = .next t → (t.fault = s.fault ∧ t.cause = s.cause) ∨
    (s.fault = false ∧ t.fault = true ∧ ∃ c : Cause, t.cause = c.code)) ∧
  (∀ s : State, s.fault = true → s.resetInput = false → step s = .next s) ∧
  (∀ s : State, ∃ t, step s.assertReset = .next t ∧ t.fault = false ∧ t.cause = 0) ∧
  State.reset.fault = false ∧ State.reset.cause = 0

/-- R164: RowTableOverrun is raised by GOTO only, where ROWS = 0 or the clamped row is above 3; after all operand bytes
are fetched and before any write; REQPC is one past the request; it records CAUSE only. -/
def Obligations.RowTableOverrunIsGotosAlone : Prop :=
  let overruns := fun (rows y : Byte) => rows = 0 ∨ 3 < (if rows ≤ y then rows - 1 else y)
  (∀ (i : Instr) (s t : State), exec i s = .next t → s.fault = false → t.fault = true → t.cause = 3 →
    ∃ x y, i = .goto x y ∧ s.ready = true ∧ s.rows.written = true ∧ overruns s.rows.value y ∧ t = s.afterFault 3 3) ∧
  (∀ (x y : Byte) (s : State), s.ready = true → s.rows.written = true → overruns s.rows.value y →
    exec (.goto x y) s = .next (s.afterFault 3 3))

/-- R190, R191: the state after reset, both at State.reset and after the reset input in any state, mid-request and
faulted ones among them; no event, the writes made stay made, the request in progress is dropped. R192, of what stands
outside the engine: the Transport's answers to come and the writes it was asked for stay as they are; a write that was not
answered is dropped with its request (the model's choice, log 21). The request stream is emptied (the model's choice,
log 5). -/
def Obligations.ResetLeavesResetState : Prop :=
  let isReset : State → Prop := fun t =>
    t.initState = .poweredUnknown ∧ t.ready = false ∧ t.busy = false ∧ t.fault = false ∧ t.cause = 0 ∧
    t.failed = false ∧ t.reqpc = 0 ∧ t.request = none ∧ t.cols.written = false ∧ t.rows.written = false ∧
    t.blmask.written = false ∧ t.logDue = none ∧ t.status = 0x00
  isReset State.reset ∧ State.reset.trace = [] ∧
  ∀ s : State, ∃ t, step s.assertReset = .next t ∧ isReset t ∧ t.trace = s.trace ∧
    t.transport = s.transport ∧ t.stream = []

/-- FetchReq "blocks while the Host has supplied no byte" (00_scope section 5): the idle engine waits, unchanged. -/
def Obligations.IdleEngineWaits : Prop :=
  ∀ s : State, s.accepting = true → s.available = [] → step s = .next s

/-- R31: the layout of STATUS, its reset value, and that a write to it has no effect. -/
def Obligations.StatusLayout : Prop :=
  (∀ s : State, s.status.getLsbD 0 = s.busy ∧ s.status.getLsbD 1 = s.ready ∧ s.status.getLsbD 2 = s.fault ∧
    s.status.getLsbD 3 = false ∧ s.status.extractLsb' 4 4 = s.cause) ∧
  (∀ (b : Byte) (s : State), s.writeStatus b = s) ∧ State.reset.status = 0x00

/-- Every row of R7 at its default, which meet R8, and a write with them; State.reset has these parameters (00_scope
section 3). -/
def Obligations.ParameterDefaults : Prop :=
  let c := State.reset.cfg
  c = Config.default ∧ c.valid = true ∧
  c.regWidth = 8 ∧ c.devAddr = 0x27 ∧ c.xferLen = 1 ∧ c.sendStop = true ∧
  c.bitRs = 0x01 ∧ c.bitRw = 0x02 ∧ c.bitE = 0x04 ∧ c.bitLed = 0x08 ∧ c.dataShift = 4 ∧
  c.modeCommand = 0x00 ∧ c.modeData = 0x01 ∧ c.idleByte = 0x02 ∧ c.initBacklight = true ∧
  c.powerupWaitUs = 200000 ∧ c.resync1WaitUs = 5000 ∧ c.resync2WaitUs = 100 ∧ c.resync3WaitUs = 0 ∧
  c.cmdSettleUs = 2000 ∧ c.initCmdSettleUs = 2000 ∧ c.ePulseMinNs = 230 ∧
  c.rowOff.toList = [0x00, 0x40, 0x14, 0x54] ∧ c.glyphSlots = 8 ∧ c.glyphRows = 8 ∧ c.resyncNibble = 0x3 ∧
  busWrite c 0x38 = ⟨0x27, [0x38], 1, true⟩

/-! ### The transfer protocol -/

/-- R84: SendByte is exactly 8 writes and no wait, `h, h|E, h, IDLE, l, l|E, l, IDLE` under the backlight mask, with
`h = (v & 0xF0) | mode` and `l = ((v & 0x0F) << 4) | mode` (DATA_SHIFT = 4), mode 0 for COMMAND and 1 for DATA. -/
def Obligations.SendByteIsEightPhases : Prop :=
  ∀ (cfg : Config) (v mask : Byte) (mode : Mode), cfg.dataShift = 4 →
    let m := modeByte cfg mode
    let h := (v &&& 0xF0) ||| m
    let l := ((v &&& 0x0F) <<< 4) ||| m
    let phases := [h, h ||| cfg.bitE, h, cfg.idleByte, l, l ||| cfg.bitE, l, cfg.idleByte]
    sendByteItems cfg v mode = phases.map BusItem.write ∧
    busEvents mask (sendByteItems cfg v mode) (List.replicate 8 true) = phases.map (fun b => .w (b ||| mask) true) ∧
    modeByte Config.default .command = 0x00 ∧ modeByte Config.default .data = 0x01

/-- R85: SendCommand is exactly 3 writes, phases 1 to 3 of the low nibble with RS = 0 (DATA_SHIFT = 4). -/
def Obligations.SendCommandIsThreePhases : Prop :=
  ∀ (cfg : Config) (v : Byte), cfg.dataShift = 4 →
    let base := (v &&& 0x0F) <<< 4
    sendCommandItems cfg v = [base, base ||| cfg.bitE, base].map BusItem.write

/-- The falling edges of a SendByte latch its high nibble and then its low nibble, with RS = mode, under either backlight
mask, on a bus that loses no write (log 19; 40_nibble_protocol section 2, phase 3; the spec's reading of the E edge,
70_reset R206). -/
def Obligations.SendByteLatchesBothNibbles : Prop :=
  ∀ (v mask : Byte) (mode : Mode), mask = 0x00 ∨ mask = 0x08 →
    latched false ((sendByteBytes Config.default v mode).map (· ||| mask)) =
      [(hiNibble v, mode == .data), (loNibble v, mode == .data)]

/-! ### What each request does -/

/-- R110, R111: CLEAR. -/
def Obligations.ClearSendsClear : Prop :=
  encode .clear = [0x20] ∧ ReservedFlagsIllegal 0x20 0x0F ∧ RefusedUntilReady .clear ∧
  ∀ s : State, s.canWrite = true → s.transport.answers 8 = true →
    exec .clear s = .next (s.afterRequest 1 s.blmask.value
      (sendByteItems s.cfg 0x01 .command ++ [.wait s.cfg.cmdSettleUs]))

/-- R112: HOME. -/
def Obligations.HomeSendsHome : Prop :=
  encode .home = [0x30] ∧ ReservedFlagsIllegal 0x30 0x0F ∧ RefusedUntilReady .home ∧
  ∀ s : State, s.canWrite = true → s.transport.answers 8 = true →
    exec .home s = .next (s.afterRequest 1 s.blmask.value
      (sendByteItems s.cfg 0x02 .command ++ [.wait s.cfg.cmdSettleUs]))

/-- R114: ENTRY. -/
def Obligations.EntrySendsEntryMode : Prop :=
  ReservedFlagsIllegal 0x40 0x0C ∧
  ∀ id sh : Bool,
    let f : Byte := (if id then 0x02 else 0x00) ||| (if sh then 0x01 else 0x00)
    encode (.entry id sh) = [0x40 ||| f] ∧ RefusedUntilReady (.entry id sh) ∧
    ∀ s : State, s.canWrite = true → s.transport.answers 8 = true →
      exec (.entry id sh) s = .next (s.afterRequest 1 s.blmask.value
        (sendByteItems s.cfg (0x04 ||| f) .command ++ [.wait s.cfg.cmdSettleUs]))

/-- R116: DISPCTL. -/
def Obligations.DispctlSendsDisplayControl : Prop :=
  ReservedFlagsIllegal 0x50 0x08 ∧
  ∀ d c b : Bool,
    let f : Byte := (if d then 0x04 else 0x00) ||| (if c then 0x02 else 0x00) ||| (if b then 0x01 else 0x00)
    encode (.dispctl d c b) = [0x50 ||| f] ∧ RefusedUntilReady (.dispctl d c b) ∧
    ∀ s : State, s.canWrite = true → s.transport.answers 8 = true →
      exec (.dispctl d c b) s = .next (s.afterRequest 1 s.blmask.value
        (sendByteItems s.cfg (0x08 ||| f) .command ++ [.wait s.cfg.cmdSettleUs]))

/-- R118: SHIFT. -/
def Obligations.ShiftSendsShift : Prop :=
  ReservedFlagsIllegal 0x60 0x0C ∧
  ∀ sc rl : Bool,
    encode (.shift sc rl) = [0x60 ||| (if sc then 0x02 else 0x00) ||| (if rl then 0x01 else 0x00)] ∧
    RefusedUntilReady (.shift sc rl) ∧
    ∀ s : State, s.canWrite = true → s.transport.answers 8 = true →
      exec (.shift sc rl) s = .next (s.afterRequest 1 s.blmask.value
        (sendByteItems s.cfg (0x10 ||| (if sc then 0x08 else 0x00) ||| (if rl then 0x04 else 0x00)) .command
          ++ [.wait s.cfg.cmdSettleUs]))

/-- R120: BACKLIGHT writes BLMASK and then flushes 0x00 under the new mask; no wait. -/
def Obligations.BacklightSetsMaskAndFlushes : Prop :=
  ReservedFlagsIllegal 0x90 0x0E ∧
  ∀ l : Bool,
    encode (.backlight l) = [0x90 ||| (if l then 0x01 else 0x00)] ∧ RefusedUntilReady (.backlight l) ∧
    ∀ s : State, s.ready = true → s.transport.answers 1 = true →
      let m := if l then s.cfg.bitLed else 0x00
      exec (.backlight l) s = .next { s.afterRequest 1 m [.write 0x00] with blmask := ⟨m, true⟩ }

/-- R130, R131: GOTO clamps the row at Y ≥ ROWS, sends 0x80 | (X + ROWOFF[row]) in mode COMMAND with no wait, and raises
RowTableOverrun before any write where ROWS = 0 or the clamped row is above 3. -/
def Obligations.GotoSendsCursorAddress : Prop :=
  ReservedFlagsIllegal 0x70 0x0F ∧
  ∀ x y : Byte,
    encode (.goto x y) = [0x70, x, y] ∧ RefusedUntilReady (.goto x y) ∧
    ∀ s : State, s.ready = true → s.rows.written = true →
      let yc := if s.rows.value ≤ y then s.rows.value - 1 else y
      (s.rows.value = 0 ∨ 3 < yc → exec (.goto x y) s = .next (s.afterFault 3 3)) ∧
      (s.rows.value ≠ 0 → s.blmask.written = true → s.transport.answers 8 = true → ∀ i : Fin 4, yc.toNat = i.val →
        exec (.goto x y) s = .next (s.afterRequest 3 s.blmask.value
          (sendByteItems s.cfg (0x80 ||| (x + s.cfg.rowOff[i])) .command)))

/-- "goto(x, y) for y in 0–3 produces DDRAM address x + {0x00,0x40,0x14,0x54}[y]" for every x (R132): with the row table
of R33 and four rows, the bytes on the bus, whatever COLS holds. -/
def Obligations.GotoNeverChecksColumn : Prop :=
  ∀ (s : State) (x : Byte) (y : Fin 4) (c : DisplayReg), s.cfg = Config.default → s.canWrite = true →
    s.rows = ⟨4, true⟩ → s.transport.answers 8 = true →
    exec (.goto x (BitVec.ofNat 8 y.val)) { s with cols := c } = .next { s.afterRequest 3 s.blmask.value
      (sendByteItems s.cfg (0x80 ||| (x + #[0x00, 0x40, 0x14, 0x54][y])) .command) with cols := c }

/-- "For ROWS in 1..4 and every Y ≥ ROWS, GOTO(X, Y) emits exactly the writes of GOTO(X, ROWS - 1)" (R133, which the spec
derives from R130): the completed states are equal. -/
def Obligations.GotoClampsToLastRow : Prop :=
  ∀ (s t : State) (x y : Byte), 1 ≤ s.rows.value → s.rows.value ≤ 4 → s.rows.value ≤ y → t.busy = false →
    exec (.goto x y) s = .next t → exec (.goto x (s.rows.value - 1)) s = .next t

/-- R140, R141, R142: GLYPH sends 0x40 | ((SLOT8 & 7) << 3) in mode COMMAND, for every SLOT8, and then the eight pattern
bytes verbatim in mode DATA, with no wait (GLYPH_SLOTS = GLYPH_ROWS = 8). -/
def Obligations.GlyphSendsSlotAndPattern : Prop :=
  ReservedFlagsIllegal 0x80 0x0F ∧
  ∀ slot p0 p1 p2 p3 p4 p5 p6 p7 : Byte,
    encode (.glyph slot p0 p1 p2 p3 p4 p5 p6 p7) = [0x80, slot, p0, p1, p2, p3, p4, p5, p6, p7] ∧
    RefusedUntilReady (.glyph slot p0 p1 p2 p3 p4 p5 p6 p7) ∧
    ∀ s : State, s.cfg.glyphSlots = 8 → s.cfg.glyphRows = 8 → s.canWrite = true → s.transport.answers 72 = true →
      exec (.glyph slot p0 p1 p2 p3 p4 p5 p6 p7) s = .next (s.afterRequest 10 s.blmask.value
        (sendByteItems s.cfg (0x40 ||| ((slot &&& 0x07) <<< 3)) .command
          ++ [p0, p1, p2, p3, p4, p5, p6, p7].flatMap fun p => sendByteItems s.cfg p .data))

/-- R150: WRSTR sends each character in mode DATA, in order, with no wait; the terminator is consumed and not sent.
A character is never 0x00 (R72). -/
def Obligations.WrstrSendsCharacters : Prop :=
  ReservedFlagsIllegal 0xA0 0x0F ∧
  ∀ cs : List Byte,
    encode (.wrstr cs) = 0xA0 :: (cs ++ [0x00]) ∧ RefusedUntilReady (.wrstr cs) ∧
    ∀ s : State, (Instr.wrstr cs).wellFormed = true → s.canWrite = true →
      s.transport.answers (8 * cs.length) = true →
      exec (.wrstr cs) s = .next (s.afterRequest (cs.length + 2) s.blmask.value
        (cs.flatMap fun c => sendByteItems s.cfg c .data))

/-- R86: SENDBYTE sends V8 in its mode, with no wait. -/
def Obligations.SendbyteSendsOneByte : Prop :=
  ReservedFlagsIllegal 0xB0 0x0E ∧
  ∀ (v : Byte) (mode : Mode),
    encode (.sendbyte v mode) = [0xB0 ||| (if mode = .data then 0x01 else 0x00), v] ∧
    RefusedUntilReady (.sendbyte v mode) ∧
    ∀ s : State, s.canWrite = true → s.transport.answers 8 = true →
      exec (.sendbyte v mode) s = .next (s.afterRequest 2 s.blmask.value (sendByteItems s.cfg v mode))

/-- R88: WRRAW makes one write of B8 | BLMASK and responds 0x00 on success and 0xFF, after the log event, on failure. -/
def Obligations.WrrawWritesOneByte : Prop :=
  ReservedFlagsIllegal 0xC0 0x0F ∧
  ∀ b : Byte,
    encode (.wrraw b) = [0xC0, b] ∧ RefusedUntilReady (.wrraw b) ∧
    ∀ (s : State) (ack : Bool) (rest : Transport), s.canWrite = true → s.transport.next? = some (ack, rest) →
      exec (.wrraw b) s = .next { s with
        reqpc := s.reqpc + 2, busy := false, request := none, logDue := none, failed := !ack
        transport := rest.recorded (busWrite s.cfg (b ||| s.blmask.value))
        trace := s.trace ++
          (if ack then [.w (b ||| s.blmask.value) true, .resp 0x00]
           else [.w (b ||| s.blmask.value) false, .l (b ||| s.blmask.value), .resp 0xFF]) }

/-- R100, R102, R103: INIT in any state, READY or not: it stores the geometry and the backlight, makes the 49 writes and
the waits in this order, whatever the answers are, and ends with INIT_STATE = Ready; it never raises NotReady. Where the
Transport answers only `k` of its writes, it stands at the INIT_STATE its pseudocode gives that write. The waits are
the eight of R100's own event list (its derived count of 7 miscounts them, log 20). -/
def Obligations.InitRunsWholeSequence : Prop :=
  ReservedFlagsIllegal 0x10 0x0F ∧
  ∀ c r : Byte,
    encode (.init c r) = [0x10, c, r] ∧
    (∀ (s : State) (k : Nat), k < 49 → s.transport.answers k = true → s.transport.answers (k + 1) = false →
      ∃ t, exec (.init c r) s = .next t ∧ t.busy = true ∧ t.fault = s.fault ∧ t.initState = initStateAtWrite k) ∧
    ∀ s : State, s.transport.answers 49 = true →
      let m := if s.cfg.initBacklight then s.cfg.bitLed else 0x00
      let resync := sendCommandItems s.cfg (s.cfg.resyncNibble.setWidth 8)
      let command := fun v => sendByteItems s.cfg v .command ++ [BusItem.wait s.cfg.initCmdSettleUs]
      exec (.init c r) s = .next { s.afterRequest 3 m
          ([.wait s.cfg.powerupWaitUs] ++ resync ++ [.wait s.cfg.resync1WaitUs] ++ resync
            ++ [.wait s.cfg.resync2WaitUs] ++ resync ++ [.wait s.cfg.resync3WaitUs]
            ++ command 0x02 ++ command 0x28 ++ command 0x0C ++ command 0x01 ++ command 0x06) with
        cols := ⟨c, true⟩, rows := ⟨r, true⟩, blmask := ⟨m, true⟩, initState := .ready }

/-- R101: INIT writes INIT_STATE along one linear path; where the Transport answers `k` of its writes and no more, it
stands where the table puts it, and READY = 0; no other request moves it. -/
def Obligations.InitStatePath : Prop :=
  (∀ (cfg : Config) (c r : Byte), initStateWrites (initScript cfg c r) =
    [.poweredUnknown, .eightBitFallback1, .eightBitFallback2, .eightBitFallback3, .fourBitConfirmed, .functionSet,
      .displayConfigured, .entryModeSet, .ready]) ∧
  (∀ (s : State) (c r : Byte) (k : Nat), k < 49 → s.transport.answers k = true →
    s.transport.answers (k + 1) = false →
    ∃ t, exec (.init c r) s = .next t ∧ t.busy = true ∧ t.ready = false ∧ t.initState = initStateAtWrite k) ∧
  (∀ (i : Instr) (s t : State), (∀ c r, i ≠ .init c r) → exec i s = .next t → t.initState = s.initState)

/-- "Every INIT emits the commands ... in the order resync, resync, resync, 0x02, 0x28, 0x0C, 0x01, 0x06, whatever the
prior state" (R104, which the spec derives from R100): the nibbles that the falling edges of the bytes written latch, from
any state whose parameters are the defaults, with E low before. The bytes of failed writes are among them: it says what
INIT sends, and what a display latches only where no write is lost (log 19; R36 and R209 let a failed write be lost). -/
def Obligations.InitLatchesCommandsInOrder : Prop :=
  ∀ (s t : State) (c r : Byte), s.cfg = Config.default → s.transport.answers 49 = true →
    exec (.init c r) s = .next t →
    latched false (writtenBytes (t.trace.drop s.trace.length)) =
      [0x3, 0x3, 0x3, 0x0, 0x2, 0x2, 0x8, 0x0, 0xC, 0x0, 0x1, 0x0, 0x6].map fun n => (n, false)

/-! ### Frames -/

/-- What a request other than INIT and BACKLIGHT leaves unchanged when it answers a next state, stalled and faulted ones
among them: COLS, ROWS, BLMASK, INIT_STATE, the parameters, the reset input and every byte of the request stream; FAULT
and CAUSE unless it raises NotReady (READY = 0) or is a GOTO; the trace only grows; REQPC moves by at most the request's
length. BUSY, FAILED and the request in progress may change (10_state sections 2 and 3; 60_exceptions section 3). -/
def Obligations.FrameOfOtherRequests : Prop :=
  ∀ (i : Instr) (s t : State), (∀ c r, i ≠ .init c r) → (∀ l, i ≠ .backlight l) → exec i s = .next t →
    t.cols = s.cols ∧ t.rows = s.rows ∧ t.blmask = s.blmask ∧ t.initState = s.initState ∧ t.cfg = s.cfg ∧
    t.resetInput = s.resetInput ∧ (∀ a, t.stream.read a = s.stream.read a) ∧
    (s.ready = true → (∀ x y, i ≠ .goto x y) → t.fault = s.fault ∧ t.cause = s.cause) ∧
    s.trace <+: t.trace ∧ s.reqpc < t.reqpc ∧ t.reqpc ≤ s.reqpc + lengthOf i

/-- The frame of BACKLIGHT: as the other requests', but it writes BLMASK (R120, R121). -/
def Obligations.FrameOfBacklight : Prop :=
  ∀ (l : Bool) (s t : State), exec (.backlight l) s = .next t →
    t.cols = s.cols ∧ t.rows = s.rows ∧ t.initState = s.initState ∧ t.cfg = s.cfg ∧ t.resetInput = s.resetInput ∧
    (∀ a, t.stream.read a = s.stream.read a) ∧
    (s.ready = true → t.fault = s.fault ∧ t.cause = s.cause) ∧
    (s.ready = false → t.blmask = s.blmask) ∧
    s.trace <+: t.trace ∧ t.reqpc = s.reqpc + 1

/-- The frame of INIT: it writes COLS, ROWS, BLMASK and INIT_STATE, and raises no fault (R100). -/
def Obligations.FrameOfInit : Prop :=
  ∀ (c r : Byte) (s t : State), exec (.init c r) s = .next t →
    t.fault = s.fault ∧ t.cause = s.cause ∧ t.cfg = s.cfg ∧ t.resetInput = s.resetInput ∧
    (∀ a, t.stream.read a = s.stream.read a) ∧ s.trace <+: t.trace ∧ t.reqpc = s.reqpc + 3

/-! ### Rules of the whole machine -/

/-- R24: "Only INIT writes COLS and ROWS. Each INIT writes both, also when the engine is already initialized": a step that
changes one of them (or INIT_STATE, of which the same holds) either resets, or begins an INIT, or goes on with one; and
every INIT, completed or not, leaves its operands in them. -/
def Obligations.OnlyInitWritesGeometry : Prop :=
  (∀ s t : State, s.resetInput = false → step s = .next t →
    (t.cols ≠ s.cols ∨ t.rows ≠ s.rows ∨ t.initState ≠ s.initState) →
    (s.busy = false ∧ ∃ c r rest, decode s.available = .request (.init c r) rest) ∨
    (s.busy = true ∧ ∃ q, s.request = some q ∧ q.opcode = 0x10)) ∧
  (∀ (c r : Byte) (s : State), ∃ t, exec (.init c r) s = .next t ∧ t.cols = ⟨c, true⟩ ∧ t.rows = ⟨r, true⟩)

/-- A step never takes back an event: "reset does not undo bus traffic" (70_reset section 1), and "toggling mid-sequence
does not retroactively alter already-sent bytes" (20_memory section 5). -/
def Obligations.TraceOnlyGrows : Prop :=
  ∀ s t : State, step s = .next t → s.trace <+: t.trace

/-- "The request stream is read-only to the engine" (20_memory section 6): no step but a reset changes it. -/
def Obligations.StepNeverWritesStream : Prop :=
  ∀ s t : State, s.resetInput = false → step s = .next t → t.stream = s.stream

/-- "A Host change to a byte already fetched has no effect" (20_memory section 6): the step is the same, but for that
byte. -/
def Obligations.FetchedByteIsNeverReadAgain : Prop :=
  ∀ (s t : State) (a : Nat) (b : Byte), s.resetInput = false → a < s.reqpc → step s = .next t →
    step { s with stream := s.stream.write a b } = .next { t with stream := t.stream.write a b }

/-- REQPC counts the bytes consumed, in order, each once (10_state section 3): the step of an idle engine moves it by some
number of the bytes that were there, and what can be fetched next is the rest of them. -/
def Obligations.ReqpcCountsConsumedBytes : Prop :=
  ∀ s t : State, s.accepting = true → step s = .next t →
    ∃ k, k ≤ s.available.length ∧ t.reqpc = s.reqpc + k ∧ t.available = s.available.drop k

/-- Law (a) of the protocol: "The bytes of a request's W events do not depend on any ack draw. A failure adds one L event
after the failed W and changes only the response" (R89, which the spec derives): two completed runs of a request that
differ in the Transport's answers write the same bytes, and differ only in FAILED, the answers left and the trace. -/
def Obligations.WritesDoNotDependOnAnswers : Prop :=
  ∀ (i : Instr) (s a b : State) (u v : Transport),
    exec i { s with transport := u } = .next a → exec i { s with transport := v } = .next b →
    a.busy = false → b.busy = false →
    writtenBytes a.trace = writtenBytes b.trace ∧ totalWait a.trace = totalWait b.trace ∧
    { b with failed := a.failed, transport := a.transport, trace := a.trace } = a

/-- Law (b) of the protocol: "Every W byte has bit 3 equal to BLMASK[3] as it stood at that write, except that WRRAW may
set bit 3" (R89, which the spec derives), at the default parameters. -/
def Obligations.EveryWriteCarriesBacklight : Prop :=
  ∀ (i : Instr) (s t : State), (∀ b, i ≠ .wrraw b) → s.cfg = Config.default → exec i s = .next t →
    ∀ b ∈ writtenBytes (t.trace.drop s.trace.length), b.getLsbD 3 = t.blmask.value.getLsbD 3

/-- R82: a request that completes without a fault ends with exactly one Resp, after all its other events, 0xFF if FAILED
and 0x00 otherwise; one that faults or hangs emits none. -/
def Obligations.ResponseIsLastAndOnly : Prop :=
  ∀ (i : Instr) (s t : State), s.fault = false → exec i s = .next t →
    ∃ mid, (∀ r, Event.resp r ∉ mid) ∧
      t.trace = s.trace ++ mid ++
        (if t.busy || t.fault then [] else [.resp (if t.failed then 0xFF else 0x00)])

/-- R30, R165: a failed write sets FAILED, which each request clears at its first fetch; right after `W(b, false)` comes
`L(b)`; no fault and no CAUSE comes of it; the request goes on (it stops early only where the Transport never answers);
its response is 0xFF. -/
def Obligations.EveryFailureIsLogged : Prop :=
  State.reset.failed = false ∧
  ∀ (i : Instr) (s t : State), s.fault = false → exec i s = .next t →
    ∃ mid, t.trace = s.trace ++ mid ∧ failuresLogged none mid = true ∧ t.failed = anyFailure mid ∧
      (anyFailure mid = true → t.fault = false ∧ t.cause = s.cause) ∧
      (t.busy = true → t.outstanding.isSome = true) ∧
      (t.busy = false → t.fault = false → mid.getLast? = some (.resp (if t.failed then 0xFF else 0x00)))

/-- R167: where the Host stops supplying bytes in the middle of a request, the engine waits with BUSY = 1. A request but
WRSTR has emitted nothing; a WRSTR has emitted the writes of the characters before the missing byte. The run is not
complete. The place in the pseudocode, counted in actions, and the form of the wait, a state that is its own next state,
are the model's choice (log 12, log 7). -/
def Obligations.IncompleteRequestWaits : Prop :=
  ∀ (s : State) (op : Byte) (operands : List Byte), s.accepting = true →
    decode s.available = .incomplete op operands →
    (op ≠ 0xA0 → (op = 0x10 ∨ s.ready = true) →
      let t := { s with
        reqpc := s.reqpc + 1 + operands.length, busy := true, failed := false, logDue := none
        request := some ⟨op, operands, 0, operands.length, none⟩ }
      step s = .next t ∧ step t = .next t ∧ t.complete = false) ∧
    (op = 0xA0 → s.canWrite = true → s.transport.answers (8 * operands.length) = true →
      ∃ t, step s = .next t ∧ step t = .next t ∧ t.complete = false ∧ t.busy = true ∧
        t.reqpc = s.reqpc + 1 + operands.length ∧
        t.trace = s.trace ++ busEvents s.blmask.value (operands.flatMap fun c => sendByteItems s.cfg c .data)
          (s.transport.take (8 * operands.length)).1)

/-- The four ways a request ends (60_exceptions section 1), for the step that begins one, whole or incomplete: it
completes with its response; it faults, having emitted no event; it waits for the Transport; or it waits for the Host. -/
def Obligations.RequestEndsInOneOfFourWays : Prop :=
  ∀ s t : State, s.accepting = true → s.available ≠ [] → step s = .next t →
    (t.busy = false ∧ t.fault = false ∧ ∃ mid r, t.trace = s.trace ++ mid ++ [.resp r]) ∨
    (t.busy = false ∧ t.fault = true ∧ t.trace = s.trace) ∨
    (t.busy = true ∧ t.fault = false ∧ t.outstanding.isSome = true) ∨
    (t.busy = true ∧ t.fault = false ∧ t.available = [])

/-- A request that waits goes on waiting while nothing comes (60_exceptions R166, R167: "The run does not complete"; a
hang, not a failure): its state is a fixed point of the step. -/
def Obligations.HungRequestStaysHung : Prop :=
  ∀ s t : State, s.accepting = true → step s = .next t → t.busy = true → step t = .next t

/-- "The W events of WRSTR do not depend on when the Host supplies each character" (R152, which the spec derives), and so
for every request: where its bytes come in two parts, the second after the engine has come to wait, the outcome is that
of all of them being there at once. -/
def Obligations.LateBytesMakeNoDifference : Prop :=
  ∀ (i : Instr) (s p : State) (b1 b2 : List Byte), i.wellFormed = true → s.accepting = true →
    (∀ c ∈ s.stream, c.1 < s.reqpc) → encode i = b1 ++ b2 → b1 ≠ [] →
    step (s.supply s.reqpc b1) = .next p →
    step (p.supply (s.reqpc + b1.length) b2) = step (s.supply s.reqpc (encode i))

/-- The request in progress (10_state section 6): the opcode byte, the operand bytes fetched so far, in the order of the
stream, and the index of the next event, which is the number of events it has emitted; at either grain of the step
(log 4). The Host cannot read it, and a reset drops it. -/
def Obligations.RequestHoldsItsPosition : Prop :=
  (∀ (s t : State) (r : Progress), s.accepting = true → step s = .next t → t.busy = true →
    t.request = some r →
    s.available = r.opcode :: (r.operands ++ t.available) ∧ t.trace.length = s.trace.length + r.event) ∧
  (∀ (s t : State) (r q : Progress), s.busy = true → s.request = some r → microStep s = .next t → t.request = some q →
    q.opcode = r.opcode ∧ r.operands <+: q.operands ∧ q.event + s.trace.length = r.event + t.trace.length) ∧
  (∀ (s : State) (p : Option Progress), ({ s with request := p } : State).status = s.status) ∧
  (∀ s : State, ∃ t, step s.assertReset = .next t ∧ t.request = none)

/-- Events come one at a time, and a reset can come between any two of them, a failed write and its log event among them
(20_memory section 5; 70_reset section 1: "Reset at any time, including in the middle of a request"): a micro-step emits at
most one event; where it was a failed write, the next one emits its log event, unless a reset comes, which emits none
(the grain of a micro-step is the model's choice, log 4). A whole step never stops between the two. -/
def Obligations.EventsComeOneAtATime : Prop :=
  (∀ s t : State, microStep s = .next t → ∃ es, t.trace = s.trace ++ es ∧ es.length ≤ 1) ∧
  (∀ (s t : State) (b : Byte), microStep s = .next t → t.trace = s.trace ++ [.w b false] →
    ∃ u, microStep t = .next u ∧ u.trace = t.trace ++ [.l b]) ∧
  (∀ s : State, microStep s.assertReset = step s.assertReset ∧ ∃ t, microStep s.assertReset = .next t ∧
    t.trace = s.trace ∧ t.request = none ∧ t.logDue = none) ∧
  State.reset.logDue = none ∧ (∀ s t : State, s.logDue = none → step s = .next t → t.logDue = none)

/-- Every write is `write(DEV_ADDR, [b], XFER_LEN, SEND_STOP)` (40_nibble_protocol section 1, 00_scope section 5): a step
asks the Transport for the writes of its `W` events, in order, and for no other, but for the one write it is not answered,
which a request that waits for the Transport has outstanding (the record of the writes is the model's own field,
log 2). -/
def Obligations.EveryWriteCallsTheTransport : Prop :=
  (∀ (cfg : Config) (b : Byte), busWrite cfg b = ⟨cfg.devAddr, [b], cfg.xferLen, cfg.sendStop⟩) ∧
  (∀ s t : State, step s = .next t → ∃ es, t.trace = s.trace ++ es ∧
    t.transport.calls = s.transport.calls ++ (writtenBytes es).map (busWrite s.cfg)) ∧
  (∀ (i : Instr) (s t : State), exec i s = .next t →
    (t.busy = false → t.outstanding = none) ∧
    (t.busy = true → ∃ b, t.outstanding = some (busWrite s.cfg (b ||| t.blmask.value))))

/-- A request's step is its actions one at a time, in order (20_memory section 5; the model's step does them at once,
log 4): some number of micro-steps, between any two of which a reset can come, leads to the same state. -/
def Obligations.StepIsItsMicroSteps : Prop :=
  ∀ s t : State, s.accepting = true → step s = .next t → ∃ n, microRun n s = .next t

/-- The numbers of writes and of `T` events and the least total wait of R210 (which the spec derives), at the default
parameters, of every request that completes. INIT's `T` events are the eight of R100's list, 200000, 5000, 100 and five of
2000, which sum to 215100; the spec's count of 7 miscounts that list (log 20). -/
def Obligations.BusBudgetOfRequests : Prop :=
  ∀ (i : Instr) (s t : State), s.cfg = Config.default → s.fault = false → exec i s = .next t →
    t.busy = false → t.fault = false →
    ((writtenBytes (t.trace.drop s.trace.length)).length, waitEventCount (t.trace.drop s.trace.length),
        totalWait (t.trace.drop s.trace.length)) =
      match i with
      | .init _ _ => (49, 8, 215100)
      | .clear => (8, 1, 2000)
      | .home => (8, 1, 2000)
      | .entry _ _ => (8, 1, 2000)
      | .dispctl _ _ _ => (8, 1, 2000)
      | .shift _ _ => (8, 1, 2000)
      | .goto _ _ => (8, 0, 0)
      | .glyph _ _ _ _ _ _ _ _ _ => (72, 0, 0)
      | .backlight _ => (1, 0, 0)
      | .wrstr cs => (8 * cs.length, 0, 0)
      | .sendbyte _ _ => (8, 0, 0)
      | .wrraw _ => (1, 0, 0)

/-! ### Invariants -/

/-- Every step keeps the invariant: the parameters within R8, the stream's canonical form, BLMASK 0x00 or BIT_LED, FAULT
and CAUSE in agreement and CAUSE at most 3, READY only with the registers written, BUSY with a sound request in progress,
a log event due only inside a request. -/
def Obligations.StepKeepsInvariant : Prop :=
  ∀ s t : State, s.Inv → step s = .next t → t.Inv

/-- The state after reset meets the invariant. -/
def Obligations.ResetMeetsInvariant : Prop := State.reset.Inv

/-- A state that meets the invariant always has a next state: no unwritten register is ever read (R37: "No rule of this
spec reads one before INIT writes it", which the spec derives from R100 and R163), and nothing is refused. -/
def Obligations.NoUnwrittenRegisterIsRead : Prop :=
  ∀ s : State, s.Inv → ∃ t, step s = .next t

/-- R37: "a model must fault on reading it" (93 U10 the same): where the model stops on an unwritten register, and that it
stops nowhere else. An XWrite reads BLMASK, a GOTO reads ROWS first; INIT and BACKLIGHT write BLMASK before they read it, a
WRSTR of no characters reads nothing, a GOTO that raises RowTableOverrun does not come to read BLMASK, and while READY = 0
every request but INIT raises NotReady (R163). In every other case a request answers a next state. -/
def Obligations.ReadingAnUnwrittenRegisterStops : Prop :=
  (∀ (b : Byte) (s : State), xwrite b s = .unwritten ↔ s.blmask.written = false) ∧
  (∀ (x y : Byte) (s : State), s.ready = true → s.rows.written = false →
    exec (.goto x y) s = .fault .unwrittenRegister) ∧
  (∀ (x y : Byte) (s : State), s.ready = true → s.rows.written = true → s.blmask.written = false →
    s.rows.value ≠ 0 → (if s.rows.value ≤ y then s.rows.value - 1 else y) ≤ 3 →
    exec (.goto x y) s = .fault .unwrittenRegister) ∧
  (∀ (i : Instr) (s : State), (∀ c r, i ≠ .init c r) → (∀ l, i ≠ .backlight l) → (∀ x y, i ≠ .goto x y) →
    i ≠ .wrstr [] → s.ready = true → s.blmask.written = false → exec i s = .fault .unwrittenRegister) ∧
  (∀ (i : Instr) (s : State), ((∃ c r, i = .init c r) ∨ (∃ l, i = .backlight l) ∨ i = .wrstr [] ∨ s.ready = false ∨
    (s.rows.written = true ∧ s.blmask.written = true)) → ∃ t, exec i s = .next t)
end

