-- ==== Sys2Proof/Laws/Decode.lean ====
section
/-! SUPPORT. The decoder's parts: the opcode byte of each request and what it decodes to, and where a WRSTR ends. -/

namespace Sys2Proof

/-- What the decoder reads from a request's opcode byte. -/
def headOf : Instr → Head
  | .init _ _ => .init
  | .clear => .clear
  | .home => .home
  | .entry i s => .entry i s
  | .dispctl d c b => .dispctl d c b
  | .shift m r => .shift m r
  | .goto _ _ => .goto
  | .glyph _ _ _ _ _ _ _ _ _ => .glyph
  | .backlight l => .backlight l
  | .wrstr _ => .wrstr
  | .sendbyte _ m => .sendbyte m
  | .wrraw _ => .wrraw

theorem decodeOpcode_opcodeOf (i : Instr) : decodeOpcode (opcodeOf i) = some (headOf i) := by
  cases i with
  | init c r => exact (by decide : decodeOpcode 0x10 = some .init)
  | clear => decide
  | home => decide
  | entry a b => revert a b; decide
  | dispctl a b c => revert a b c; decide
  | shift a b => revert a b; decide
  | goto x y => exact (by decide : decodeOpcode 0x70 = some .goto)
  | glyph s p0 p1 p2 p3 p4 p5 p6 p7 => exact (by decide : decodeOpcode 0x80 = some .glyph)
  | backlight l => revert l; decide
  | wrstr cs => exact (by decide : decodeOpcode 0xA0 = some .wrstr)
  | sendbyte v m =>
    cases m with
    | command => exact (by decide : decodeOpcode 0xB0 = some (.sendbyte .command))
    | data => exact (by decide : decodeOpcode 0xB1 = some (.sendbyte .data))
  | wrraw b => exact (by decide : decodeOpcode 0xC0 = some .wrraw)

/-- A byte has no decoding just where it is illegal. -/
theorem decodeOpcode_isNone : ∀ op : Byte, (decodeOpcode op).isNone = !legalOpcode op := by decide

/-- The opcode byte of what a byte decodes to. -/
def headByte : Head → Byte
  | .init => 0x10
  | .clear => 0x20
  | .home => 0x30
  | .entry i s => opcodeOf (.entry i s)
  | .dispctl d c b => opcodeOf (.dispctl d c b)
  | .shift m r => opcodeOf (.shift m r)
  | .goto => 0x70
  | .glyph => 0x80
  | .backlight l => opcodeOf (.backlight l)
  | .wrstr => 0xA0
  | .sendbyte m => opcodeOf (.sendbyte 0 m)
  | .wrraw => 0xC0

theorem headByte_decodeOpcode {op : Byte} {h : Head} (e : decodeOpcode op = some h) : headByte h = op := by
  have all : ∀ op : Byte, (decodeOpcode op).all (fun h => headByte h == op) = true := by decide
  have := all op
  rw [e] at this
  simpa using this

theorem splitString_append (cs rest : List Byte) (h : cs.all (fun c => c != 0) = true) :
    splitString (cs ++ 0 :: rest) = some (cs, rest) := by
  induction cs with
  | nil => simp [splitString]
  | cons c cs ih =>
    rw [List.all_cons, Bool.and_eq_true] at h
    have h1 : c ≠ 0 := by simpa using h.1
    simp only [List.cons_append, splitString, if_neg h1, ih h.2]

theorem splitString_some {bs cs rest : List Byte} (h : splitString bs = some (cs, rest)) :
    cs.all (fun c => c != 0) = true ∧ cs ++ 0 :: rest = bs := by
  induction bs generalizing cs with
  | nil => simp [splitString] at h
  | cons b bs ih =>
    simp only [splitString] at h
    split at h
    · next hb =>
      subst hb
      simp only [Option.some.injEq, Prod.mk.injEq] at h
      obtain ⟨rfl, rfl⟩ := h
      simp
    · next hb =>
      split at h
      · next cs' rest' hs =>
        simp only [Option.some.injEq, Prod.mk.injEq] at h
        obtain ⟨rfl, rfl⟩ := h
        have := ih hs
        simp_all
      · simp at h

/-- Characters without a terminator are no string yet. -/
theorem splitString_none {cs : List Byte} (h : cs.all (fun c => c != 0) = true) : splitString cs = none := by
  induction cs with
  | nil => rfl
  | cons c cs ih =>
    rw [List.all_cons, Bool.and_eq_true] at h
    have h1 : c ≠ 0 := by simpa using h.1
    simp only [splitString, if_neg h1, ih h.2]

/-- Every request but INIT needs READY = 1 (R163). -/
theorem needsReady_opcodeOf (i : Instr) (h : ∀ c r, i ≠ .init c r) : needsReady (opcodeOf i) = true := by
  cases i with
  | init c r => exact absurd rfl (h c r)
  | clear => decide
  | home => decide
  | entry a b => clear h; revert a b; decide
  | dispctl a b c => clear h; revert a b c; decide
  | shift a b => clear h; revert a b; decide
  | goto x y => exact (by decide : needsReady 0x70 = true)
  | glyph s p0 p1 p2 p3 p4 p5 p6 p7 => exact (by decide : needsReady 0x80 = true)
  | backlight l => clear h; revert l; decide
  | wrstr cs => exact (by decide : needsReady 0xA0 = true)
  | sendbyte v m =>
    cases m with
    | command => exact (by decide : needsReady 0xB0 = true)
    | data => exact (by decide : needsReady 0xB1 = true)
  | wrraw b => exact (by decide : needsReady 0xC0 = true)

end Sys2Proof
end

