-- ==== Sys2Proof/Laws/Memory.lean ====
section
/-! SUPPORT. The request stream: every operation keeps the canonical form, a read after a supply, and what the engine
could fetch. -/

namespace Sys2Proof.Machine

theorem Memory.read_write_same (m : Memory) (a : Nat) (v : Byte) : (m.write a v).read a = some v := by
  induction m with
  | nil => simp [Memory.write, Memory.read]
  | cons c rest ih =>
    obtain ⟨b, w⟩ := c
    simp only [Memory.write]
    split
    · simp [Memory.read]
    · split
      · simp [Memory.read]
      · next h => simp [Memory.read, Ne.symm h, ih]

theorem Memory.read_write_other (m : Memory) (a b : Nat) (v : Byte) (h : b ≠ a) :
    (m.write a v).read b = m.read b := by
  induction m with
  | nil => simp [Memory.write, Memory.read, Ne.symm h]
  | cons c rest ih =>
    obtain ⟨p, w⟩ := c
    simp only [Memory.write]
    split
    · simp [Memory.read, Ne.symm h]
    · split
      · next hp => subst hp; simp [Memory.read, Ne.symm h]
      · simp [Memory.read, ih]

/-- A write adds no position but its own. -/
theorem Memory.mem_write {m : Memory} {a : Nat} {v : Byte} {c : Host.Cell} (h : c ∈ m.write a v) :
    c = (a, v) ∨ c ∈ m := by
  induction m with
  | nil => simpa [Memory.write] using h
  | cons d rest ih =>
    obtain ⟨p, w⟩ := d
    simp only [Memory.write] at h
    split at h
    · simpa using h
    · split at h
      · rcases List.mem_cons.mp h with h | h
        · exact .inl h
        · exact .inr (List.mem_cons_of_mem _ h)
      · rcases List.mem_cons.mp h with h | h
        · exact .inr (h ▸ List.mem_cons_self ..)
        · exact (ih h).imp_right (List.mem_cons_of_mem _)

/-- A write keeps the canonical form. -/
theorem Memory.write_wf {m : Memory} (h : m.wf) (a : Nat) (v : Byte) : (m.write a v).wf := by
  induction m with
  | nil => simp [Memory.write, Memory.wf]
  | cons c rest ih =>
    obtain ⟨b, w⟩ := c
    obtain ⟨hb, hrest⟩ := List.pairwise_cons.mp h
    simp only [Memory.write]
    split
    · next hab =>
      refine List.pairwise_cons.mpr ⟨fun d hd => ?_, h⟩
      rcases List.mem_cons.mp hd with rfl | hd
      · exact hab
      · exact hab.trans (hb d hd)
    · split
      · next hab => subst hab; exact List.pairwise_cons.mpr ⟨hb, hrest⟩
      · refine List.pairwise_cons.mpr ⟨fun d hd => ?_, ih hrest⟩
        rcases Memory.mem_write hd with rfl | hd
        · simp only; omega
        · exact hb d hd

/-- Supplying bytes keeps the canonical form. -/
theorem Memory.writeBytes_wf {m : Memory} (h : m.wf) (a : Nat) (bs : List Byte) : (m.writeBytes a bs).wf := by
  induction bs generalizing m a with
  | nil => simpa [Memory.writeBytes] using h
  | cons b bs ih => exact ih (Memory.write_wf h a b) (a + 1)

/-- The stream after reset has the canonical form. -/
theorem reset_stream_wf : State.reset.stream.wf := by decide

theorem Memory.writeBytes_append (m : Memory) (a : Nat) (bs cs : List Byte) :
    m.writeBytes a (bs ++ cs) = (m.writeBytes a bs).writeBytes (a + bs.length) cs := by
  induction bs generalizing m a with
  | nil => simp [Memory.writeBytes]
  | cons b bs ih =>
    simp only [List.cons_append, Memory.writeBytes, List.length_cons, ih]
    rw [show a + 1 + bs.length = a + (bs.length + 1) by omega]

theorem Memory.writeBytes_cons (m : Memory) (a : Nat) (b : Byte) (bs : List Byte) :
    m.writeBytes a (b :: bs) = (m.write a b).writeBytes (a + 1) bs := rfl

theorem Memory.write_cons (p : Nat) (w : Byte) (rest : Memory) (a : Nat) (v : Byte) :
    Memory.write ((p, w) :: rest) a v =
      if a < p then (a, v) :: (p, w) :: rest
      else if a = p then (a, v) :: rest
      else (p, w) :: Memory.write rest a v := rfl

theorem Memory.bytesFrom_cons (p : Nat) (w : Byte) (rest : Memory) (a : Nat) :
    Memory.bytesFrom ((p, w) :: rest) a =
      if p < a then Memory.bytesFrom rest a
      else if p = a then w :: Memory.bytesFrom rest (a + 1)
      else [] := rfl

/-- Once a byte is fetched, the bytes after it are the ones that can be fetched next. -/
theorem Memory.bytesFrom_succ {m : Memory} {a : Nat} {b : Byte} {bs : List Byte}
    (h : m.bytesFrom a = b :: bs) : m.bytesFrom (a + 1) = bs := by
  induction m with
  | nil => simp [Memory.bytesFrom] at h
  | cons c rest ih =>
    obtain ⟨p, w⟩ := c
    rw [Memory.bytesFrom_cons] at h ⊢
    split at h
    · next hp => rw [if_pos (by omega)]; exact ih h
    · split at h
      · next hp => rw [if_pos (by omega)]; exact (List.cons.inj h).2
      · simp at h

/-- Dropping bytes from what can be fetched is fetching from later on. -/
theorem Memory.bytesFrom_add {m : Memory} {a : Nat} {bs cs : List Byte}
    (h : m.bytesFrom a = bs ++ cs) : m.bytesFrom (a + bs.length) = cs := by
  induction bs generalizing a with
  | nil => simpa using h
  | cons b bs ih =>
    have := ih (Memory.bytesFrom_succ (by simpa using h))
    rwa [show a + 1 + bs.length = a + (b :: bs).length by simp; omega] at this

/-- A supplied byte before the position is not among those that can be fetched from it. -/
theorem Memory.bytesFrom_write_before (m : Memory) {a b : Nat} (v : Byte) (h : a < b) :
    (m.write a v).bytesFrom b = m.bytesFrom b := by
  induction m generalizing b with
  | nil => simp [Memory.write, Memory.bytesFrom, h]
  | cons c rest ih =>
    obtain ⟨p, w⟩ := c
    rw [Memory.write_cons]
    split
    · rw [Memory.bytesFrom_cons, if_pos h]
    · split
      · next hp => subst hp; simp only [Memory.bytesFrom_cons, if_pos h]
      · simp only [Memory.bytesFrom_cons, ih h, ih (Nat.lt_succ_of_lt h)]

/-- In canonical form, the bytes that can be fetched are those a read answers, position by position. -/
theorem Memory.bytesFrom_getElem? {m : Memory} (h : m.wf) (a : Nat) (k : Nat) (hk : k < (m.bytesFrom a).length) :
    (m.bytesFrom a)[k]? = m.read (a + k) := by
  induction m generalizing a k with
  | nil => simp [Memory.bytesFrom] at hk
  | cons c rest ih =>
    obtain ⟨p, w⟩ := c
    obtain ⟨-, hrest⟩ := List.pairwise_cons.mp h
    rw [Memory.bytesFrom_cons] at hk ⊢
    simp only [Memory.read]
    split at hk
    · next hp =>
      rw [if_pos hp, if_neg (by omega)]
      exact ih hrest a k hk
    · next hp =>
      split at hk
      · next hpa =>
        subst hpa
        rw [if_neg (by omega), if_pos rfl]
        cases k with
        | zero => simp
        | succ k =>
          have := ih hrest (p + 1) k (by simpa using hk)
          simp only [List.getElem?_cons_succ]
          rw [if_neg (by omega), this, show p + 1 + k = p + (k + 1) by omega]
      · simp at hk

/-- Bytes supplied where nothing is supplied from `a` on are the ones that can be fetched. -/
theorem Memory.bytesFrom_writeBytes {m : Memory} {a : Nat} (h : ∀ c ∈ m, c.1 < a) (bs : List Byte) :
    (m.writeBytes a bs).bytesFrom a = bs ∧ ∀ c ∈ m.writeBytes a bs, c.1 < a + bs.length := by
  suffices H : ∀ (bs done : List Byte) (m : Memory) (a : Nat), (∀ c ∈ m, c.1 < a) →
      m.bytesFrom (a - done.length) = done → done.length ≤ a →
      (m.writeBytes a bs).bytesFrom (a - done.length) = done ++ bs ∧
        ∀ c ∈ m.writeBytes a bs, c.1 < a + bs.length by
    have h0 : m.bytesFrom a = [] := by
      clear H
      induction m with
      | nil => rfl
      | cons c rest ih =>
        obtain ⟨p, w⟩ := c
        rw [Memory.bytesFrom_cons, if_pos (h _ (List.mem_cons_self ..))]
        exact ih fun c hc => h c (List.mem_cons_of_mem _ hc)
    simpa using H bs [] m a h (by simpa using h0) (by simp)
  intro bs
  induction bs with
  | nil => intro done m a h hd _; exact ⟨by simpa [Memory.writeBytes] using hd, by simpa [Memory.writeBytes] using h⟩
  | cons b bs ih =>
    intro done m a h hd hle
    have hw : ∀ c ∈ m.write a b, c.1 < a + 1 := by
      intro c hc
      rcases Memory.mem_write hc with rfl | hc
      · simp
      · exact (h c hc).trans (by omega)
    have hend : ∀ (m : Memory) (d : List Byte) (x : Nat), (∀ c ∈ m, c.1 < a) → m.bytesFrom x = d → x + d.length = a →
        (m.write a b).bytesFrom x = d ++ [b] := by
      intro m
      induction m with
      | nil =>
        intro d x _ hd hx
        simp only [Memory.bytesFrom] at hd
        subst hd
        have : x = a := by simpa using hx
        subst this
        simp [Memory.write, Memory.bytesFrom]
      | cons c rest ihm =>
        intro d x hm hd hx
        obtain ⟨p, w⟩ := c
        have hp := hm _ (List.mem_cons_self ..)
        simp only at hp
        have hr : ∀ c ∈ rest, c.1 < a := fun c hc => hm c (List.mem_cons_of_mem _ hc)
        rw [Memory.write_cons, if_neg (by omega), if_neg (by omega)]
        rw [Memory.bytesFrom_cons] at hd ⊢
        split at hd
        · next hpx => rw [if_pos hpx]; exact ihm d x hr hd hx
        · next hpx =>
          rw [if_neg hpx]
          split at hd
          · next he =>
            rw [if_pos he]
            subst hd
            rw [ihm _ (x + 1) hr rfl (by simp at hx; omega)]
            rfl
          · subst hd
            simp at hx
            omega
    have key := ih (done ++ [b]) (m.write a b) (a + 1) hw
      (by
        rw [show a + 1 - (done ++ [b]).length = a - done.length by simp]
        exact hend m done _ h hd (by omega))
      (by simp; omega)
    rw [show a + 1 - (done ++ [b]).length = a - done.length by simp] at key
    rw [Memory.writeBytes_cons]
    refine ⟨by simpa using key.1, fun c hc => ?_⟩
    have := key.2 c hc
    simp only [List.length_cons]
    omega

end Sys2Proof.Machine
end

