-- ==== Sys2Proof/Laws/State.lean ====
section
/-! SUPPORT. What each named update of State leaves in each field: one lemma per field per update. -/

namespace Sys2Proof.Machine

@[simp] theorem State.advanced_cfg (s : State) : s.advanced.cfg = s.cfg := rfl
@[simp] theorem State.advanced_cols (s : State) : s.advanced.cols = s.cols := rfl
@[simp] theorem State.advanced_rows (s : State) : s.advanced.rows = s.rows := rfl
@[simp] theorem State.advanced_blmask (s : State) : s.advanced.blmask = s.blmask := rfl
@[simp] theorem State.advanced_initState (s : State) : s.advanced.initState = s.initState := rfl
@[simp] theorem State.advanced_reqpc (s : State) : s.advanced.reqpc = s.reqpc := rfl
@[simp] theorem State.advanced_busy (s : State) : s.advanced.busy = s.busy := rfl
@[simp] theorem State.advanced_fault (s : State) : s.advanced.fault = s.fault := rfl
@[simp] theorem State.advanced_cause (s : State) : s.advanced.cause = s.cause := rfl
@[simp] theorem State.advanced_failed (s : State) : s.advanced.failed = s.failed := rfl
@[simp] theorem State.advanced_request (s : State) : s.advanced.request = s.request.map fun r => { r with next := r.next + 1 } :=
    rfl
@[simp] theorem State.advanced_logDue (s : State) : s.advanced.logDue = s.logDue := rfl
@[simp] theorem State.advanced_resetInput (s : State) : s.advanced.resetInput = s.resetInput := rfl
@[simp] theorem State.advanced_transport (s : State) : s.advanced.transport = s.transport := rfl
@[simp] theorem State.advanced_stream (s : State) : s.advanced.stream = s.stream := rfl
@[simp] theorem State.advanced_trace (s : State) : s.advanced.trace = s.trace := rfl

@[simp] theorem State.emitted_cfg (s : State) (es : List Event) : (s.emitted es).cfg = s.cfg := rfl
@[simp] theorem State.emitted_cols (s : State) (es : List Event) : (s.emitted es).cols = s.cols := rfl
@[simp] theorem State.emitted_rows (s : State) (es : List Event) : (s.emitted es).rows = s.rows := rfl
@[simp] theorem State.emitted_blmask (s : State) (es : List Event) : (s.emitted es).blmask = s.blmask := rfl
@[simp] theorem State.emitted_initState (s : State) (es : List Event) : (s.emitted es).initState = s.initState := rfl
@[simp] theorem State.emitted_reqpc (s : State) (es : List Event) : (s.emitted es).reqpc = s.reqpc := rfl
@[simp] theorem State.emitted_busy (s : State) (es : List Event) : (s.emitted es).busy = s.busy := rfl
@[simp] theorem State.emitted_fault (s : State) (es : List Event) : (s.emitted es).fault = s.fault := rfl
@[simp] theorem State.emitted_cause (s : State) (es : List Event) : (s.emitted es).cause = s.cause := rfl
@[simp] theorem State.emitted_failed (s : State) (es : List Event) : (s.emitted es).failed = s.failed := rfl
@[simp] theorem State.emitted_request (s : State) (es : List Event) : (s.emitted es).request = s.request.map fun r => { r with event := r.event + es.length } :=
    rfl
@[simp] theorem State.emitted_logDue (s : State) (es : List Event) : (s.emitted es).logDue = s.logDue := rfl
@[simp] theorem State.emitted_resetInput (s : State) (es : List Event) : (s.emitted es).resetInput = s.resetInput := rfl
@[simp] theorem State.emitted_transport (s : State) (es : List Event) : (s.emitted es).transport = s.transport := rfl
@[simp] theorem State.emitted_stream (s : State) (es : List Event) : (s.emitted es).stream = s.stream := rfl
@[simp] theorem State.emitted_trace (s : State) (es : List Event) : (s.emitted es).trace = s.trace ++ es := rfl

@[simp] theorem State.started_cfg (s : State) (op : Byte) : (s.started op).cfg = s.cfg := rfl
@[simp] theorem State.started_cols (s : State) (op : Byte) : (s.started op).cols = s.cols := rfl
@[simp] theorem State.started_rows (s : State) (op : Byte) : (s.started op).rows = s.rows := rfl
@[simp] theorem State.started_blmask (s : State) (op : Byte) : (s.started op).blmask = s.blmask := rfl
@[simp] theorem State.started_initState (s : State) (op : Byte) : (s.started op).initState = s.initState := rfl
@[simp] theorem State.started_reqpc (s : State) (op : Byte) : (s.started op).reqpc = s.reqpc + 1 := rfl
@[simp] theorem State.started_busy (s : State) (op : Byte) : (s.started op).busy = true := rfl
@[simp] theorem State.started_fault (s : State) (op : Byte) : (s.started op).fault = s.fault := rfl
@[simp] theorem State.started_cause (s : State) (op : Byte) : (s.started op).cause = s.cause := rfl
@[simp] theorem State.started_failed (s : State) (op : Byte) : (s.started op).failed = false := rfl
@[simp] theorem State.started_request (s : State) (op : Byte) : (s.started op).request = some ⟨op, [], 0, 0, none⟩ := rfl
@[simp] theorem State.started_logDue (s : State) (op : Byte) : (s.started op).logDue = none := rfl
@[simp] theorem State.started_resetInput (s : State) (op : Byte) : (s.started op).resetInput = s.resetInput := rfl
@[simp] theorem State.started_transport (s : State) (op : Byte) : (s.started op).transport = s.transport := rfl
@[simp] theorem State.started_stream (s : State) (op : Byte) : (s.started op).stream = s.stream := rfl
@[simp] theorem State.started_trace (s : State) (op : Byte) : (s.started op).trace = s.trace := rfl

@[simp] theorem State.fetched_cfg (s : State) (b : Byte) : (s.fetched b).cfg = s.cfg := rfl
@[simp] theorem State.fetched_cols (s : State) (b : Byte) : (s.fetched b).cols = s.cols := rfl
@[simp] theorem State.fetched_rows (s : State) (b : Byte) : (s.fetched b).rows = s.rows := rfl
@[simp] theorem State.fetched_blmask (s : State) (b : Byte) : (s.fetched b).blmask = s.blmask := rfl
@[simp] theorem State.fetched_initState (s : State) (b : Byte) : (s.fetched b).initState = s.initState := rfl
@[simp] theorem State.fetched_reqpc (s : State) (b : Byte) : (s.fetched b).reqpc = s.reqpc + 1 := rfl
@[simp] theorem State.fetched_busy (s : State) (b : Byte) : (s.fetched b).busy = s.busy := rfl
@[simp] theorem State.fetched_fault (s : State) (b : Byte) : (s.fetched b).fault = s.fault := rfl
@[simp] theorem State.fetched_cause (s : State) (b : Byte) : (s.fetched b).cause = s.cause := rfl
@[simp] theorem State.fetched_failed (s : State) (b : Byte) : (s.fetched b).failed = s.failed := rfl
@[simp] theorem State.fetched_request (s : State) (b : Byte) : (s.fetched b).request = s.request.map fun r => { r with operands := r.operands ++ [b], next := r.next + 1 } :=
    rfl
@[simp] theorem State.fetched_logDue (s : State) (b : Byte) : (s.fetched b).logDue = s.logDue := rfl
@[simp] theorem State.fetched_resetInput (s : State) (b : Byte) : (s.fetched b).resetInput = s.resetInput := rfl
@[simp] theorem State.fetched_transport (s : State) (b : Byte) : (s.fetched b).transport = s.transport := rfl
@[simp] theorem State.fetched_stream (s : State) (b : Byte) : (s.fetched b).stream = s.stream := rfl
@[simp] theorem State.fetched_trace (s : State) (b : Byte) : (s.fetched b).trace = s.trace := rfl

@[simp] theorem State.installed_cfg (s : State) (c : Byte) (r : Byte) (m : Byte) : (s.installed c r m).cfg = s.cfg := rfl
@[simp] theorem State.installed_cols (s : State) (c : Byte) (r : Byte) (m : Byte) : (s.installed c r m).cols = DisplayReg.of c :=
    rfl
@[simp] theorem State.installed_rows (s : State) (c : Byte) (r : Byte) (m : Byte) : (s.installed c r m).rows = DisplayReg.of r :=
    rfl
@[simp] theorem State.installed_blmask (s : State) (c : Byte) (r : Byte) (m : Byte) : (s.installed c r m).blmask = DisplayReg.of m :=
    rfl
@[simp] theorem State.installed_initState (s : State) (c : Byte) (r : Byte) (m : Byte) : (s.installed c r m).initState = s.initState :=
    rfl
@[simp] theorem State.installed_reqpc (s : State) (c : Byte) (r : Byte) (m : Byte) : (s.installed c r m).reqpc = s.reqpc :=
    rfl
@[simp] theorem State.installed_busy (s : State) (c : Byte) (r : Byte) (m : Byte) : (s.installed c r m).busy = s.busy :=
    rfl
@[simp] theorem State.installed_fault (s : State) (c : Byte) (r : Byte) (m : Byte) : (s.installed c r m).fault = s.fault :=
    rfl
@[simp] theorem State.installed_cause (s : State) (c : Byte) (r : Byte) (m : Byte) : (s.installed c r m).cause = s.cause :=
    rfl
@[simp] theorem State.installed_failed (s : State) (c : Byte) (r : Byte) (m : Byte) : (s.installed c r m).failed = s.failed :=
    rfl
@[simp] theorem State.installed_request (s : State) (c : Byte) (r : Byte) (m : Byte) : (s.installed c r m).request = s.request.map fun r => { r with next := r.next + 1 } :=
    rfl
@[simp] theorem State.installed_logDue (s : State) (c : Byte) (r : Byte) (m : Byte) : (s.installed c r m).logDue = s.logDue :=
    rfl
@[simp] theorem State.installed_resetInput (s : State) (c : Byte) (r : Byte) (m : Byte) : (s.installed c r m).resetInput = s.resetInput :=
    rfl
@[simp] theorem State.installed_transport (s : State) (c : Byte) (r : Byte) (m : Byte) : (s.installed c r m).transport = s.transport :=
    rfl
@[simp] theorem State.installed_stream (s : State) (c : Byte) (r : Byte) (m : Byte) : (s.installed c r m).stream = s.stream :=
    rfl
@[simp] theorem State.installed_trace (s : State) (c : Byte) (r : Byte) (m : Byte) : (s.installed c r m).trace = s.trace :=
    rfl

@[simp] theorem State.backlightSet_cfg (s : State) (m : Byte) : (s.backlightSet m).cfg = s.cfg := rfl
@[simp] theorem State.backlightSet_cols (s : State) (m : Byte) : (s.backlightSet m).cols = s.cols := rfl
@[simp] theorem State.backlightSet_rows (s : State) (m : Byte) : (s.backlightSet m).rows = s.rows := rfl
@[simp] theorem State.backlightSet_blmask (s : State) (m : Byte) : (s.backlightSet m).blmask = DisplayReg.of m := rfl
@[simp] theorem State.backlightSet_initState (s : State) (m : Byte) : (s.backlightSet m).initState = s.initState := rfl
@[simp] theorem State.backlightSet_reqpc (s : State) (m : Byte) : (s.backlightSet m).reqpc = s.reqpc := rfl
@[simp] theorem State.backlightSet_busy (s : State) (m : Byte) : (s.backlightSet m).busy = s.busy := rfl
@[simp] theorem State.backlightSet_fault (s : State) (m : Byte) : (s.backlightSet m).fault = s.fault := rfl
@[simp] theorem State.backlightSet_cause (s : State) (m : Byte) : (s.backlightSet m).cause = s.cause := rfl
@[simp] theorem State.backlightSet_failed (s : State) (m : Byte) : (s.backlightSet m).failed = s.failed := rfl
@[simp] theorem State.backlightSet_request (s : State) (m : Byte) : (s.backlightSet m).request = s.request.map fun r => { r with next := r.next + 1 } :=
    rfl
@[simp] theorem State.backlightSet_logDue (s : State) (m : Byte) : (s.backlightSet m).logDue = s.logDue := rfl
@[simp] theorem State.backlightSet_resetInput (s : State) (m : Byte) : (s.backlightSet m).resetInput = s.resetInput := rfl
@[simp] theorem State.backlightSet_transport (s : State) (m : Byte) : (s.backlightSet m).transport = s.transport := rfl
@[simp] theorem State.backlightSet_stream (s : State) (m : Byte) : (s.backlightSet m).stream = s.stream := rfl
@[simp] theorem State.backlightSet_trace (s : State) (m : Byte) : (s.backlightSet m).trace = s.trace := rfl

@[simp] theorem State.initStateSet_cfg (s : State) (i : InitState) : (s.initStateSet i).cfg = s.cfg := rfl
@[simp] theorem State.initStateSet_cols (s : State) (i : InitState) : (s.initStateSet i).cols = s.cols := rfl
@[simp] theorem State.initStateSet_rows (s : State) (i : InitState) : (s.initStateSet i).rows = s.rows := rfl
@[simp] theorem State.initStateSet_blmask (s : State) (i : InitState) : (s.initStateSet i).blmask = s.blmask := rfl
@[simp] theorem State.initStateSet_initState (s : State) (i : InitState) : (s.initStateSet i).initState = i := rfl
@[simp] theorem State.initStateSet_reqpc (s : State) (i : InitState) : (s.initStateSet i).reqpc = s.reqpc := rfl
@[simp] theorem State.initStateSet_busy (s : State) (i : InitState) : (s.initStateSet i).busy = s.busy := rfl
@[simp] theorem State.initStateSet_fault (s : State) (i : InitState) : (s.initStateSet i).fault = s.fault := rfl
@[simp] theorem State.initStateSet_cause (s : State) (i : InitState) : (s.initStateSet i).cause = s.cause := rfl
@[simp] theorem State.initStateSet_failed (s : State) (i : InitState) : (s.initStateSet i).failed = s.failed := rfl
@[simp] theorem State.initStateSet_request (s : State) (i : InitState) : (s.initStateSet i).request = s.request.map fun r => { r with next := r.next + 1 } :=
    rfl
@[simp] theorem State.initStateSet_logDue (s : State) (i : InitState) : (s.initStateSet i).logDue = s.logDue := rfl
@[simp] theorem State.initStateSet_resetInput (s : State) (i : InitState) : (s.initStateSet i).resetInput = s.resetInput :=
    rfl
@[simp] theorem State.initStateSet_transport (s : State) (i : InitState) : (s.initStateSet i).transport = s.transport :=
    rfl
@[simp] theorem State.initStateSet_stream (s : State) (i : InitState) : (s.initStateSet i).stream = s.stream := rfl
@[simp] theorem State.initStateSet_trace (s : State) (i : InitState) : (s.initStateSet i).trace = s.trace := rfl

@[simp] theorem State.wroteByte_cfg (s : State) (b : Byte) (ack : Bool) (t : Transport) : (s.wroteByte b ack t).cfg = s.cfg :=
    rfl
@[simp] theorem State.wroteByte_cols (s : State) (b : Byte) (ack : Bool) (t : Transport) : (s.wroteByte b ack t).cols = s.cols :=
    rfl
@[simp] theorem State.wroteByte_rows (s : State) (b : Byte) (ack : Bool) (t : Transport) : (s.wroteByte b ack t).rows = s.rows :=
    rfl
@[simp] theorem State.wroteByte_blmask (s : State) (b : Byte) (ack : Bool) (t : Transport) : (s.wroteByte b ack t).blmask = s.blmask :=
    rfl
@[simp] theorem State.wroteByte_initState (s : State) (b : Byte) (ack : Bool) (t : Transport) : (s.wroteByte b ack t).initState = s.initState :=
    rfl
@[simp] theorem State.wroteByte_reqpc (s : State) (b : Byte) (ack : Bool) (t : Transport) : (s.wroteByte b ack t).reqpc = s.reqpc :=
    rfl
@[simp] theorem State.wroteByte_busy (s : State) (b : Byte) (ack : Bool) (t : Transport) : (s.wroteByte b ack t).busy = s.busy :=
    rfl
@[simp] theorem State.wroteByte_fault (s : State) (b : Byte) (ack : Bool) (t : Transport) : (s.wroteByte b ack t).fault = s.fault :=
    rfl
@[simp] theorem State.wroteByte_cause (s : State) (b : Byte) (ack : Bool) (t : Transport) : (s.wroteByte b ack t).cause = s.cause :=
    rfl
@[simp] theorem State.wroteByte_failed (s : State) (b : Byte) (ack : Bool) (t : Transport) : (s.wroteByte b ack t).failed = failedAfter s.failed ack :=
    rfl
@[simp] theorem State.wroteByte_request (s : State) (b : Byte) (ack : Bool) (t : Transport) : (s.wroteByte b ack t).request = s.request.map fun r => { r with event := r.event + 1, next := r.next + 1 } := by
  cases h : s.request <;> simp [State.wroteByte, State.emitted, State.advanced, h]
@[simp] theorem State.wroteByte_logDue (s : State) (b : Byte) (ack : Bool) (t : Transport) : (s.wroteByte b ack t).logDue = if ack then none else some b :=
    rfl
@[simp] theorem State.wroteByte_resetInput (s : State) (b : Byte) (ack : Bool) (t : Transport) : (s.wroteByte b ack t).resetInput = s.resetInput :=
    rfl
@[simp] theorem State.wroteByte_transport (s : State) (b : Byte) (ack : Bool) (t : Transport) : (s.wroteByte b ack t).transport = t :=
    rfl
@[simp] theorem State.wroteByte_stream (s : State) (b : Byte) (ack : Bool) (t : Transport) : (s.wroteByte b ack t).stream = s.stream :=
    rfl
@[simp] theorem State.wroteByte_trace (s : State) (b : Byte) (ack : Bool) (t : Transport) : (s.wroteByte b ack t).trace = s.trace ++ [.w b ack] :=
    rfl

@[simp] theorem State.logged_cfg (s : State) : s.logged.cfg = s.cfg := by
  unfold State.logged; split <;> rfl
@[simp] theorem State.logged_cols (s : State) : s.logged.cols = s.cols := by
  unfold State.logged; split <;> rfl
@[simp] theorem State.logged_rows (s : State) : s.logged.rows = s.rows := by
  unfold State.logged; split <;> rfl
@[simp] theorem State.logged_blmask (s : State) : s.logged.blmask = s.blmask := by
  unfold State.logged; split <;> rfl
@[simp] theorem State.logged_initState (s : State) : s.logged.initState = s.initState := by
  unfold State.logged; split <;> rfl
@[simp] theorem State.logged_reqpc (s : State) : s.logged.reqpc = s.reqpc := by
  unfold State.logged; split <;> rfl
@[simp] theorem State.logged_busy (s : State) : s.logged.busy = s.busy := by
  unfold State.logged; split <;> rfl
@[simp] theorem State.logged_fault (s : State) : s.logged.fault = s.fault := by
  unfold State.logged; split <;> rfl
@[simp] theorem State.logged_cause (s : State) : s.logged.cause = s.cause := by
  unfold State.logged; split <;> rfl
@[simp] theorem State.logged_failed (s : State) : s.logged.failed = s.failed := by
  unfold State.logged; split <;> rfl
@[simp] theorem State.logged_resetInput (s : State) : s.logged.resetInput = s.resetInput := by
  unfold State.logged; split <;> rfl
@[simp] theorem State.logged_transport (s : State) : s.logged.transport = s.transport := by
  unfold State.logged; split <;> rfl
@[simp] theorem State.logged_stream (s : State) : s.logged.stream = s.stream := by
  unfold State.logged; split <;> rfl
/-- With no log event due there is nothing to log. -/
theorem State.logged_of_none {s : State} (h : s.logDue = none) : s.logged = s := by
  unfold State.logged; rw [h]
@[simp] theorem State.logged_logDue (s : State) : s.logged.logDue = none := by
  unfold State.logged; split <;> simp_all

@[simp] theorem State.wrote_cfg (s : State) (b : Byte) (ack : Bool) (t : Transport) : (s.wrote b ack t).cfg = s.cfg := by
  cases ack <;> rfl
@[simp] theorem State.wrote_cols (s : State) (b : Byte) (ack : Bool) (t : Transport) : (s.wrote b ack t).cols = s.cols := by
  cases ack <;> rfl
@[simp] theorem State.wrote_rows (s : State) (b : Byte) (ack : Bool) (t : Transport) : (s.wrote b ack t).rows = s.rows := by
  cases ack <;> rfl
@[simp] theorem State.wrote_blmask (s : State) (b : Byte) (ack : Bool) (t : Transport) : (s.wrote b ack t).blmask = s.blmask := by
  cases ack <;> rfl
@[simp] theorem State.wrote_initState (s : State) (b : Byte) (ack : Bool) (t : Transport) : (s.wrote b ack t).initState = s.initState := by
  cases ack <;> rfl
@[simp] theorem State.wrote_reqpc (s : State) (b : Byte) (ack : Bool) (t : Transport) : (s.wrote b ack t).reqpc = s.reqpc := by
  cases ack <;> rfl
@[simp] theorem State.wrote_busy (s : State) (b : Byte) (ack : Bool) (t : Transport) : (s.wrote b ack t).busy = s.busy := by
  cases ack <;> rfl
@[simp] theorem State.wrote_fault (s : State) (b : Byte) (ack : Bool) (t : Transport) : (s.wrote b ack t).fault = s.fault := by
  cases ack <;> rfl
@[simp] theorem State.wrote_cause (s : State) (b : Byte) (ack : Bool) (t : Transport) : (s.wrote b ack t).cause = s.cause := by
  cases ack <;> rfl
@[simp] theorem State.wrote_failed (s : State) (b : Byte) (ack : Bool) (t : Transport) : (s.wrote b ack t).failed = failedAfter s.failed ack := by
  cases ack <;> rfl
@[simp] theorem State.wrote_request (s : State) (b : Byte) (ack : Bool) (t : Transport) : (s.wrote b ack t).request = s.request.map fun r =>
    { r with event := r.event + (loggedWrite b ack).length, next := r.next + 1 } := by
  cases ack <;> cases h : s.request <;> simp [State.wrote, State.logged, State.wroteByte, State.emitted, State.advanced,
    loggedWrite, h]
@[simp] theorem State.wrote_logDue (s : State) (b : Byte) (ack : Bool) (t : Transport) : (s.wrote b ack t).logDue = none := by
  cases ack <;> rfl
@[simp] theorem State.wrote_resetInput (s : State) (b : Byte) (ack : Bool) (t : Transport) : (s.wrote b ack t).resetInput = s.resetInput := by
  cases ack <;> rfl
@[simp] theorem State.wrote_transport (s : State) (b : Byte) (ack : Bool) (t : Transport) : (s.wrote b ack t).transport = t := by
  cases ack <;> rfl
@[simp] theorem State.wrote_stream (s : State) (b : Byte) (ack : Bool) (t : Transport) : (s.wrote b ack t).stream = s.stream := by
  cases ack <;> rfl
@[simp] theorem State.wrote_trace (s : State) (b : Byte) (ack : Bool) (t : Transport) : (s.wrote b ack t).trace = s.trace ++ loggedWrite b ack := by
  cases ack <;> simp [State.wrote, State.logged, State.wroteByte, State.emitted, loggedWrite]

@[simp] theorem State.stalled_cfg (s : State) (w : BusWrite) : (s.stalled w).cfg = s.cfg := rfl
@[simp] theorem State.stalled_cols (s : State) (w : BusWrite) : (s.stalled w).cols = s.cols := rfl
@[simp] theorem State.stalled_rows (s : State) (w : BusWrite) : (s.stalled w).rows = s.rows := rfl
@[simp] theorem State.stalled_blmask (s : State) (w : BusWrite) : (s.stalled w).blmask = s.blmask := rfl
@[simp] theorem State.stalled_initState (s : State) (w : BusWrite) : (s.stalled w).initState = s.initState := rfl
@[simp] theorem State.stalled_reqpc (s : State) (w : BusWrite) : (s.stalled w).reqpc = s.reqpc := rfl
@[simp] theorem State.stalled_busy (s : State) (w : BusWrite) : (s.stalled w).busy = s.busy := rfl
@[simp] theorem State.stalled_fault (s : State) (w : BusWrite) : (s.stalled w).fault = s.fault := rfl
@[simp] theorem State.stalled_cause (s : State) (w : BusWrite) : (s.stalled w).cause = s.cause := rfl
@[simp] theorem State.stalled_failed (s : State) (w : BusWrite) : (s.stalled w).failed = s.failed := rfl
@[simp] theorem State.stalled_request (s : State) (w : BusWrite) : (s.stalled w).request = s.request.map fun r => { r with outstanding := some w } := rfl
@[simp] theorem State.stalled_logDue (s : State) (w : BusWrite) : (s.stalled w).logDue = s.logDue := rfl
@[simp] theorem State.stalled_resetInput (s : State) (w : BusWrite) : (s.stalled w).resetInput = s.resetInput := rfl
@[simp] theorem State.stalled_transport (s : State) (w : BusWrite) : (s.stalled w).transport = s.transport.stalled :=
    rfl
@[simp] theorem State.stalled_stream (s : State) (w : BusWrite) : (s.stalled w).stream = s.stream := rfl
@[simp] theorem State.stalled_trace (s : State) (w : BusWrite) : (s.stalled w).trace = s.trace := rfl

@[simp] theorem State.waited_cfg (s : State) (us : Nat) : (s.waited us).cfg = s.cfg := rfl
@[simp] theorem State.waited_cols (s : State) (us : Nat) : (s.waited us).cols = s.cols := rfl
@[simp] theorem State.waited_rows (s : State) (us : Nat) : (s.waited us).rows = s.rows := rfl
@[simp] theorem State.waited_blmask (s : State) (us : Nat) : (s.waited us).blmask = s.blmask := rfl
@[simp] theorem State.waited_initState (s : State) (us : Nat) : (s.waited us).initState = s.initState := rfl
@[simp] theorem State.waited_reqpc (s : State) (us : Nat) : (s.waited us).reqpc = s.reqpc := rfl
@[simp] theorem State.waited_busy (s : State) (us : Nat) : (s.waited us).busy = s.busy := rfl
@[simp] theorem State.waited_fault (s : State) (us : Nat) : (s.waited us).fault = s.fault := rfl
@[simp] theorem State.waited_cause (s : State) (us : Nat) : (s.waited us).cause = s.cause := rfl
@[simp] theorem State.waited_failed (s : State) (us : Nat) : (s.waited us).failed = s.failed := rfl
@[simp] theorem State.waited_request (s : State) (us : Nat) : (s.waited us).request = s.request.map fun r => { r with event := r.event + (waitEvents us).length, next := r.next + 1 } := by
  cases h : s.request <;> simp [State.waited, State.emitted, State.advanced, h]
@[simp] theorem State.waited_logDue (s : State) (us : Nat) : (s.waited us).logDue = s.logDue := rfl
@[simp] theorem State.waited_resetInput (s : State) (us : Nat) : (s.waited us).resetInput = s.resetInput := rfl
@[simp] theorem State.waited_transport (s : State) (us : Nat) : (s.waited us).transport = s.transport := rfl
@[simp] theorem State.waited_stream (s : State) (us : Nat) : (s.waited us).stream = s.stream := rfl
@[simp] theorem State.waited_trace (s : State) (us : Nat) : (s.waited us).trace = s.trace ++ waitEvents us := rfl

@[simp] theorem State.responded_cfg (s : State) : s.responded.cfg = s.cfg := rfl
@[simp] theorem State.responded_cols (s : State) : s.responded.cols = s.cols := rfl
@[simp] theorem State.responded_rows (s : State) : s.responded.rows = s.rows := rfl
@[simp] theorem State.responded_blmask (s : State) : s.responded.blmask = s.blmask := rfl
@[simp] theorem State.responded_initState (s : State) : s.responded.initState = s.initState := rfl
@[simp] theorem State.responded_reqpc (s : State) : s.responded.reqpc = s.reqpc := rfl
@[simp] theorem State.responded_busy (s : State) : s.responded.busy = false := rfl
@[simp] theorem State.responded_fault (s : State) : s.responded.fault = s.fault := rfl
@[simp] theorem State.responded_cause (s : State) : s.responded.cause = s.cause := rfl
@[simp] theorem State.responded_failed (s : State) : s.responded.failed = s.failed := rfl
@[simp] theorem State.responded_request (s : State) : s.responded.request = none := rfl
@[simp] theorem State.responded_logDue (s : State) : s.responded.logDue = s.logDue := rfl
@[simp] theorem State.responded_resetInput (s : State) : s.responded.resetInput = s.resetInput := rfl
@[simp] theorem State.responded_transport (s : State) : s.responded.transport = s.transport := rfl
@[simp] theorem State.responded_stream (s : State) : s.responded.stream = s.stream := rfl
@[simp] theorem State.responded_trace (s : State) : s.responded.trace = s.trace ++ [.resp (responseByte s.failed)] := rfl

@[simp] theorem State.raised_cfg (s : State) (k : Cause) : (s.raised k).cfg = s.cfg := rfl
@[simp] theorem State.raised_cols (s : State) (k : Cause) : (s.raised k).cols = s.cols := rfl
@[simp] theorem State.raised_rows (s : State) (k : Cause) : (s.raised k).rows = s.rows := rfl
@[simp] theorem State.raised_blmask (s : State) (k : Cause) : (s.raised k).blmask = s.blmask := rfl
@[simp] theorem State.raised_initState (s : State) (k : Cause) : (s.raised k).initState = s.initState := rfl
@[simp] theorem State.raised_reqpc (s : State) (k : Cause) : (s.raised k).reqpc = s.reqpc := rfl
@[simp] theorem State.raised_busy (s : State) (k : Cause) : (s.raised k).busy = false := rfl
@[simp] theorem State.raised_fault (s : State) (k : Cause) : (s.raised k).fault = true := rfl
@[simp] theorem State.raised_cause (s : State) (k : Cause) : (s.raised k).cause = k.code := rfl
@[simp] theorem State.raised_failed (s : State) (k : Cause) : (s.raised k).failed = s.failed := rfl
@[simp] theorem State.raised_request (s : State) (k : Cause) : (s.raised k).request = none := rfl
@[simp] theorem State.raised_logDue (s : State) (k : Cause) : (s.raised k).logDue = s.logDue := rfl
@[simp] theorem State.raised_resetInput (s : State) (k : Cause) : (s.raised k).resetInput = s.resetInput := rfl
@[simp] theorem State.raised_transport (s : State) (k : Cause) : (s.raised k).transport = s.transport := rfl
@[simp] theorem State.raised_stream (s : State) (k : Cause) : (s.raised k).stream = s.stream := rfl
@[simp] theorem State.raised_trace (s : State) (k : Cause) : (s.raised k).trace = s.trace := rfl

@[simp] theorem State.afterReset_cfg (s : State) : s.afterReset.cfg = s.cfg := rfl
@[simp] theorem State.afterReset_cols (s : State) : s.afterReset.cols = ⟨0, false⟩ := rfl
@[simp] theorem State.afterReset_rows (s : State) : s.afterReset.rows = ⟨0, false⟩ := rfl
@[simp] theorem State.afterReset_blmask (s : State) : s.afterReset.blmask = ⟨0, false⟩ := rfl
@[simp] theorem State.afterReset_initState (s : State) : s.afterReset.initState = .poweredUnknown := rfl
@[simp] theorem State.afterReset_reqpc (s : State) : s.afterReset.reqpc = 0 := rfl
@[simp] theorem State.afterReset_busy (s : State) : s.afterReset.busy = false := rfl
@[simp] theorem State.afterReset_fault (s : State) : s.afterReset.fault = false := rfl
@[simp] theorem State.afterReset_cause (s : State) : s.afterReset.cause = 0 := rfl
@[simp] theorem State.afterReset_failed (s : State) : s.afterReset.failed = false := rfl
@[simp] theorem State.afterReset_request (s : State) : s.afterReset.request = none := rfl
@[simp] theorem State.afterReset_logDue (s : State) : s.afterReset.logDue = none := rfl
@[simp] theorem State.afterReset_resetInput (s : State) : s.afterReset.resetInput = false := rfl
@[simp] theorem State.afterReset_transport (s : State) : s.afterReset.transport = s.transport := rfl
@[simp] theorem State.afterReset_stream (s : State) : s.afterReset.stream = [] := rfl
@[simp] theorem State.afterReset_trace (s : State) : s.afterReset.trace = s.trace := rfl

@[simp] theorem State.supply_cfg (s : State) (a : Nat) (bs : List Byte) : (s.supply a bs).cfg = s.cfg := rfl
@[simp] theorem State.supply_cols (s : State) (a : Nat) (bs : List Byte) : (s.supply a bs).cols = s.cols := rfl
@[simp] theorem State.supply_rows (s : State) (a : Nat) (bs : List Byte) : (s.supply a bs).rows = s.rows := rfl
@[simp] theorem State.supply_blmask (s : State) (a : Nat) (bs : List Byte) : (s.supply a bs).blmask = s.blmask := rfl
@[simp] theorem State.supply_initState (s : State) (a : Nat) (bs : List Byte) : (s.supply a bs).initState = s.initState :=
    rfl
@[simp] theorem State.supply_reqpc (s : State) (a : Nat) (bs : List Byte) : (s.supply a bs).reqpc = s.reqpc := rfl
@[simp] theorem State.supply_busy (s : State) (a : Nat) (bs : List Byte) : (s.supply a bs).busy = s.busy := rfl
@[simp] theorem State.supply_fault (s : State) (a : Nat) (bs : List Byte) : (s.supply a bs).fault = s.fault := rfl
@[simp] theorem State.supply_cause (s : State) (a : Nat) (bs : List Byte) : (s.supply a bs).cause = s.cause := rfl
@[simp] theorem State.supply_failed (s : State) (a : Nat) (bs : List Byte) : (s.supply a bs).failed = s.failed := rfl
@[simp] theorem State.supply_request (s : State) (a : Nat) (bs : List Byte) : (s.supply a bs).request = s.request := rfl
@[simp] theorem State.supply_logDue (s : State) (a : Nat) (bs : List Byte) : (s.supply a bs).logDue = s.logDue := rfl
@[simp] theorem State.supply_resetInput (s : State) (a : Nat) (bs : List Byte) : (s.supply a bs).resetInput = s.resetInput :=
    rfl
@[simp] theorem State.supply_transport (s : State) (a : Nat) (bs : List Byte) : (s.supply a bs).transport = s.transport :=
    rfl
@[simp] theorem State.supply_stream (s : State) (a : Nat) (bs : List Byte) : (s.supply a bs).stream = s.stream.writeBytes a bs :=
    rfl
@[simp] theorem State.supply_trace (s : State) (a : Nat) (bs : List Byte) : (s.supply a bs).trace = s.trace := rfl

@[simp] theorem State.assertReset_cfg (s : State) : s.assertReset.cfg = s.cfg := rfl
@[simp] theorem State.assertReset_cols (s : State) : s.assertReset.cols = s.cols := rfl
@[simp] theorem State.assertReset_rows (s : State) : s.assertReset.rows = s.rows := rfl
@[simp] theorem State.assertReset_blmask (s : State) : s.assertReset.blmask = s.blmask := rfl
@[simp] theorem State.assertReset_initState (s : State) : s.assertReset.initState = s.initState := rfl
@[simp] theorem State.assertReset_reqpc (s : State) : s.assertReset.reqpc = s.reqpc := rfl
@[simp] theorem State.assertReset_busy (s : State) : s.assertReset.busy = s.busy := rfl
@[simp] theorem State.assertReset_fault (s : State) : s.assertReset.fault = s.fault := rfl
@[simp] theorem State.assertReset_cause (s : State) : s.assertReset.cause = s.cause := rfl
@[simp] theorem State.assertReset_failed (s : State) : s.assertReset.failed = s.failed := rfl
@[simp] theorem State.assertReset_request (s : State) : s.assertReset.request = s.request := rfl
@[simp] theorem State.assertReset_logDue (s : State) : s.assertReset.logDue = s.logDue := rfl
@[simp] theorem State.assertReset_resetInput (s : State) : s.assertReset.resetInput = true := rfl
@[simp] theorem State.assertReset_transport (s : State) : s.assertReset.transport = s.transport := rfl
@[simp] theorem State.assertReset_stream (s : State) : s.assertReset.stream = s.stream := rfl
@[simp] theorem State.assertReset_trace (s : State) : s.assertReset.trace = s.trace := rfl

end Sys2Proof.Machine
end

