-- ==== Sys2Proof/Laws/Transport.lean ====
section
/-! SUPPORT. The Transport's answers and the events of a list of bus items: how they split over an append. -/

namespace Sys2Proof.Machine

theorem Transport.answers_succ (n : Nat) (t : Transport) :
    t.answers (n + 1) = true ↔ ∃ ack t', t.next? = some (ack, t') ∧ t'.answers n = true := by
  simp only [Transport.answers]
  cases h : t.next? with
  | none => simp
  | some p => obtain ⟨ack, t'⟩ := p; simp

theorem Transport.take_succ {n : Nat} {t t' : Transport} {ack : Bool} (h : t.next? = some (ack, t')) :
    t.take (n + 1) = (ack :: (t'.take n).1, (t'.take n).2) := by
  simp only [Transport.take, h]

/-- An answer leaves the writes that the Transport was asked for as they are. -/
theorem Transport.next?_calls {t t' : Transport} {ack : Bool} (h : t.next? = some (ack, t')) :
    t'.calls = t.calls := by
  unfold Transport.next? at h
  split at h
  case h_4 => split at h <;> simp at h <;> simp [h]
  all_goals simp at h
  all_goals simp [← h.2]

/-- Recording a write changes no answer to come. -/
@[simp] theorem Transport.next?_recorded (w : BusWrite) (t : Transport) :
    (t.recorded w).next? = t.next?.map fun p => (p.1, p.2.recorded w) := by
  obtain ⟨script, afterwards, calls⟩ := t
  cases script with
  | nil => cases afterwards <;> rfl
  | cons a rest => cases a <;> rfl

@[simp] theorem Transport.call_eq (w : BusWrite) (t : Transport) :
    t.call w = t.next?.map fun p => (p.1, p.2.recorded w) := rfl
@[simp] theorem Transport.recorded_calls (w : BusWrite) (t : Transport) : (t.recorded w).calls = t.calls ++ [w] := rfl
@[simp] theorem Transport.stalled_calls (t : Transport) : t.stalled.calls = t.calls := rfl

@[simp] theorem Transport.answers_recorded (n : Nat) (w : BusWrite) (t : Transport) :
    (t.recorded w).answers n = t.answers n := by
  induction n generalizing t with
  | zero => rfl
  | succ n ih =>
    simp only [Transport.answers, Transport.next?_recorded]
    cases t.next? with
    | none => rfl
    | some p => exact ih p.2

@[simp] theorem Transport.take_recorded (n : Nat) (w : BusWrite) (t : Transport) :
    (t.recorded w).take n = ((t.take n).1, (t.take n).2.recorded w) := by
  induction n generalizing t with
  | zero => rfl
  | succ n ih =>
    simp only [Transport.take, Transport.next?_recorded]
    cases t.next? with
    | none => rfl
    | some p => simp [ih]

/-- Taking answers leaves the writes that the Transport was asked for as they are. -/
theorem Transport.take_calls (n : Nat) (t : Transport) : (t.take n).2.calls = t.calls := by
  induction n generalizing t with
  | zero => rfl
  | succ n ih =>
    simp only [Transport.take]
    cases h : t.next? with
    | none => rfl
    | some p => exact (ih p.2).trans (Transport.next?_calls h)

/-- The writes recorded change no answer to come. -/
@[simp] theorem Transport.answers_withCalls (n : Nat) (t : Transport) (c : List BusWrite) :
    Transport.answers n { t with calls := c } = t.answers n := by
  induction n generalizing t with
  | zero => rfl
  | succ n ih =>
    obtain ⟨script, afterwards, calls⟩ := t
    cases script with
    | nil => cases afterwards <;> first | rfl | exact ih ⟨[], _, calls⟩
    | cons a rest => cases a <;> first | rfl | exact ih ⟨rest, _, calls⟩

@[simp] theorem Transport.take_withCalls (n : Nat) (t : Transport) (c : List BusWrite) :
    Transport.take n { t with calls := c } = ((t.take n).1, { (t.take n).2 with calls := c }) := by
  induction n generalizing t with
  | zero => rfl
  | succ n ih =>
    obtain ⟨script, afterwards, calls⟩ := t
    cases script with
    | nil =>
      cases afterwards with
      | never => rfl
      | success => simp only [Transport.take, Transport.next?]; rw [ih ⟨[], .success, calls⟩]
      | failure => simp only [Transport.take, Transport.next?]; rw [ih ⟨[], .failure, calls⟩]
    | cons a rest =>
      cases a with
      | never => rfl
      | success => simp only [Transport.take, Transport.next?]; rw [ih ⟨rest, afterwards, calls⟩]
      | failure => simp only [Transport.take, Transport.next?]; rw [ih ⟨rest, afterwards, calls⟩]

@[simp] theorem busBytes_append (mask : Byte) (is js : List BusItem) :
    busBytes mask (is ++ js) = busBytes mask is ++ busBytes mask js := by
  induction is with
  | nil => rfl
  | cons i is ih => cases i <;> simp [busBytes, ih]

/-- Answering `m + n` writes is answering `m` and then `n`. -/
theorem Transport.answers_add (m n : Nat) (t : Transport) :
    t.answers (m + n) = (t.answers m && (t.take m).2.answers n) := by
  induction m generalizing t with
  | zero => simp [Transport.answers, Transport.take]
  | succ m ih =>
    rw [Nat.succ_add]
    simp only [Transport.answers, Transport.take]
    cases h : t.next? with
    | none => simp
    | some p => simp only [ih]

/-- The answers to `m + n` writes are those to `m` and then those to `n`. -/
theorem Transport.take_add {m n : Nat} {t : Transport} (h : t.answers m = true) :
    t.take (m + n) = ((t.take m).1 ++ ((t.take m).2.take n).1, ((t.take m).2.take n).2) := by
  induction m generalizing t with
  | zero => simp [Transport.take]
  | succ m ih =>
    obtain ⟨ack, t', hn, ha⟩ := (Transport.answers_succ m t).mp h
    rw [Nat.succ_add, Transport.take_succ hn, Transport.take_succ hn, ih ha]
    simp

theorem Transport.take_length {n : Nat} {t : Transport} (h : t.answers n = true) : (t.take n).1.length = n := by
  induction n generalizing t with
  | zero => simp [Transport.take]
  | succ n ih =>
    obtain ⟨ack, t', hn, ha⟩ := (Transport.answers_succ n t).mp h
    simp [Transport.take_succ hn, ih ha]

@[simp] theorem writeCount_append (is js : List BusItem) : writeCount (is ++ js) = writeCount is + writeCount js := by
  induction is with
  | nil => simp [writeCount]
  | cons i is ih => cases i <;> simp [writeCount, ih]; omega

@[simp] theorem writeCount_writes (bs : List Byte) : writeCount (bs.map .write) = bs.length := by
  induction bs with
  | nil => rfl
  | cons b bs ih => simp [writeCount, ih]

/-- The events of appended items are the events of the first, then those of the second with the answers left. -/
theorem busEvents_append {mask : Byte} {is js : List BusItem} {as bs : List Bool} (h : as.length = writeCount is) :
    busEvents mask (is ++ js) (as ++ bs) = busEvents mask is as ++ busEvents mask js bs := by
  induction is generalizing as with
  | nil =>
    have : as = [] := List.length_eq_zero_iff.mp (by simpa [writeCount] using h)
    subst this
    cases js <;> simp [busEvents]
  | cons i is ih =>
    cases i with
    | wait us => simp [busEvents, ih (by simpa [writeCount] using h)]
    | write b =>
      cases as with
      | nil => simp [writeCount] at h
      | cons a as => simp [busEvents, ih (by simpa [writeCount] using h)]

end Sys2Proof.Machine
end

