-- ==== Sys2Proof/Laws/Ops.lean ====
section
/-! SUPPORT. What running actions can do, said once: `runAct_goesOn` for one action, `runActs_next` for a list of them,
`goesOn_bus` for the writes and waits of a request. -/

namespace Sys2Proof.Machine

/-- The actions all go on, from the first state to the second. -/
inductive GoesOn : List Act → State → State → Prop where
  | nil (s : State) : GoesOn [] s s
  | cons {a : Act} {rest : List Act} {s s' t : State} (h : runAct a s = .goesOn s') (hr : GoesOn rest s' t) :
    GoesOn (a :: rest) s t

theorem GoesOn.append {as bs : List Act} {s t u : State} (h : GoesOn as s t) (h' : GoesOn bs t u) :
    GoesOn (as ++ bs) s u := by
  induction h with
  | nil => exact h'
  | cons ha _ ih => exact .cons ha (ih h')

/-- Actions that go on are run, and then the rest is. -/
theorem GoesOn.runActs_append {as : List Act} {s t : State} (h : GoesOn as s t) (bs : List Act) :
    runActs (as ++ bs) s = runActs bs t := by
  induction h with
  | nil => rfl
  | cons ha _ ih => simp only [List.cons_append, runActs, ha, ih]

theorem GoesOn.runActs {as : List Act} {s t : State} (h : GoesOn as s t) : runActs as s = .next t := by
  simpa [Machine.runActs] using h.runActs_append []

/-- A logged write (R14, R81): it reads BLMASK, asks the Transport, and goes on with its events or is not answered. -/
theorem runAct_write (b : Byte) (s : State) : runAct (.write b) s =
    if s.blmask.written then
      match s.transport.next? with
      | none => .blocked (s.stalled (busWrite s.cfg (b ||| s.blmask.value)))
      | some (ack, t) =>
        .goesOn (s.wrote (b ||| s.blmask.value) ack (t.recorded (busWrite s.cfg (b ||| s.blmask.value))))
    else .unwritten := by
  simp only [runAct, writeLogged, xwrite, DisplayReg.read?]
  cases s.blmask.written with
  | false => rfl
  | true => cases h : s.transport.next? <;> simp [h, State.wrote]

/-- Everything one action that goes on can do. -/
theorem runAct_goesOn {a : Act} {s s' : State} (h : runAct a s = .goesOn s') :
    (∃ b, a = .fetch b ∧ s' = s.fetched b) ∨
    (∃ c r m, a = .install c r m ∧ s' = s.installed c r m) ∨
    (∃ m, a = .setBacklight m ∧ s' = s.backlightSet m) ∨
    (∃ i, a = .setInitState i ∧ s' = s.initStateSet i) ∨
    (∃ b ack t, a = .write b ∧ s.blmask.written = true ∧ s.transport.next? = some (ack, t) ∧
      s' = s.wrote (b ||| s.blmask.value) ack (t.recorded (busWrite s.cfg (b ||| s.blmask.value)))) ∨
    (∃ us, a = .wait us ∧ s' = s.waited us) ∨
    (a = .respond ∧ s' = s.responded) := by
  cases a with
  | fetch b => exact .inl ⟨b, rfl, (ActResult.goesOn.inj h).symm⟩
  | install c r m => exact .inr (.inl ⟨c, r, m, rfl, (ActResult.goesOn.inj h).symm⟩)
  | setBacklight m => exact .inr (.inr (.inl ⟨m, rfl, (ActResult.goesOn.inj h).symm⟩))
  | setInitState i => exact .inr (.inr (.inr (.inl ⟨i, rfl, (ActResult.goesOn.inj h).symm⟩)))
  | wait us => exact .inr (.inr (.inr (.inr (.inr (.inl ⟨us, rfl, (ActResult.goesOn.inj h).symm⟩)))))
  | respond => exact .inr (.inr (.inr (.inr (.inr (.inr (⟨rfl, (ActResult.goesOn.inj h).symm⟩))))))
  | readUnwritten => simp [runAct] at h
  | raise c => simp [runAct] at h
  | write b =>
    rw [runAct_write] at h
    cases hw : s.blmask.written with
    | false => simp [hw] at h
    | true =>
      cases ht : s.transport.next? with
      | none => simp [hw, ht] at h
      | some p =>
        obtain ⟨ack, t⟩ := p
        simp only [hw, ht, if_true, ActResult.goesOn.injEq] at h
        exact .inr (.inr (.inr (.inr (.inl ⟨b, ack, t, rfl, rfl, rfl, h.symm⟩))))

/-- A blocked action is a write that the Transport does not answer. -/
theorem runAct_blocked {a : Act} {s s' : State} (h : runAct a s = .blocked s') :
    ∃ b, a = .write b ∧ s.blmask.written = true ∧ s.transport.next? = none ∧
      s' = s.stalled (busWrite s.cfg (b ||| s.blmask.value)) := by
  cases a with
  | write b =>
    rw [runAct_write] at h
    cases hw : s.blmask.written with
    | false => simp [hw] at h
    | true =>
      cases ht : s.transport.next? with
      | none => exact ⟨b, rfl, rfl, rfl, by simpa [hw, ht] using h.symm⟩
      | some p => simp [hw, ht] at h
  | _ => simp [runAct] at h

/-- An action that stops the request raises a fault. -/
theorem runAct_stopped {a : Act} {s s' : State} (h : runAct a s = .stopped s') : ∃ c, a = .raise c ∧ s' = s.raised c := by
  cases a with
  | raise c => exact ⟨c, rfl, (ActResult.stopped.inj h).symm⟩
  | write b =>
    rw [runAct_write] at h
    split at h
    · split at h <;> simp at h
    · simp at h
  | _ => simp [runAct] at h

/-- An action that reads an unwritten register. -/
theorem runAct_unwritten {a : Act} {s : State} (h : runAct a s = .unwritten) :
    a = .readUnwritten ∨ ∃ b, a = .write b ∧ s.blmask.written = false := by
  cases a with
  | readUnwritten => exact .inl rfl
  | write b =>
    refine .inr ⟨b, rfl, ?_⟩
    rw [runAct_write] at h
    cases hw : s.blmask.written with
    | false => rfl
    | true => cases ht : s.transport.next? with
      | none => simp [hw, ht] at h
      | some p => simp [hw, ht] at h
  | _ => simp [runAct] at h

/-- Everything running actions can do when it answers a next state: the actions up to some point go on, and that point
is the end, a write the Transport does not answer, or a fault. -/
theorem runActs_next {as : List Act} {s t : State} (h : runActs as s = .next t) :
    ∃ done rest mid, as = done ++ rest ∧ GoesOn done s mid ∧
      ((rest = [] ∧ t = mid) ∨
       (∃ b rest', rest = .write b :: rest' ∧ mid.blmask.written = true ∧ mid.transport.next? = none ∧
         t = mid.stalled (busWrite mid.cfg (b ||| mid.blmask.value))) ∨
       (∃ c rest', rest = .raise c :: rest' ∧ t = mid.raised c)) := by
  induction as generalizing s with
  | nil =>
    simp only [runActs, Host.Outcome.next.injEq] at h
    exact ⟨[], [], s, rfl, .nil s, .inl ⟨rfl, h.symm⟩⟩
  | cons a as ih =>
    simp only [runActs] at h
    split at h
    · next s' ha =>
      obtain ⟨done, rest, mid, rfl, hg, hend⟩ := ih h
      exact ⟨a :: done, rest, mid, rfl, .cons ha hg, hend⟩
    · next s' ha =>
      obtain ⟨b, rfl, hw, hn, rfl⟩ := runAct_blocked ha
      simp only [Host.Outcome.next.injEq] at h
      exact ⟨[], _, s, rfl, .nil s, .inr (.inl ⟨b, as, rfl, hw, hn, h.symm⟩)⟩
    · next s' ha =>
      obtain ⟨c, rfl, rfl⟩ := runAct_stopped ha
      simp only [Host.Outcome.next.injEq] at h
      exact ⟨[], _, s, rfl, .nil s, .inr (.inr ⟨c, as, rfl, h.symm⟩)⟩
    · simp at h

/-- A list of actions never answers a refusal. -/
theorem runActs_not_refused (as : List Act) (s : State) (r : Refusal) : runActs as s ≠ .refused r := by
  induction as generalizing s with
  | nil => simp [runActs]
  | cons a as ih =>
    simp only [runActs]
    split
    · exact ih _
    all_goals simp

/-- A property that no action that goes on breaks holds wherever the actions go on to. -/
theorem GoesOn.keeps {P : State → Prop} {as : List Act} {s t : State} (h : GoesOn as s t)
    (hk : ∀ a ∈ as, ∀ x y, runAct a x = .goesOn y → P x → P y) (hs : P s) : P t := by
  induction h with
  | nil => exact hs
  | cons ha _ ih =>
    exact ih (fun a hm => hk a (List.mem_cons_of_mem _ hm)) (hk _ (List.mem_cons_self ..) _ _ ha hs)

/-- The action of a bus item. -/
def BusItem.toAct : BusItem → Act
  | .write b => .write b
  | .wait us => .wait us

/-- The state after the writes and waits of the items, inside a request. -/
def State.afterBus (s : State) (items : List BusItem) : State :=
  { s with
    transport :=
      { (s.transport.take (writeCount items)).2 with
        calls := s.transport.calls ++ (busBytes s.blmask.value items).map (busWrite s.cfg) }
    failed := s.failed || (s.transport.take (writeCount items)).1.contains false
    trace := s.trace ++ busEvents s.blmask.value items (s.transport.take (writeCount items)).1
    request := s.request.map fun r =>
      { r with
        event := r.event + (busEvents s.blmask.value items (s.transport.take (writeCount items)).1).length
        next := r.next + items.length } }

/-- The writes and waits of a request, with BLMASK written, no log event due and every write answered. -/
theorem goesOn_bus (items : List BusItem) (s : State) (hw : s.blmask.written = true) (hl : s.logDue = none)
    (ha : s.transport.answers (writeCount items) = true) :
    GoesOn (items.map BusItem.toAct) s (s.afterBus items) := by
  induction items generalizing s with
  | nil =>
    have : s.afterBus [] = s := by
      simp [State.afterBus, writeCount, Transport.take, busEvents, busBytes]
    rw [this]
    exact .nil s
  | cons i items ih =>
    cases i with
    | wait us =>
      have step : runAct (.wait us) s = .goesOn (s.waited us) := rfl
      have rest := ih (s.waited us) hw hl ha
      have hend : (s.waited us).afterBus items = s.afterBus (.wait us :: items) := by
        cases hreq : s.request <;>
          simp [State.afterBus, State.waited, State.emitted, State.advanced, writeCount, busEvents, busBytes, waitEvents,
            hreq, Nat.add_assoc, Nat.add_comm 1]
      exact .cons step (hend ▸ rest)
    | write b =>
      obtain ⟨ack, t, hn, hrest⟩ := (Transport.answers_succ _ _).mp ha
      have step := runAct_write b s
      rw [if_pos hw, hn] at step
      have rest := ih (s.wrote (b ||| s.blmask.value) ack (t.recorded (busWrite s.cfg (b ||| s.blmask.value))))
        (by simpa using hw) (by simp) (by simpa using hrest)
      have hc := Transport.next?_calls hn
      have hend : (s.wrote (b ||| s.blmask.value) ack (t.recorded (busWrite s.cfg (b ||| s.blmask.value)))).afterBus items
          = s.afterBus (.write b :: items) := by
        cases hreq : s.request <;> cases ack <;>
          apply State.ext <;>
          simp [State.afterBus, writeCount, busEvents, busBytes, loggedWrite, failedAfter, hreq, hc, hl,
            Transport.take_succ hn, Nat.add_assoc, Nat.add_comm 1]
        all_goals first | exact ⟨rfl, rfl⟩ | omega
      exact .cons step (hend ▸ rest)

/-- The writes of a list of bytes are the actions of its bus items. -/
theorem map_write_toAct (bs : List Byte) : bs.map Act.write = (bs.map BusItem.write).map BusItem.toAct := by
  simp [BusItem.toAct, Function.comp_def]

/-- A request that needs READY and finds it 0 raises NotReady after the fetch of its opcode byte. -/
theorem beginRequest_notReady {op : Byte} {script : List Act} {s : State} (hn : needsReady op = true)
    (hr : s.ready = false) : beginRequest op script s = .next ((s.started op).raised .notReady) := by
  simp [beginRequest, hn, hr]

/-- A request that needs no READY, or finds it 1, runs its actions. -/
theorem beginRequest_runs {op : Byte} {script : List Act} {s : State} (h : needsReady op = false ∨ s.ready = true) :
    beginRequest op script s = runActs script (s.started op) := by
  rcases h with h | h <;> simp [beginRequest, h]

end Sys2Proof.Machine
end

