-- ==== Sys2Proof/Laws/PerInstr.lean ====
section
/-! SUPPORT. Statements about every request as syntax, one lemma per constructor: the length of a request's encoding is
the length the request table gives it (30_encoding R61, R62, R76). -/

namespace Sys2Proof.Laws.EncodedLength

/-- The encoding has the length of the request table. -/
def Statement (i : Instr) : Prop := (encode i).length = lengthOf i

theorem init (cols rows : Byte) : Statement (.init cols rows) := rfl
theorem clear : Statement .clear := rfl
theorem home : Statement .home := rfl
theorem entry (leftToRight shift : Bool) : Statement (.entry leftToRight shift) := rfl
theorem dispctl (display cursor blink : Bool) : Statement (.dispctl display cursor blink) := rfl
theorem shift (moveDisplay right : Bool) : Statement (.shift moveDisplay right) := rfl
theorem goto (x y : Byte) : Statement (.goto x y) := rfl
theorem glyph (slot p0 p1 p2 p3 p4 p5 p6 p7 : Byte) : Statement (.glyph slot p0 p1 p2 p3 p4 p5 p6 p7) := rfl
theorem backlight (on : Bool) : Statement (.backlight on) := rfl
theorem wrstr (chars : List Byte) : Statement (.wrstr chars) := by simp [Statement, encode, operandsOf, lengthOf]
theorem sendbyte (value : Byte) (mode : Mode) : Statement (.sendbyte value mode) := rfl
theorem wrraw (byte : Byte) : Statement (.wrraw byte) := rfl

end Sys2Proof.Laws.EncodedLength
end

