-- ==== Sys2Proof/Laws/Request.lean ====
section
/-! SUPPORT. What a request can do, said once: its actions (`exec_begin`, `script_shape`, `fetches_script`), the ways it
ends (`exec_ways`), what no action changes (`runAct_goesOn_const`), and how its writes and waits run (`begin_items`). -/

namespace Sys2Proof.Machine

/-! ### The actions of a request -/

/-- Every meaning begins its request with its own opcode byte and actions. -/
theorem exec_begin (i : Instr) (s : State) : exec i s = beginRequest (opcodeOf i) (scriptOf i s) s := by
  cases i <;> rfl

/-- An action that does not end its request. -/
def Act.within : Act → Bool
  | .respond => false
  | .raise _ => false
  | .readUnwritten => false
  | .fetch _ => true
  | .install _ _ _ => true
  | .setBacklight _ => true
  | .setInitState _ => true
  | .write _ => true
  | .wait _ => true

/-- An action that writes no display register. -/
def Act.plain : Act → Bool
  | .install _ _ _ => false
  | .setBacklight _ => false
  | .setInitState _ => false
  | .fetch _ => true
  | .write _ => true
  | .wait _ => true
  | .readUnwritten => true
  | .raise _ => true
  | .respond => true

theorem sendByteActs_all (p : Act → Bool) (h : ∀ b, p (.write b) = true) (cfg : Config) (v : Byte) (m : Mode) :
    (sendByteActs cfg v m).all p = true := by
  simp [sendByteActs, h]

theorem sendCommandActs_all (p : Act → Bool) (h : ∀ b, p (.write b) = true) (cfg : Config) (v : Byte) :
    (sendCommandActs cfg v).all p = true := by
  simp [sendCommandActs, h]

theorem cmdSettleActs_all (p : Act → Bool) (h : ∀ b, p (.write b) = true) (h' : ∀ us, p (.wait us) = true)
    (cfg : Config) (v : Byte) : (cmdSettleActs cfg v).all p = true := by
  simp only [cmdSettleActs, List.all_append, sendByteActs_all p h, List.all_cons, h', List.all_nil, Bool.and_true]

theorem charActs_all (p : Act → Bool) (h : ∀ b, p (.write b) = true) (h' : ∀ b, p (.fetch b) = true) (cfg : Config)
    (cs : List Byte) : (cs.flatMap (charActs cfg)).all p = true := by
  induction cs with
  | nil => rfl
  | cons c cs ih =>
    simp only [List.flatMap_cons, List.all_append, charActs, List.all_cons, h', sendByteActs_all p h, Bool.true_and]
    exact ih

theorem sendBytes_all (p : Act → Bool) (h : ∀ b, p (.write b) = true) (cfg : Config) (m : Mode) (vs : List Byte) :
    (vs.flatMap (fun v => sendByteActs cfg v m)).all p = true := by
  induction vs with
  | nil => rfl
  | cons v vs ih => simp only [List.flatMap_cons, List.all_append, sendByteActs_all p h, Bool.true_and]; exact ih

/-- No request but INIT and BACKLIGHT writes a display register (10_state section 2). -/
theorem script_plain (i : Instr) (s : State) (h1 : ∀ c r, i ≠ .init c r) (h2 : ∀ l, i ≠ .backlight l) :
    (scriptOf i s).all Act.plain = true := by
  have hw : ∀ b, Act.plain (.write b) = true := fun _ => rfl
  have hf : ∀ b, Act.plain (.fetch b) = true := fun _ => rfl
  have hs := fun v => cmdSettleActs_all Act.plain hw (fun _ => rfl) s.cfg v
  cases i with
  | init c r => exact absurd rfl (h1 c r)
  | backlight l => exact absurd rfl (h2 l)
  | clear => simp only [scriptOf, clearScript, List.all_append, hs]; rfl
  | home => simp only [scriptOf, homeScript, List.all_append, hs]; rfl
  | entry a b => simp only [scriptOf, entryScript, List.all_append, hs]; rfl
  | dispctl a b c => simp only [scriptOf, dispctlScript, List.all_append, hs]; rfl
  | shift a b => simp only [scriptOf, shiftScript, List.all_append, hs]; rfl
  | goto x y =>
    simp only [scriptOf, gotoScript, gotoBody, List.all_append]
    cases s.rows.read? with
    | none => rfl
    | some r =>
      simp only
      cases clampRow r y with
      | none => rfl
      | some yc => simp only [List.all_append, sendByteActs_all Act.plain hw]; rfl
  | glyph slot p0 p1 p2 p3 p4 p5 p6 p7 =>
    simp only [scriptOf, glyphScript, List.all_append, sendByteActs_all Act.plain hw, sendBytes_all Act.plain hw]
    rfl
  | wrstr cs => simp only [scriptOf, wrstrScript, List.all_append, charActs_all Act.plain hw hf]; rfl
  | sendbyte v m => simp only [scriptOf, sendbyteScript, List.all_append, sendByteActs_all Act.plain hw]; rfl
  | wrraw b => rfl

/-- The bytes a list of actions fetches, in order. -/
def fetches : List Act → List Byte
  | [] => []
  | .fetch b :: rest => b :: fetches rest
  | .install _ _ _ :: rest => fetches rest
  | .setBacklight _ :: rest => fetches rest
  | .setInitState _ :: rest => fetches rest
  | .write _ :: rest => fetches rest
  | .wait _ :: rest => fetches rest
  | .readUnwritten :: rest => fetches rest
  | .raise _ :: rest => fetches rest
  | .respond :: rest => fetches rest

theorem fetches_append (as bs : List Act) : fetches (as ++ bs) = fetches as ++ fetches bs := by
  induction as with
  | nil => rfl
  | cons a as ih => cases a <;> simp [fetches, ih]

theorem fetches_writes (bs : List Byte) : fetches (bs.map .write) = [] := by
  induction bs <;> simp_all [fetches]

theorem fetches_fetches (bs : List Byte) : fetches (bs.map .fetch) = bs := by
  induction bs <;> simp_all [fetches]

theorem fetches_sendByteActs (cfg : Config) (v : Byte) (m : Mode) : fetches (sendByteActs cfg v m) = [] :=
  fetches_writes _

theorem fetches_sendCommandActs (cfg : Config) (v : Byte) : fetches (sendCommandActs cfg v) = [] := fetches_writes _

theorem fetches_sendBytes (cfg : Config) (m : Mode) (vs : List Byte) :
    fetches (vs.flatMap fun v => sendByteActs cfg v m) = [] := by
  induction vs with
  | nil => rfl
  | cons v vs ih => simp [fetches_append, fetches_sendByteActs, ih]

theorem fetches_charActs (cfg : Config) (cs : List Byte) : fetches (cs.flatMap (charActs cfg)) = cs := by
  induction cs with
  | nil => rfl
  | cons c cs ih => simp [fetches_append, charActs, fetches, fetches_sendByteActs, ih]

/-- A request fetches its operand bytes, in order (R62). -/
theorem fetches_script (i : Instr) (s : State) : fetches (scriptOf i s) = operandsOf i := by
  cases i with
  | goto x y =>
    simp only [scriptOf, gotoScript, gotoBody, operandsOf]
    repeat' split
    all_goals simp [fetches, fetches_append, fetches_sendByteActs]
  | wrstr cs => simp [scriptOf, wrstrScript, fetches_append, fetches, operandsOf, fetches_charActs]
  | glyph slot p0 p1 p2 p3 p4 p5 p6 p7 =>
    simp [scriptOf, glyphScript, fetches, fetches_append, fetches_sendByteActs, fetches_sendBytes, operandsOf]
  | _ =>
    simp [scriptOf, initScript, resyncActs, initCommandActs, sendbyteScript, wrrawScript, backlightScript, clearScript,
      homeScript, entryScript, dispctlScript, shiftScript, cmdSettleActs, fetches_sendByteActs,
      fetches_sendCommandActs, fetches, fetches_append, operandsOf]

/-- An incomplete request fetches the operand bytes there are. -/
theorem fetches_incompleteScript (cfg : Config) (op : Byte) (operands : List Byte) :
    fetches (incompleteScript cfg op operands) = operands := by
  unfold incompleteScript
  split
  · exact fetches_charActs _ _
  · exact fetches_fetches _

/-- An incomplete request ends with none of its actions. -/
theorem incompleteScript_within (cfg : Config) (op : Byte) (operands : List Byte) :
    (incompleteScript cfg op operands).all Act.within = true := by
  unfold incompleteScript
  split
  · exact charActs_all _ (fun _ => rfl) (fun _ => rfl) _ _
  · simp [Act.within]

/-- An incomplete request writes no display register. -/
theorem incompleteScript_plain (cfg : Config) (op : Byte) (operands : List Byte) :
    (incompleteScript cfg op operands).all Act.plain = true := by
  unfold incompleteScript
  split
  · exact charActs_all _ (fun _ => rfl) (fun _ => rfl) _ _
  · simp [Act.plain]

/-- The actions of INIT after its operands, its first state and its registers are written. -/
theorem initScript_split (cfg : Config) (c r : Byte) :
    ∃ rest, initScript cfg c r =
        [.fetch c, .fetch r, .setInitState .poweredUnknown, .install c r (backlightMask cfg cfg.initBacklight)]
          ++ rest ++ [.respond] ∧ rest.all Act.within = true := by
  have hw : ∀ b, Act.within (.write b) = true := fun _ => rfl
  refine ⟨[.wait cfg.powerupWaitUs] ++ resyncActs cfg .eightBitFallback1 cfg.resync1WaitUs
    ++ resyncActs cfg .eightBitFallback2 cfg.resync2WaitUs ++ resyncActs cfg .eightBitFallback3 cfg.resync3WaitUs
    ++ initCommandActs cfg homeCommand ++ [.setInitState .fourBitConfirmed]
    ++ initCommandActs cfg (functionSetCommand false true false) ++ [.setInitState .functionSet]
    ++ initCommandActs cfg (displayCommand true false false) ++ [.setInitState .displayConfigured]
    ++ initCommandActs cfg clearCommand ++ initCommandActs cfg (entryCommand true false)
    ++ [.setInitState .entryModeSet, .setInitState .ready], ?_, ?_⟩
  · simp [initScript]
  · simp only [resyncActs, initCommandActs, List.all_append, List.all_cons, List.all_nil,
      sendByteActs_all Act.within hw, sendCommandActs_all Act.within hw, Act.within, Bool.and_self]

/-- A request's actions are some that go on and one that ends it: Respond, or a GOTO's RowTableOverrun, or a GOTO's read
of ROWS while it is unwritten. -/
theorem script_shape (i : Instr) (s : State) :
    ∃ body z, scriptOf i s = body ++ [z] ∧ body.all Act.within = true ∧
      (z = .respond ∨
       (∃ x y, i = .goto x y ∧ body = [.fetch x, .fetch y] ∧ z = .raise .rowTableOverrun) ∨
       (∃ x y, i = .goto x y ∧ s.rows.written = false ∧ z = .readUnwritten)) := by
  have hw : ∀ b, Act.within (.write b) = true := fun _ => rfl
  have hs := fun v => cmdSettleActs_all Act.within hw (fun _ => rfl) s.cfg v
  cases i with
  | goto x y =>
    simp only [scriptOf, gotoScript, gotoBody, DisplayReg.read?]
    cases hr : s.rows.written with
    | false => exact ⟨[.fetch x, .fetch y], .readUnwritten, rfl, rfl, .inr (.inr ⟨x, y, rfl, rfl, rfl⟩)⟩
    | true =>
      simp only [if_true]
      cases clampRow s.rows.value y with
      | none => exact ⟨[.fetch x, .fetch y], _, rfl, rfl, .inr (.inl ⟨x, y, rfl, rfl, rfl⟩)⟩
      | some yc =>
        refine ⟨[.fetch x, .fetch y] ++ sendByteActs s.cfg (ddramCommand (cursorAddress s.cfg x yc)) .command, .respond,
          by simp, ?_, .inl rfl⟩
        simp only [List.all_append, sendByteActs_all Act.within hw]
        rfl
  | init c r =>
    obtain ⟨rest, he, hr⟩ := initScript_split s.cfg c r
    refine ⟨_, .respond, he, ?_, .inl rfl⟩
    rw [List.all_append, hr]
    rfl
  | glyph slot p0 p1 p2 p3 p4 p5 p6 p7 =>
    refine ⟨_, .respond, rfl, ?_, .inl rfl⟩
    simp only [List.all_append, sendByteActs_all Act.within hw, sendBytes_all Act.within hw]
    rfl
  | wrstr cs =>
    refine ⟨cs.flatMap (charActs s.cfg) ++ [.fetch 0], .respond, by simp [scriptOf, wrstrScript], ?_, .inl rfl⟩
    simp only [List.all_append, charActs_all Act.within hw (fun _ => rfl)]
    rfl
  | wrraw b => exact ⟨[.fetch b, .write b], .respond, rfl, rfl, .inl rfl⟩
  | backlight l => exact ⟨[.setBacklight _, .write 0], .respond, rfl, rfl, .inl rfl⟩
  | sendbyte v m =>
    refine ⟨_, .respond, rfl, ?_, .inl rfl⟩
    simp only [List.all_append, sendByteActs_all Act.within hw]
    rfl
  | clear => exact ⟨_, .respond, rfl, hs _, .inl rfl⟩
  | home => exact ⟨_, .respond, rfl, hs _, .inl rfl⟩
  | entry a b => exact ⟨_, .respond, rfl, hs _, .inl rfl⟩
  | dispctl a b c => exact ⟨_, .respond, rfl, hs _, .inl rfl⟩
  | shift a b => exact ⟨_, .respond, rfl, hs _, .inl rfl⟩

/-- The actions of a request depend on the parameters, and GOTO's on ROWS. -/
theorem scriptOf_congr (i : Instr) {s t : State} (hc : t.cfg = s.cfg)
    (hr : opField (opcodeOf i) = 0x7 → t.rows = s.rows) : scriptOf i t = scriptOf i s := by
  cases i with
  | goto x y => simp only [scriptOf, hc, hr (by exact (by decide : opField 0x70 = 0x7))]
  | _ => simp only [scriptOf, hc]

/-! ### What no action changes -/

theorem runAct_goesOn_const {a : Act} {s t : State} (h : runAct a s = .goesOn t) :
    t.cfg = s.cfg ∧ t.resetInput = s.resetInput ∧ t.stream = s.stream ∧ s.trace <+: t.trace ∧ t.fault = s.fault ∧
      t.cause = s.cause := by
  rcases runAct_goesOn h with ⟨b, rfl, rfl⟩ | ⟨c, r, m, rfl, rfl⟩ | ⟨m, rfl, rfl⟩ | ⟨i, rfl, rfl⟩ |
    ⟨b, ack, t, rfl, -, -, rfl⟩ | ⟨u, rfl, rfl⟩ | ⟨rfl, rfl⟩ <;> simp

/-- A plain action that goes on changes no display register. -/
theorem runAct_plain_const {a : Act} {s t : State} (hp : a.plain = true) (h : runAct a s = .goesOn t) :
    t.cols = s.cols ∧ t.rows = s.rows ∧ t.blmask = s.blmask ∧ t.initState = s.initState := by
  rcases runAct_goesOn h with ⟨b, rfl, rfl⟩ | ⟨c, r, m, rfl, rfl⟩ | ⟨m, rfl, rfl⟩ | ⟨i, rfl, rfl⟩ |
    ⟨b, ack, t, rfl, -, -, rfl⟩ | ⟨u, rfl, rfl⟩ | ⟨rfl, rfl⟩ <;> simp_all [Act.plain]

theorem GoesOn.const {as : List Act} {s t : State} (h : GoesOn as s t) :
    t.cfg = s.cfg ∧ t.resetInput = s.resetInput ∧ t.stream = s.stream ∧ s.trace <+: t.trace ∧ t.fault = s.fault ∧
      t.cause = s.cause := by
  refine h.keeps (P := fun x => x.cfg = s.cfg ∧ x.resetInput = s.resetInput ∧ x.stream = s.stream ∧
    s.trace <+: x.trace ∧ x.fault = s.fault ∧ x.cause = s.cause) (fun a _ x y ha hp => ?_) (by simp)
  obtain ⟨h1, h2, h3, h4, h5, h6⟩ := runAct_goesOn_const ha
  exact ⟨h1.trans hp.1, h2.trans hp.2.1, h3.trans hp.2.2.1, hp.2.2.2.1.trans h4, h5.trans hp.2.2.2.2.1,
    h6.trans hp.2.2.2.2.2⟩

/-- REQPC moves by the bytes fetched. -/
theorem GoesOn.reqpc {as : List Act} {s t : State} (h : GoesOn as s t) : t.reqpc = s.reqpc + (fetches as).length := by
  induction h with
  | nil => rfl
  | cons ha _ ih =>
    rcases runAct_goesOn ha with ⟨b, rfl, rfl⟩ | ⟨c, r, m, rfl, rfl⟩ | ⟨m, rfl, rfl⟩ | ⟨i, rfl, rfl⟩ |
      ⟨b, ack, t, rfl, -, -, rfl⟩ | ⟨u, rfl, rfl⟩ | ⟨rfl, rfl⟩ <;> simp [fetches, ih]
    omega

/-- Actions that end nothing leave the request in progress, its operands, its place and the index of its next event moved
on. -/
theorem GoesOn.request {as : List Act} {s t : State} {r : Progress} (h : GoesOn as s t)
    (hn : as.all Act.within = true) (hr : s.request = some r) :
    t.busy = s.busy ∧ ∃ n, t.trace.length = s.trace.length + n ∧
      t.request = some ⟨r.opcode, r.operands ++ fetches as, r.event + n, r.next + as.length, r.outstanding⟩ := by
  induction h generalizing r with
  | nil => exact ⟨rfl, 0, rfl, by simp [fetches, hr]⟩
  | cons ha _ ih =>
    rw [List.all_cons, Bool.and_eq_true] at hn
    rcases runAct_goesOn ha with ⟨b, rfl, rfl⟩ | ⟨c, x, m, rfl, rfl⟩ | ⟨m, rfl, rfl⟩ | ⟨i, rfl, rfl⟩ |
      ⟨b, ack, t, rfl, -, -, rfl⟩ | ⟨u, rfl, rfl⟩ | ⟨rfl, rfl⟩
    case inr.inr.inr.inr.inr.inr => simp [Act.within] at hn
    case inl =>
      obtain ⟨e1, n, e2, e3⟩ := ih (r := ⟨r.opcode, r.operands ++ [b], r.event, r.next + 1, r.outstanding⟩) hn.2 (by simp [hr])
      exact ⟨e1, n, e2, by simpa [fetches, Nat.add_assoc, Nat.add_comm 1] using e3⟩
    case inr.inr.inr.inr.inl =>
      obtain ⟨e1, n, e2, e3⟩ := ih (r := ⟨r.opcode, r.operands, r.event + (loggedWrite b ack).length, r.next + 1, r.outstanding⟩) hn.2
        (by cases ack <;> simp [hr, loggedWrite])
      exact ⟨by simpa using e1, (loggedWrite b ack).length + n, by cases ack <;> simpa [Nat.add_assoc, loggedWrite] using e2,
        by simpa [fetches, Nat.add_assoc, Nat.add_comm 1] using e3⟩
    case inr.inr.inr.inr.inr.inl =>
      obtain ⟨e1, n, e2, e3⟩ := ih (r := ⟨r.opcode, r.operands, r.event + (waitEvents u).length, r.next + 1, r.outstanding⟩) hn.2
        (by simp [hr])
      exact ⟨by simpa using e1, (waitEvents u).length + n, by simpa [Nat.add_assoc] using e2,
        by simpa [fetches, Nat.add_assoc, Nat.add_comm 1] using e3⟩
    all_goals
      obtain ⟨e1, n, e2, e3⟩ := ih (r := ⟨r.opcode, r.operands, r.event, r.next + 1, r.outstanding⟩) hn.2 (by simp [hr])
      exact ⟨e1, n, e2, by simpa [fetches, Nat.add_assoc, Nat.add_comm 1] using e3⟩

/-- Actions leave the log event that is due: none, where none was (R81). -/
theorem GoesOn.logDue {as : List Act} {s t : State} (h : GoesOn as s t) (hs : s.logDue = none) : t.logDue = none := by
  refine h.keeps (P := fun x => x.logDue = none) (fun a _ x y ha hp => ?_) hs
  rcases runAct_goesOn ha with ⟨b, rfl, rfl⟩ | ⟨c, r, m, rfl, rfl⟩ | ⟨m, rfl, rfl⟩ | ⟨i, rfl, rfl⟩ |
    ⟨b, ack, t, rfl, -, -, rfl⟩ | ⟨u, rfl, rfl⟩ | ⟨rfl, rfl⟩ <;> simp [hp]

/-- A property that neither an action that goes on nor a raise breaks holds wherever the actions answer. -/
theorem runActs_keeps {P : State → Prop} {as : List Act} {s t : State} (h : runActs as s = .next t)
    (hk : ∀ a ∈ as, ∀ x y, runAct a x = .goesOn y → P x → P y) (hr : ∀ c, .raise c ∈ as → ∀ x, P x → P (x.raised c))
    (hb : ∀ w x, P x → P (x.stalled w)) (hs : P s) : P t := by
  obtain ⟨done, rest, mid, rfl, hg, he⟩ := runActs_next h
  have hm : P mid := hg.keeps (fun a ha => hk a (List.mem_append_left _ ha)) hs
  rcases he with ⟨rfl, rfl⟩ | ⟨b, r, rfl, -, -, rfl⟩ | ⟨c, r, rfl, rfl⟩
  · exact hm
  · exact hb _ _ hm
  · exact hr c (by simp) _ hm

theorem exec_keeps {P : State → Prop} {i : Instr} {s t : State} (h : exec i s = .next t)
    (hk : ∀ a ∈ scriptOf i s, ∀ x y, runAct a x = .goesOn y → P x → P y) (hr : ∀ c x, P x → P (x.raised c))
    (hb : ∀ w x, P x → P (x.stalled w)) (hs : P (s.started (opcodeOf i))) : P t := by
  rw [exec_begin] at h
  unfold beginRequest at h
  split at h
  · simp only [Host.Outcome.next.injEq] at h
    exact h ▸ hr _ _ hs
  · exact runActs_keeps h hk (fun c _ => hr c) hb hs

/-! ### The ways a request ends -/

/-- A list's last entry stands in what is left of it, if anything is. -/
theorem append_last_split {α : Type} {body done rest : List α} {z : α} (h : body ++ [z] = done ++ rest) :
    (rest = [] ∧ done = body ++ [z]) ∨ (∃ r, rest = r ++ [z] ∧ body = done ++ r) := by
  rcases List.eq_nil_or_concat rest with rfl | ⟨r, y, rfl⟩
  · exact .inl ⟨rfl, by simpa using h.symm⟩
  · rw [List.concat_eq_append, ← List.append_assoc] at h
    obtain ⟨h1, h2⟩ := List.append_inj' h rfl
    have : z = y := by simpa using h2
    subst this
    exact .inr ⟨r, by simp, h1⟩

theorem GoesOn.of_append {as bs : List Act} {s t : State} (h : GoesOn (as ++ bs) s t) :
    ∃ m, GoesOn as s m ∧ GoesOn bs m t := by
  induction as generalizing s with
  | nil => exact ⟨s, .nil s, h⟩
  | cons a as ih =>
    cases h with
    | cons ha hr =>
      obtain ⟨m, h1, h2⟩ := ih hr
      exact ⟨m, .cons ha h1, h2⟩

/-- Running actions that go on and then one that ends: it responds, it raises, or a write before it is not answered. -/
theorem runActs_ends {body : List Act} {z : Act} {s t : State} (h : runActs (body ++ [z]) s = .next t)
    (hn : body.all Act.within = true) (hz : z.within = false) :
    (z = .respond ∧ ∃ m, GoesOn body s m ∧ t = m.responded) ∨
    (∃ c m, z = .raise c ∧ GoesOn body s m ∧ t = m.raised c) ∨
    (∃ done b r m, body = done ++ .write b :: r ∧ GoesOn done s m ∧ m.blmask.written = true ∧
      m.transport.next? = none ∧ t = m.stalled (busWrite m.cfg (b ||| m.blmask.value))) := by
  have hn' : ∀ a ∈ body, a.within = true := fun a ha => List.all_eq_true.mp hn a ha
  obtain ⟨done, rest, mid, he, hg, hh⟩ := runActs_next h
  rcases hh with ⟨rfl, rfl⟩ | ⟨b, r, rfl, hw, hb, rfl⟩ | ⟨c, r, rfl, rfl⟩
  · rw [List.append_nil] at he
    subst he
    obtain ⟨m, h1, h2⟩ := hg.of_append
    cases h2 with
    | cons ha hr =>
      cases hr
      cases z with
      | respond => exact .inl ⟨rfl, m, h1, (ActResult.goesOn.inj ha).symm⟩
      | raise c => simp [runAct] at ha
      | readUnwritten => simp [runAct] at ha
      | _ => simp [Act.within] at hz
  · rcases append_last_split he with ⟨h', -⟩ | ⟨r', h1, h2⟩
    · simp at h'
    · cases r' with
      | nil =>
        simp only [List.nil_append, List.cons.injEq] at h1
        obtain ⟨rfl, -⟩ := h1
        simp [Act.within] at hz
      | cons x r' =>
        simp only [List.cons_append, List.cons.injEq] at h1
        obtain ⟨rfl, -⟩ := h1
        exact .inr (.inr ⟨done, b, r', mid, h2, hg, hw, hb, rfl⟩)
  · rcases append_last_split he with ⟨h', -⟩ | ⟨r', h1, h2⟩
    · simp at h'
    · cases r' with
      | nil =>
        simp only [List.nil_append, List.cons.injEq] at h1
        rw [List.append_nil] at h2
        exact .inr (.inl ⟨c, mid, h1.1.symm, h2 ▸ hg, rfl⟩)
      | cons x r' =>
        simp only [List.cons_append, List.cons.injEq] at h1
        obtain ⟨rfl, -⟩ := h1
        have := hn' (.raise c) (by rw [h2]; simp)
        simp [Act.within] at this

/-- Everything a request can do when it answers a next state: NotReady; a GOTO's RowTableOverrun; its actions and then
the response; or a write the Transport does not answer. -/
theorem exec_ways {i : Instr} {s t : State} (h : exec i s = .next t) :
    (needsReady (opcodeOf i) = true ∧ s.ready = false ∧ t = (s.started (opcodeOf i)).raised .notReady) ∨
    ((needsReady (opcodeOf i) = false ∨ s.ready = true) ∧
      ∃ body z, scriptOf i s = body ++ [z] ∧ body.all Act.within = true ∧
        ((z = .respond ∧ ∃ m, GoesOn body (s.started (opcodeOf i)) m ∧ t = m.responded) ∨
         (∃ x y, i = .goto x y ∧ z = .raise .rowTableOverrun ∧
           t = (((s.started (opcodeOf i)).fetched x).fetched y).raised .rowTableOverrun) ∨
         (∃ done b r m, body = done ++ .write b :: r ∧ GoesOn done (s.started (opcodeOf i)) m ∧
           m.blmask.written = true ∧ m.transport.next? = none ∧ m.busy = true ∧
           t = m.stalled (busWrite m.cfg (b ||| m.blmask.value))))) := by
  rw [exec_begin] at h
  obtain ⟨body, z, hs, hl, hz⟩ := script_shape i s
  unfold beginRequest at h
  split at h
  · next hc =>
    simp only [Bool.and_eq_true, Bool.not_eq_true'] at hc
    simp only [Host.Outcome.next.injEq] at h
    exact .inl ⟨hc.1, hc.2, h.symm⟩
  · next hc =>
    have hready : needsReady (opcodeOf i) = false ∨ s.ready = true := by
      cases hr : s.ready with
      | true => exact .inr rfl
      | false => exact .inl (by simpa [hr] using hc)
    refine .inr ⟨hready, body, z, hs, hl, ?_⟩
    rw [hs] at h
    have hze : z.within = false := by
      rcases hz with rfl | ⟨-, -, -, -, rfl⟩ | ⟨-, -, -, -, rfl⟩ <;> rfl
    rcases runActs_ends h hl hze with h' | ⟨c, m, hc', hg, rfl⟩ | ⟨done, b, r, m, rfl, hg, hw, hb, rfl⟩
    · exact .inl h'
    · rcases hz with hz | ⟨x, y, rfl, rfl, hz⟩ | ⟨-, -, -, -, hz⟩
      · simp [hz] at hc'
      · have : c = .rowTableOverrun := by
          rw [hz] at hc'
          simpa using hc'.symm
        subst this
        cases hg with
        | cons h1 h2 =>
          cases h2 with
          | cons h2 h3 =>
            cases h3
            simp only [runAct, ActResult.goesOn.injEq] at h1 h2
            subst h1
            subst h2
            exact .inr (.inl ⟨x, y, rfl, hz, rfl⟩)
      · simp [hz] at hc'
    · rw [List.all_append, Bool.and_eq_true] at hl
      exact .inr (.inr ⟨done, b, r, m, rfl, hg, hw, hb, ((hg.request hl.1 rfl).1).trans rfl, rfl⟩)

/-! ### The request stream -/

/-- The outcome with another request stream. -/
def withStream (m : Memory) : Result → Result
  | .next s => .next { s with stream := m }
  | .fault f => .fault f
  | .refused r => .refused r

/-- Running actions does not look at the request stream. -/
theorem runActs_withStream (as : List Act) (s : State) (m : Memory) :
    runActs as { s with stream := m } = withStream m (runActs as s) := by
  induction as generalizing s with
  | nil => rfl
  | cons a as ih =>
    simp only [runActs]
    cases a with
    | write b =>
      rw [runAct_write, runAct_write]
      have hl : ∀ (b' : Byte) (ack : Bool) (u : Transport), State.wrote b' ack u { s with stream := m } =
          { s.wrote b' ack u with stream := m } := fun _ ack _ => by cases ack <;> rfl
      simp only [hl]
      cases s.blmask.written with
      | false => rfl
      | true =>
        cases s.transport.next? with
        | none => rfl
        | some p => exact ih _
    | fetch b => exact ih (s.fetched b)
    | install c r m' => exact ih (s.installed c r m')
    | setBacklight m' => exact ih (s.backlightSet m')
    | setInitState i => exact ih (s.initStateSet i)
    | wait u => exact ih (s.waited u)
    | respond => exact ih s.responded
    | readUnwritten => rfl
    | raise c => rfl

theorem beginRequest_withStream (op : Byte) (as : List Act) (s : State) (m : Memory) :
    beginRequest op as { s with stream := m } = withStream m (beginRequest op as s) := by
  unfold beginRequest
  have : ({ s with stream := m } : State).ready = s.ready := rfl
  rw [this]
  split
  · rfl
  · exact runActs_withStream as (s.started op) m

/-! ### The writes and waits of a request -/

theorem sendByteActs_items (cfg : Config) (v : Byte) (m : Mode) :
    sendByteActs cfg v m = (sendByteItems cfg v m).map BusItem.toAct := by
  simp [sendByteActs, sendByteItems, map_write_toAct]

theorem sendCommandActs_items (cfg : Config) (v : Byte) :
    sendCommandActs cfg v = (sendCommandItems cfg v).map BusItem.toAct := by
  simp [sendCommandActs, sendCommandItems, map_write_toAct]

theorem cmdSettleActs_items (cfg : Config) (c : Byte) :
    cmdSettleActs cfg c = (sendByteItems cfg c .command ++ [BusItem.wait cfg.cmdSettleUs]).map BusItem.toAct := by
  simp [cmdSettleActs, sendByteActs_items, BusItem.toAct]

@[simp] theorem writeCount_sendByteItems (cfg : Config) (v : Byte) (m : Mode) :
    writeCount (sendByteItems cfg v m) = 8 := by
  simp [sendByteItems, sendByteBytes, nibbleBytes, writeCount]

@[simp] theorem writeCount_sendCommandItems (cfg : Config) (v : Byte) : writeCount (sendCommandItems cfg v) = 3 := by
  simp [sendCommandItems, sendCommandBytes, writeCount]

@[simp] theorem writeCount_wait (us : Nat) : writeCount [BusItem.wait us] = 0 := rfl

/-- Fetching operand bytes. -/
theorem goesOn_fetches (bs : List Byte) (s : State) :
    GoesOn (bs.map .fetch) s
      { s with
        reqpc := s.reqpc + bs.length
        request := s.request.map fun r => { r with operands := r.operands ++ bs, next := r.next + bs.length } } := by
  induction bs generalizing s with
  | nil =>
    have : ({ s with reqpc := s.reqpc + ([] : List Byte).length, request := s.request.map fun r =>
        { r with operands := r.operands ++ [], next := r.next + ([] : List Byte).length } } : State) = s := by
      apply State.ext <;> simp
    rw [List.map_nil, this]
    exact .nil s
  | cons b bs ih =>
    refine .cons (s' := s.fetched b) rfl ?_
    have := ih (s.fetched b)
    cases hr : s.request <;>
      simpa [State.fetched, hr, Nat.add_assoc, Nat.add_comm 1] using this

/-- A request of `1 + operands.length` bytes that fetches its operands, puts its items on the bus and responds. -/
theorem begin_items (s : State) (op : Byte) (operands : List Byte) (items : List BusItem) (h : s.canWrite = true)
    (ha : s.transport.answers (writeCount items) = true) :
    beginRequest op (operands.map .fetch ++ (items.map BusItem.toAct ++ [.respond])) s =
      .next (s.afterRequest (1 + operands.length) s.blmask.value items) := by
  simp only [State.canWrite, Bool.and_eq_true] at h
  rw [beginRequest_runs (.inr h.1), (goesOn_fetches operands _).runActs_append]
  have hb := goesOn_bus items { s.started op with
    reqpc := s.reqpc + 1 + operands.length, request := some ⟨op, operands, 0, operands.length, none⟩ } h.2 rfl ha
  have he : ({ s.started op with
      reqpc := (s.started op).reqpc + operands.length
      request := (s.started op).request.map fun r =>
        { r with operands := r.operands ++ operands, next := r.next + operands.length } } : State) =
      { s.started op with
        reqpc := s.reqpc + 1 + operands.length, request := some ⟨op, operands, 0, operands.length, none⟩ } := by
    apply State.ext <;> simp
  rw [he, hb.runActs_append]
  simp [runActs, runAct, State.responded, State.afterBus, State.afterRequest, State.started, responseByte,
    Nat.add_assoc]

/-! ### What stands in the trace -/

@[simp] theorem writtenBytes_append (a b : List Event) : writtenBytes (a ++ b) = writtenBytes a ++ writtenBytes b := by
  induction a with
  | nil => rfl
  | cons e a ih => cases e <;> simp [writtenBytes, ih]

@[simp] theorem totalWait_append (a b : List Event) : totalWait (a ++ b) = totalWait a + totalWait b := by
  induction a with
  | nil => simp [totalWait]
  | cons e a ih => cases e <;> simp [totalWait, ih]; omega

@[simp] theorem writtenBytes_loggedWrite (b : Byte) (ack : Bool) : writtenBytes (loggedWrite b ack) = [b] := by
  cases ack <;> simp [loggedWrite, writtenBytes]

@[simp] theorem totalWait_loggedWrite (b : Byte) (ack : Bool) : totalWait (loggedWrite b ack) = 0 := by
  cases ack <;> simp [loggedWrite, totalWait]

@[simp] theorem writtenBytes_waitEvents (us : Nat) : writtenBytes (waitEvents us) = [] := by
  unfold waitEvents
  split <;> rfl

@[simp] theorem totalWait_waitEvents (us : Nat) : totalWait (waitEvents us) = us := by
  unfold waitEvents
  split
  · next h => simp [totalWait, h]
  · simp [totalWait]

end Sys2Proof.Machine
end

