-- ==== Sys2Proof/Tests/Slice0.lean ====
section
/-! SUPPORT. Tests: an ill-formed request, a word of each request written out from 30_encoding R61, one or two steps of
each request against 95_test_vectors, and for each obligation with hypotheses a state and operands that meet them. -/

namespace Sys2Proof.Tests

open Sys2Proof Sys2Proof.Machine

/-- "Ready20x4" of 95_test_vectors: after `INIT 20, 4` with every write acknowledged. -/
def ready20x4 : State :=
  { State.reset with cols := ⟨20, true⟩, rows := ⟨4, true⟩, blmask := ⟨0x08, true⟩, initState := .ready }

/-- A state with these bytes supplied from REQPC on. -/
def fed (bs : List Byte) (s : State) : State := s.supply s.reqpc bs

/-- A state whose next writes are answered so, and every later one never. -/
def answering (as : List Answer) (s : State) : State := { s with transport := { script := as, afterwards := .never } }

/-- The state of an outcome that has one. -/
def after : Result → State
  | .next s => s
  | .fault _ => State.reset
  | .refused _ => State.reset

/-- The outcome is a next state: `r = .next (after r)` (`isNext_iff`). -/
def isNext : Result → Bool
  | .next _ => true
  | .fault _ => false
  | .refused _ => false

theorem isNext_iff (r : Result) : isNext r = true ↔ r = .next (after r) := by
  cases r <;> simp [isNext, after]

/-- The bytes of the writes of an outcome, in order. -/
def writes (r : Result) : List Byte := writtenBytes (after r).trace

/-- STATUS and REQPC of an outcome. -/
def statusAndPc (r : Result) : Byte × Nat := ((after r).status, (after r).reqpc)

/-! ### WellFormed -/

/-- A WRSTR holds no 0x00 character (R72); any other operand is legal (R69). -/
theorem test_wellFormed_wrstr_zero : (Instr.wrstr [0x41, 0x00]).wellFormed = false := by decide
theorem test_wellFormed_wrstr : (Instr.wrstr [0x41, 0xFF]).wellFormed = true := by decide

/-! ### Words from the encoding table of R61, bit by bit -/

theorem test_decode_init : decode [0b00010000, 0x14, 0x04] = .request (.init 0x14 0x04) [] := by decide
theorem test_decode_clear : decode [0b00100000, 0x55] = .request .clear [0x55] := by decide
theorem test_decode_home : decode [0b00110000] = .request .home [] := by decide
theorem test_decode_entry : decode [0b01000010] = .request (.entry true false) [] := by decide
theorem test_decode_dispctl : decode [0b01010001] = .request (.dispctl false false true) [] := by decide
theorem test_decode_shift : decode [0b01100001] = .request (.shift false true) [] := by decide
theorem test_decode_goto : decode [0b01110000, 0x05, 0x01] = .request (.goto 0x05 0x01) [] := by decide
theorem test_decode_glyph : decode [0b10000000, 0x01, 0x1F, 0x11, 0x12, 0x13, 0x14, 0x15, 0x16, 0x00] =
    .request (.glyph 0x01 0x1F 0x11 0x12 0x13 0x14 0x15 0x16 0x00) [] := by decide
theorem test_decode_backlight : decode [0b10010001] = .request (.backlight true) [] := by decide
theorem test_decode_wrstr : decode [0b10100000, 0x48, 0x69, 0x00, 0x20] = .request (.wrstr [0x48, 0x69]) [0x20] := by
  decide
theorem test_decode_sendbyte : decode [0b10110001, 0x41] = .request (.sendbyte 0x41 .data) [] := by decide
theorem test_decode_wrraw : decode [0b11000000, 0x04] = .request (.wrraw 0x04) [] := by decide

/-- V5 (44): ENTRY with F[2] set is illegal. V1.7 (B2): SENDBYTE with F[1] set. -/
theorem test_decode_reserved : decode [0x44, 0x00] = .illegal 0x44 ∧ decode [0xB2, 0x00] = .illegal 0xB2 := by decide

/-- A table word: the first byte is bits 7:0, and operand words of zeros above the row's bits. -/
theorem test_decodeTableWord : decodeTableWord 24 0x041410 = some (.init 0x14 0x04) ∧
    decodeTableWord 8 0xA0 = some (.wrstr []) ∧ decodeTableWord 8 0xD0 = none := by decide

/-- The step runs the word placed where it fetches: a request before INIT raises NotReady (V1.16). -/
theorem test_withFetchWord : statusAndPc (step (State.reset.withFetchWord 16 0x00C0)) = (0x24, 1) := by decide

/-! ### Steps, against 95_test_vectors -/

/-- S7: INIT's end state. -/
theorem test_init_end : statusAndPc (exec (.init 20 4) State.reset) = (0x02, 3) := by decide
/-- S7: INIT's first writes, and the wait total. -/
theorem test_init_writes :
    (writes (exec (.init 20 4) State.reset)).take 17 = [0x38, 0x3C, 0x38, 0x38, 0x3C, 0x38, 0x38, 0x3C, 0x38,
      0x08, 0x0C, 0x08, 0x0A, 0x28, 0x2C, 0x28, 0x0A] ∧
    totalWait (after (exec (.init 20 4) State.reset)).trace = 215100 := by decide
/-- V2.1. -/
theorem test_clear : (after (exec .clear ready20x4)).trace =
    ([0x08, 0x0C, 0x08, 0x0A, 0x18, 0x1C, 0x18, 0x0A] : List Byte).map (fun b => .w b true) ++ [.t 2000, .resp 0x00] := by
  decide
/-- V2.2. -/
theorem test_home : writes (exec .home ready20x4) = [0x08, 0x0C, 0x08, 0x0A, 0x28, 0x2C, 0x28, 0x0A] := by decide
/-- V2.4. -/
theorem test_entry : writes (exec (.entry false true) ready20x4) = [0x08, 0x0C, 0x08, 0x0A, 0x58, 0x5C, 0x58, 0x0A] := by
  decide
/-- V2.8. -/
theorem test_dispctl :
    writes (exec (.dispctl false false true) ready20x4) = [0x08, 0x0C, 0x08, 0x0A, 0x98, 0x9C, 0x98, 0x0A] := by decide
/-- R118: SHIFT 1, 0 sends 0x18. -/
theorem test_shift : writes (exec (.shift true false) ready20x4) = [0x18, 0x1C, 0x18, 0x0A, 0x88, 0x8C, 0x88, 0x0A] := by
  decide
/-- S2: GOTO 19, 3. -/
theorem test_goto : writes (exec (.goto 19 3) ready20x4) = [0xE8, 0xEC, 0xE8, 0x0A, 0x78, 0x7C, 0x78, 0x0A] := by decide
/-- S2: with ROWS = 2, GOTO 7, 255 goes to row 1. -/
theorem test_goto_clamp : writes (exec (.goto 7 255) { ready20x4 with rows := ⟨2, true⟩ }) =
    [0xC8, 0xCC, 0xC8, 0x0A, 0x78, 0x7C, 0x78, 0x0A] := by decide
set_option maxRecDepth 2000 in
/-- S3: slot 255 programs CGRAM address 0x38; a pattern byte 0xFF is sent verbatim. -/
theorem test_glyph : (writes (exec (.glyph 255 0xFF 0 0 0 0 0 0 0) ready20x4)).take 16 =
    [0x78, 0x7C, 0x78, 0x0A, 0x88, 0x8C, 0x88, 0x0A, 0xF9, 0xFD, 0xF9, 0x0A, 0xF9, 0xFD, 0xF9, 0x0A] := by decide
/-- R120: BACKLIGHT 0 writes 00. -/
theorem test_backlight : writes (exec (.backlight false) ready20x4) = [0x00] ∧
    (after (exec (.backlight false) ready20x4)).blmask = ⟨0x00, true⟩ := by decide
/-- R150: WRSTR "Hi". -/
theorem test_wrstr : writes (exec (.wrstr [0x48, 0x69]) ready20x4) =
    [0x49, 0x4D, 0x49, 0x0A, 0x89, 0x8D, 0x89, 0x0A, 0x69, 0x6D, 0x69, 0x0A, 0x99, 0x9D, 0x99, 0x0A] := by decide
/-- V1.5: the second of SENDBYTE's writes fails. -/
theorem test_sendbyte_failure :
    ((after (exec (.sendbyte 0x41 .data) (answering (.success :: .failure :: List.replicate 6 .success) ready20x4))).trace).take
      4 = [.w 0x49 true, .w 0x4D false, .l 0x4D, .w 0x49 true] ∧
    ((after (exec (.sendbyte 0x41 .data)
      (answering (.success :: .failure :: List.replicate 6 .success) ready20x4))).trace).getLast? = some (.resp 0xFF) := by
  decide
/-- V1.12: with BLMASK = 0, WRRAW 0x08 writes 08 and BLMASK stays 0x00. -/
theorem test_wrraw : writes (exec (.wrraw 0x08) { ready20x4 with blmask := ⟨0x00, true⟩ }) = [0x08] ∧
    (after (exec (.wrraw 0x08) { ready20x4 with blmask := ⟨0x00, true⟩ })).blmask = ⟨0x00, true⟩ := by decide
/-- V1.9: the write fails. -/
theorem test_wrraw_failure : (after (exec (.wrraw 0x04) (answering [.failure] ready20x4))).trace =
    [.w 0x0C false, .l 0x0C, .resp 0xFF] := by decide

/-! ### The faults, against 95_test_vectors and 60_exceptions -/

/-- IllegalRequest before INIT: STATUS 0x14; NotReady is not checked (R168). -/
theorem test_illegal_before_init : statusAndPc (step (fed [0xD0, 0x00] State.reset)) = (0x14, 1) := by decide
/-- RowTableOverrun: STATUS 0x36, REQPC one past the request (R164). -/
theorem test_row_table_overrun :
    statusAndPc (exec (.goto 0 0) { ready20x4 with rows := ⟨0, true⟩ }) = (0x36, 3) := by decide
/-- Mid-request reset leaves STATUS 0x00 (R191). -/
theorem test_reset_mid_request :
    statusAndPc (step (after (step (fed [0x10] State.reset))).assertReset) = (0x00, 0) := by decide

/-- A reset while a write is not answered: it emits nothing, and the INIT after it takes the next answer (log 21). -/
theorem test_reset_stalled :
    let s := after (step (fed [0x20] (answering (.never :: List.replicate 49 .success) ready20x4)))
    let r := after (step s.assertReset)
    s.busy = true ∧ after (step s) = s ∧ r.trace = [] ∧ r.outstanding = none ∧ s.outstanding = some ⟨0x27, [0x08], 1, true⟩ ∧
    statusAndPc (step (fed [0x10, 20, 4] r)) = (0x02, 3) := by decide

/-! ### Witnesses: a state and operands that meet each obligation's hypotheses -/

theorem witness_DecodeOfEncode : (Instr.wrstr [0x48, 0x69]).wellFormed = true := by decide
theorem witness_EncodeOfDecode : decode [0xA0, 0x48, 0x00, 0x20] = .request (.wrstr [0x48]) [0x20] := by decide
theorem witness_IllegalEncodingsRaise : (fed [0x44, 0x00] ready20x4).accepting = true ∧
    (fed [0x44, 0x00] ready20x4).available = [0x44, 0x00] ∧ legalOpcode 0x44 = false := by decide
theorem witness_StepRunsDecodedRequest : (fed [0x20, 0x30] ready20x4).accepting = true ∧
    decode (fed [0x20, 0x30] ready20x4).available = .request .clear [0x30] := by decide

/-- An illegal byte; a legal one before INIT; an INIT before INIT; a GOTO that raises. -/
theorem witness_FaultPriority :
    ((fed [0x44] State.reset).accepting = true ∧ (fed [0x44] State.reset).available = [0x44] ∧
      legalOpcode 0x44 = false) ∧
    ((fed [0x20] State.reset).accepting = true ∧ (fed [0x20] State.reset).available = [0x20] ∧
      legalOpcode 0x20 = true ∧ needsReady 0x20 = true ∧ (fed [0x20] State.reset).ready = false) ∧
    (legalOpcode 0x10 = true ∧ needsReady 0x10 = false) ∧
    (let s := fed [0x70, 0, 4] { ready20x4 with rows := ⟨5, true⟩ }
     s.accepting = true ∧ s.available = [0x70, 0, 4] ∧ legalOpcode 0x70 = true ∧ s.ready = true ∧
     (after (step s)).fault = true) := by decide
theorem witness_RequestBeforeInitIsNotReady :
    ((∀ c r, Instr.clear ≠ .init c r) ∧ State.reset.ready = false) ∧
    ((fed [0x70] State.reset).accepting = true ∧ (fed [0x70] State.reset).available = [0x70] ∧
      legalOpcode 0x70 = true ∧ opField 0x70 ≠ 0x1 ∧ (fed [0x70] State.reset).ready = false) :=
  ⟨⟨fun _ _ => nofun, by decide⟩, by decide⟩

/-- A faulted state, the reset that leaves it, and a step that faults. -/
theorem witness_FaultedEngineIsStopped :
    let s := after (step (fed [0x44] ready20x4))
    (s.fault = true ∧ s.resetInput = false) ∧
    (isNext (step s.assertReset) = true ∧ after (step s.assertReset) = s.assertReset.afterReset ∧
      s.assertReset.fault = true ∧ s.assertReset.afterReset.fault = false) ∧
    ((fed [0x44] ready20x4).logDue = none ∧ isNext (step (fed [0x44] ready20x4)) = true ∧
      (fed [0x44] ready20x4).fault = false) := by decide
theorem witness_OnlyARaiseWritesCause :
    (fed [0x44] ready20x4).resetInput = false ∧
    isNext (step (fed [0x44] ready20x4)) = true ∧
    (after (step (fed [0x44] ready20x4))).fault = true := by decide

/-- A ready state with this value in ROWS. -/
def withRows (rows : Byte) : State := { ready20x4 with rows := ⟨rows, true⟩ }

/-- GOTO 0, y meets the hypotheses of both clauses where ROWS holds `rows`. -/
def overruns (rows y : Byte) : Bool :=
  isNext (exec (.goto 0 y) (withRows rows)) && !(withRows rows).fault && (after (exec (.goto 0 y) (withRows rows))).fault
    && (after (exec (.goto 0 y) (withRows rows))).cause == 3 && (withRows rows).ready && (withRows rows).rows.written
    && (rows == 0 || decide (3 < (if rows ≤ y then rows - 1 else y)))

/-- ROWS = 0; ROWS = 5 and Y = 4, the least row that overruns; ROWS = 255 and Y = 255, a clamped one. -/
theorem witness_RowTableOverrunIsGotosAlone : overruns 0 0 = true ∧ overruns 5 4 = true ∧ overruns 255 255 = true :=
  ⟨by decide, by decide, by decide⟩
theorem witness_IdleEngineWaits : ready20x4.accepting = true ∧ ready20x4.available = [] := by decide
theorem witness_SendByteIsEightPhases : Config.default.dataShift = 4 := by decide
theorem witness_SendCommandIsThreePhases : Config.default.dataShift = 4 := by decide
theorem witness_SendByteLatchesBothNibbles : (0x08 : Byte) = 0x00 ∨ (0x08 : Byte) = 0x08 := by decide

theorem witness_RefusedUntilReady : State.reset.ready = false := by decide

/-- A reserved F bit under each of the reserved masks. -/
theorem witness_ReservedFlagsIllegal :
    ((0x01 : Byte) &&& 0xF0 = 0 ∧ (0x01 : Byte) &&& 0x0F ≠ 0) ∧ ((0x04 : Byte) &&& 0xF0 = 0 ∧ (0x04 : Byte) &&& 0x0C ≠ 0) ∧
    ((0x08 : Byte) &&& 0xF0 = 0 ∧ (0x08 : Byte) &&& 0x08 ≠ 0) ∧
    ((0x02 : Byte) &&& 0xF0 = 0 ∧ (0x02 : Byte) &&& 0x0E ≠ 0) := by decide
theorem witness_ClearSendsClear : ready20x4.canWrite = true ∧ ready20x4.transport.answers 8 = true := by decide
theorem witness_HomeSendsHome : ready20x4.canWrite = true ∧ ready20x4.transport.answers 8 = true := by decide
theorem witness_EntrySendsEntryMode : ready20x4.canWrite = true ∧ ready20x4.transport.answers 8 = true := by decide
theorem witness_DispctlSendsDisplayControl : ready20x4.canWrite = true ∧ ready20x4.transport.answers 8 = true := by
  decide
theorem witness_ShiftSendsShift : ready20x4.canWrite = true ∧ ready20x4.transport.answers 8 = true := by decide
theorem witness_BacklightSetsMaskAndFlushes : ready20x4.ready = true ∧ ready20x4.transport.answers 1 = true := by decide

/-- The clauses of GOTO at their boundaries: ROWS = 0; clamped rows 4 (ROWS = 5, Y = 4 and 5) and 3 (ROWS = 4, Y = 3
and 4); row 0. -/
theorem witness_GotoSendsCursorAddress :
    (ready20x4.ready = true ∧ ready20x4.rows.written = true ∧ ready20x4.blmask.written = true ∧
      ready20x4.transport.answers 8 = true) ∧
    (let yc := fun (rows y : Byte) => if rows ≤ y then rows - 1 else y
     3 < yc 5 4 ∧ 3 < yc 5 5 ∧ yc 4 3 = 3 ∧ yc 4 4 = 3 ∧ yc 5 3 = 3 ∧ yc 1 255 = 0 ∧ yc 4 0 = 0 ∧
     (∀ i : Fin 4, (yc 4 (BitVec.ofNat 8 i.val)).toNat = i.val)) := by decide
theorem witness_GotoNeverChecksColumn : ready20x4.cfg = Config.default ∧ ready20x4.canWrite = true ∧
    ready20x4.rows = ⟨4, true⟩ ∧ ready20x4.transport.answers 8 = true := by decide

/-- GOTO 9, y is clamped and completes where ROWS holds `rows`. -/
def clamps (rows y : Byte) : Bool :=
  decide (1 ≤ (withRows rows).rows.value) && decide ((withRows rows).rows.value ≤ 4)
    && decide ((withRows rows).rows.value ≤ y) && isNext (exec (.goto 9 y) (withRows rows))
    && !(after (exec (.goto 9 y) (withRows rows))).busy

/-- ROWS = 1 and 4, Y = ROWS and 255. -/
theorem witness_GotoClampsToLastRow :
    clamps 1 1 = true ∧ clamps 1 255 = true ∧ clamps 4 4 = true ∧ clamps 4 255 = true :=
  ⟨by decide, by decide, by decide, by decide⟩
theorem witness_GlyphSendsSlotAndPattern : ready20x4.cfg.glyphSlots = 8 ∧ ready20x4.cfg.glyphRows = 8 ∧
    ready20x4.canWrite = true ∧ ready20x4.transport.answers 72 = true := by decide
theorem witness_WrstrSendsCharacters : (Instr.wrstr []).wellFormed = true ∧
    (Instr.wrstr [0x48, 0x69]).wellFormed = true ∧ ready20x4.canWrite = true ∧
    ready20x4.transport.answers (8 * ([] : List Byte).length) = true ∧
    ready20x4.transport.answers (8 * [(0x48 : Byte), 0x69].length) = true := by decide
theorem witness_SendbyteSendsOneByte : ready20x4.canWrite = true ∧ ready20x4.transport.answers 8 = true := by decide
theorem witness_WrrawWritesOneByte : ready20x4.canWrite = true ∧
    ready20x4.transport.next? = some (true, { script := [], afterwards := .success }) ∧
    (answering [.failure] ready20x4).canWrite = true ∧
    (answering [.failure] ready20x4).transport.next? = some (false, { script := [], afterwards := .never }) := by decide
theorem witness_InitRunsWholeSequence : State.reset.transport.answers 49 = true ∧
    (answering (List.replicate 49 .failure) ready20x4).transport.answers 49 = true := by decide

/-- Every number of answers below 49, so that each case of the table is met at both ends. -/
theorem witness_InitStatePath : ∀ k < 49,
    (answering (List.replicate k .success) State.reset).transport.answers k = true ∧
    (answering (List.replicate k .success) State.reset).transport.answers (k + 1) = false := by decide
theorem witness_InitLatchesCommandsInOrder : ready20x4.cfg = Config.default ∧
    ready20x4.transport.answers 49 = true ∧
    isNext (exec (.init 20 4) ready20x4) = true := by decide

/-- A completed, a refused and a stalled request. -/
theorem witness_FrameOfOtherRequests :
    (∀ c r, Instr.clear ≠ .init c r) ∧ (∀ l, Instr.clear ≠ .backlight l) ∧ (∀ x y, Instr.clear ≠ .goto x y) ∧
    ready20x4.ready = true ∧
    (∀ s ∈ [ready20x4, State.reset, answering [] ready20x4], isNext (exec .clear s) = true) :=
  ⟨fun _ _ => nofun, fun _ => nofun, fun _ _ => nofun, by decide, by decide⟩
theorem witness_FrameOfBacklight :
    isNext (exec (.backlight true) ready20x4) = true ∧ ready20x4.ready = true ∧
    isNext (exec (.backlight true) State.reset) = true ∧
    State.reset.ready = false := by decide
theorem witness_FrameOfInit :
    isNext (exec (.init 20 4) State.reset) = true := by decide

/-- A step that begins an INIT and one that goes on with it. -/
theorem witness_OnlyInitWritesGeometry :
    let s := fed [0x10, 20, 4] State.reset
    let p := fed [4] (after (step (fed [0x10, 20] State.reset)))
    (s.resetInput = false ∧ isNext (step s) = true ∧ (after (step s)).cols ≠ s.cols) ∧
    (p.resetInput = false ∧ isNext (step p) = true ∧ (after (step p)).rows ≠ p.rows) := by decide
theorem witness_TraceOnlyGrows :
    isNext (step (fed [0x20] ready20x4)) = true := by decide
theorem witness_StepNeverWritesStream : (fed [0x20] ready20x4).resetInput = false ∧
    isNext (step (fed [0x20] ready20x4)) = true := by decide
theorem witness_FetchedByteIsNeverReadAgain :
    let s := fed [0x30] (after (step (fed [0x20] ready20x4)))
    s.resetInput = false ∧ 0 < s.reqpc ∧ isNext (step s) = true := by decide
theorem witness_ReqpcCountsConsumedBytes : (fed [0xC0, 0x04, 0x20] ready20x4).accepting = true ∧
    isNext (step (fed [0xC0, 0x04, 0x20] ready20x4)) = true := by decide
theorem witness_WritesDoNotDependOnAnswers :
    let a := exec (.wrraw 4) { ready20x4 with transport := { script := [.success], afterwards := .never } }
    let b := exec (.wrraw 4) { ready20x4 with transport := { script := [.failure], afterwards := .never } }
    isNext a = true ∧ isNext b = true ∧ (after a).busy = false ∧ (after b).busy = false := by decide
theorem witness_EveryWriteCarriesBacklight : (∀ b, Instr.clear ≠ .wrraw b) ∧ ready20x4.cfg = Config.default ∧
    isNext (exec .clear ready20x4) = true :=
  ⟨fun _ => nofun, by decide, by decide⟩
theorem witness_EveryFailureIsLogged :
    let r := exec (.wrraw 4) (answering [.failure] ready20x4)
    ready20x4.fault = false ∧ isNext r = true ∧ (after r).failed = true ∧ (after r).busy = false := by decide

/-- INIT with one operand, GLYPH with none, WRSTR with no terminator, after no and one character. -/
theorem witness_IncompleteRequestWaits :
    ((fed [0x10, 20] State.reset).accepting = true ∧
      decode (fed [0x10, 20] State.reset).available = .incomplete 0x10 [20]) ∧
    ((fed [0x80] ready20x4).accepting = true ∧ decode (fed [0x80] ready20x4).available = .incomplete 0x80 [] ∧
      (fed [0x80] ready20x4).ready = true) ∧
    (∀ cs ∈ [[], [(0x48 : Byte)]], let s := fed (0xA0 :: cs) ready20x4
      s.accepting = true ∧ decode s.available = .incomplete 0xA0 cs ∧ s.canWrite = true ∧
      s.transport.answers (8 * cs.length) = true) := by decide
theorem witness_ResponseIsLastAndOnly : ready20x4.fault = false ∧
    isNext (exec .clear ready20x4) = true := by decide

/-- A completed request, a fault, a Transport that never answers, and a missing byte. -/
theorem witness_RequestEndsInOneOfFourWays :
    ∀ s ∈ [fed [0x20] ready20x4, fed [0x00] ready20x4, fed [0x20] (answering [] ready20x4), fed [0xC0] ready20x4],
      s.accepting = true ∧ s.available ≠ [] ∧ isNext (step s) = true := by decide
theorem witness_HungRequestStaysHung :
    ∀ s ∈ [fed [0x20] (answering [.success] ready20x4), fed [0xA0, 0x48] ready20x4],
      s.accepting = true ∧ isNext (step s) = true ∧ (after (step s)).busy = true := by decide
theorem witness_LateBytesMakeNoDifference :
    let i := Instr.wrstr [0x48, 0x69]
    let p := after (step (ready20x4.supply ready20x4.reqpc [0xA0, 0x48]))
    i.wellFormed = true ∧ ready20x4.accepting = true ∧ (∀ c ∈ ready20x4.stream, c.1 < ready20x4.reqpc) ∧
    encode i = [0xA0, 0x48] ++ [0x69, 0x00] ∧ ([0xA0, 0x48] : List Byte) ≠ [] ∧
    isNext (step (ready20x4.supply ready20x4.reqpc [0xA0, 0x48])) = true ∧ p.busy = true := by decide

/-- A WRSTR that waits for its next byte; a request in progress that goes on by one action. -/
theorem witness_RequestHoldsItsPosition :
    let s := fed [0xA0, 0x48] ready20x4
    let m := after (microStep (fed [0x20] ready20x4))
    (s.accepting = true ∧ isNext (step s) = true ∧ (after (step s)).busy = true ∧
      (after (step s)).request = some ⟨0xA0, [0x48], 8, 9, none⟩) ∧
    (m.busy = true ∧ m.request = some ⟨0x20, [], 0, 0, none⟩ ∧ isNext (microStep m) = true ∧
      (after (microStep m)).request = some ⟨0x20, [], 1, 1, none⟩) := by decide

/-- A failed write of a WRRAW: its opcode byte, its operand, then `W(0C, false)`. -/
theorem witness_EventsComeOneAtATime :
    let s := after (microRun 2 (fed [0xC0, 0x04] (answering [.failure] ready20x4)))
    isNext (microStep s) = true ∧ (after (microStep s)).trace = s.trace ++ [.w 0x0C false] ∧
    (after (microStep (after (microStep s)))).trace = s.trace ++ [.w 0x0C false, .l 0x0C] ∧
    s.assertReset.resetInput = true ∧ s.logDue = none := by decide

/-- A request that completes, and one whose second write is not answered. -/
theorem witness_EveryWriteCallsTheTransport :
    (isNext (step (fed [0x90] ready20x4)) = true ∧
      (after (step (fed [0x90] ready20x4))).transport.calls = [⟨0x27, [0x00], 1, true⟩]) ∧
    (isNext (exec (.backlight false) ready20x4) = true ∧ (after (exec (.backlight false) ready20x4)).busy = false) ∧
    (let r := exec .clear (answering [.success] ready20x4)
     isNext r = true ∧ (after r).busy = true ∧
     (after r).outstanding = some ⟨0x27, [0x0C], 1, true⟩) := by decide
theorem witness_StepIsItsMicroSteps : (fed [0x20] ready20x4).accepting = true ∧
    isNext (step (fed [0x20] ready20x4)) = true := by decide
theorem witness_BusBudgetOfRequests : ready20x4.cfg = Config.default ∧ ready20x4.fault = false ∧
    isNext (exec .clear ready20x4) = true ∧ (after (exec .clear ready20x4)).busy = false ∧
    (after (exec .clear ready20x4)).fault = false := by decide

/-- The invariant holds of a ready state with a request's bytes, and its step is a next state. -/
theorem witness_StepKeepsInvariant :
    (fed [0x20] ready20x4).Inv ∧ isNext (step (fed [0x20] ready20x4)) = true :=
  ⟨⟨by decide, by decide, by decide, by decide, by decide, by decide, nofun, by decide⟩, by decide⟩

/-- The invariant holds of an INIT that waits for its second operand, with the registers unwritten. -/
theorem witness_NoUnwrittenRegisterIsRead : (after (step (fed [0x10, 20] State.reset))).Inv :=
  ⟨by decide, by decide, by decide, by decide, by decide, by decide, fun r h => by
    have : r = ⟨0x10, [20], 0, 1, none⟩ := by simpa using (show some (⟨0x10, [20], 0, 1, none⟩ : Progress) = some r from h).symm
    subst this
    decide, by decide⟩

/-- READY = 1 with ROWS, or with BLMASK, unwritten (no run comes to such a state); the last row of the table; and the
states of the last clause. -/
theorem witness_ReadingAnUnwrittenRegisterStops :
    let noRows : State := { ready20x4 with rows := ⟨0, false⟩ }
    let noMask : State := { ready20x4 with blmask := ⟨0, false⟩ }
    (noRows.ready = true ∧ noRows.rows.written = false) ∧
    (noMask.ready = true ∧ noMask.rows.written = true ∧ noMask.blmask.written = false ∧ noMask.rows.value ≠ 0 ∧
      (if noMask.rows.value ≤ (0xFF : Byte) then noMask.rows.value - 1 else 0xFF) ≤ (3 : Byte)) ∧
    ((∀ c r, Instr.wrstr [0x48] ≠ .init c r) ∧ (∀ l, Instr.wrstr [0x48] ≠ .backlight l) ∧
      (∀ x y, Instr.wrstr [0x48] ≠ .goto x y) ∧ Instr.wrstr [0x48] ≠ .wrstr []) ∧
    State.reset.ready = false ∧ ready20x4.rows.written = true ∧ ready20x4.blmask.written = true :=
  ⟨by decide, by decide, ⟨by simp, by simp, by simp, by simp⟩, by decide⟩

end Sys2Proof.Tests
end

/-! SUPPORT. The state's obligations (10_state): what the decoder's answer says of the bytes, what one step can do
(`step_next`), what running actions leaves and where it stops, the events of a request, and the request in progress. -/

namespace Sys2Proof

/-- The opcode byte of a request is that of its head. -/
theorem headByte_headOf (i : Instr) : headByte (headOf i) = opcodeOf i := by
  cases i <;> rfl

/-- Operands that decode are those of a request with that head, and the bytes after them are left over. -/
theorem decodeOperands_some {h : Head} {bs rest : List Byte} {i : Instr} (e : decodeOperands h bs = some (i, rest)) :
    headOf i = h ∧ operandsOf i ++ rest = bs := by
  unfold decodeOperands at e
  split at e
  -- WRSTR alone has operands of no fixed length: they end at the terminator (R62).
  case h_13 =>
    split at e
    · next cs rest' hs =>
      obtain ⟨rfl, rfl⟩ : Instr.wrstr cs = i ∧ rest' = rest := by simpa using e
      exact ⟨rfl, by simpa [operandsOf] using (splitString_some hs).2⟩
    · simp at e
  all_goals
    simp only [Option.some.injEq, Prod.mk.injEq, reduceCtorEq] at e
  all_goals
    obtain ⟨rfl, rfl⟩ := e
    exact ⟨rfl, rfl⟩

/-- The bytes that decode to a request are its opcode byte, its operand bytes and the bytes left over. -/
theorem decode_request {op : Byte} {bs rest : List Byte} {i : Instr} (e : decode (op :: bs) = .request i rest) :
    opcodeOf i = op ∧ operandsOf i ++ rest = bs := by
  simp only [decode] at e
  split at e
  · simp at e
  · next h hop =>
    split at e
    · next hd =>
      obtain ⟨rfl, rfl⟩ := Decoded.request.inj e
      obtain ⟨rfl, hrest⟩ := decodeOperands_some hd
      exact ⟨(headByte_headOf _).symm.trans (headByte_decodeOpcode hop), hrest⟩
    · simp at e

/-- An opcode byte is answered as illegal just where it is. -/
theorem decode_cons_illegal {op : Byte} (bs : List Byte) (h : legalOpcode op = false) :
    decode (op :: bs) = .illegal op := by
  have hn : decodeOpcode op = none := by simpa [h] using decodeOpcode_isNone op
  simp [decode, hn]

/-- A legal opcode byte is that of a whole request or of an incomplete one. -/
theorem decode_cons_legal {op : Byte} (bs : List Byte) (h : legalOpcode op = true) :
    (∃ i rest, decode (op :: bs) = .request i rest) ∨ decode (op :: bs) = .incomplete op bs := by
  have hs : (decodeOpcode op).isSome = true := by simpa [h] using decodeOpcode_isNone op
  obtain ⟨hd, he⟩ := Option.isSome_iff_exists.mp hs
  simp only [decode, he]
  cases decodeOperands hd bs with
  | none => exact .inr rfl
  | some p => exact .inl ⟨p.1, p.2, rfl⟩

end Sys2Proof

namespace Sys2Proof.Machine

/-- The actions of a legal opcode byte with these operand bytes: a whole request's, or an incomplete one's. -/
theorem scriptFor_cases (op : Byte) (bs : List Byte) (s : State) (h : legalOpcode op = true) :
    (∃ i rest, decode (op :: bs) = .request i rest ∧ opcodeOf i = op ∧ operandsOf i ++ rest = bs ∧
      scriptFor op bs s = scriptOf i s) ∨
    (decode (op :: bs) = .incomplete op bs ∧ scriptFor op bs s = incompleteScript s.cfg op bs) := by
  rcases decode_cons_legal bs h with ⟨i, rest, hd⟩ | hd
  · obtain ⟨hop, hbs⟩ := decode_request hd
    exact .inl ⟨i, rest, hd, hop, hbs, by simp only [scriptFor, hd]⟩
  · exact .inr ⟨hd, by simp only [scriptFor, hd]⟩

/-- An illegal opcode byte has no actions. -/
theorem scriptFor_illegal {op : Byte} (bs : List Byte) (s : State) (h : legalOpcode op = false) :
    scriptFor op bs s = [] := by
  simp only [scriptFor, decode_cons_illegal bs h]

/-- A request fetches operand bytes from the front of those that stand behind its opcode byte (R62). -/
theorem fetches_scriptFor_prefix (op : Byte) (bs : List Byte) (s : State) :
    fetches (scriptFor op bs s) <+: bs := by
  cases hl : legalOpcode op with
  | false => simp [scriptFor_illegal bs s hl, fetches]
  | true =>
    rcases scriptFor_cases op bs s hl with ⟨i, rest, -, -, rfl, hs⟩ | ⟨-, hs⟩
    · rw [hs, fetches_script]
      exact List.prefix_append _ _
    · rw [hs, fetches_incompleteScript]

/-! ### What one step can do -/

theorem State.accepting_iff {s : State} :
    s.accepting = true ↔ s.resetInput = false ∧ s.fault = false ∧ s.busy = false := by
  simp [State.accepting, and_assoc]

/-- With the reset input asserted, a step is the reset (R191). -/
theorem step_of_resetInput {s : State} (h : s.resetInput = true) : step s = .next s.afterReset := by
  simp [step, h]

/-- A faulted engine has no enabled step (R161). -/
theorem step_of_fault {s : State} (hr : s.resetInput = false) (hf : s.fault = true) : step s = .next s := by
  simp [step, hr, hf]

/-- An engine that takes a request begins it with the actions of the bytes that are there, or rejects it (R73). -/
theorem step_of_accepting {s : State} {op : Byte} {bs : List Byte} (h : s.accepting = true)
    (ha : s.available = op :: bs) :
    step s = if legalOpcode op then beginRequest op (scriptFor op bs s) s else rejectOpcode op s := by
  obtain ⟨hr, hf, hb⟩ := State.accepting_iff.mp h
  simp only [step, hr, hf, hb, ha, Bool.false_eq_true, if_false]
  cases hl : legalOpcode op with
  | false => simp [decode_cons_illegal bs hl]
  | true =>
    rcases scriptFor_cases op bs s hl with ⟨i, rest, hd, rfl, -, hs⟩ | ⟨hd, hs⟩
    · simp [hd, hs, exec_begin]
    · simp [hd, hs, beginIncomplete]

/-- Everything the request cycle of a legal opcode byte can do when it answers a next state (R73, R163). -/
theorem beginRequest_next {op : Byte} {script : List Act} {s t : State} (h : beginRequest op script s = .next t) :
    (needsReady op = true ∧ s.ready = false ∧ t = (s.started op).raised .notReady) ∨
    ((needsReady op = false ∨ s.ready = true) ∧ runActs script (s.started op) = .next t) := by
  unfold beginRequest at h
  split at h
  · next hc =>
    obtain ⟨hn, hr⟩ : needsReady op = true ∧ s.ready = false := by simpa using hc
    exact .inl ⟨hn, hr, (Host.Outcome.next.inj h).symm⟩
  · next hc =>
    refine .inr ⟨?_, h⟩
    cases hr : s.ready with
    | true => exact .inr rfl
    | false => exact .inl (by simpa [hr] using hc)

/-- Everything a step of an engine that takes a request can do when it answers a next state: nothing, where no byte is
there; IllegalRequest; NotReady; or the actions of the bytes that are there. -/
theorem step_next_of_accepting {s t : State} (h : s.accepting = true) (hst : step s = .next t) :
    (s.available = [] ∧ t = s) ∨
    ∃ op bs, s.available = op :: bs ∧
      ((legalOpcode op = false ∧ t = (s.started op).raised .illegalRequest) ∨
       (legalOpcode op = true ∧ needsReady op = true ∧ s.ready = false ∧ t = (s.started op).raised .notReady) ∨
       (legalOpcode op = true ∧ (needsReady op = false ∨ s.ready = true) ∧
         runActs (scriptFor op bs s) (s.started op) = .next t)) := by
  cases ha : s.available with
  | nil =>
    obtain ⟨hr, hf, hb⟩ := State.accepting_iff.mp h
    refine .inl ⟨rfl, ?_⟩
    simpa [step, hr, hf, hb, ha, decode, eq_comm] using hst
  | cons op bs =>
    refine .inr ⟨op, bs, rfl, ?_⟩
    rw [step_of_accepting h ha] at hst
    cases hl : legalOpcode op with
    | false =>
      rw [hl] at hst
      exact .inl ⟨rfl, (Host.Outcome.next.inj hst).symm⟩
    | true =>
      rw [hl, if_pos rfl] at hst
      rcases beginRequest_next hst with ⟨hn, hr, ht⟩ | ⟨hr, ht⟩
      · exact .inr (.inl ⟨rfl, hn, hr, ht⟩)
      · exact .inr (.inr ⟨rfl, hr, ht⟩)

/-- Everything going on with a request in progress can do when it answers a next state: nothing, where it waits without
end, or the actions it has left. -/
theorem resume_next {s t : State} (h : resume s = .next t) :
    t = s ∨ ∃ r, s.request = some r ∧ r.outstanding = none ∧ runActs (remainingActs r s) s.logged = .next t := by
  unfold resume at h
  split at h
  · exact .inl (Host.Outcome.next.inj h).symm
  · next r hreq =>
    split at h
    · exact .inl (Host.Outcome.next.inj h).symm
    · next ho => exact .inr ⟨r, hreq, by simpa using ho, h⟩

/-- Everything a step that is no reset can do when it answers a next state: nothing; IllegalRequest or NotReady after the
fetch of the opcode byte; the actions of the request that begins; or those that the request in progress has left. -/
theorem step_next {s t : State} (hr : s.resetInput = false) (h : step s = .next t) :
    t = s ∨
    (s.accepting = true ∧ ∃ op bs, s.available = op :: bs ∧
      ((∃ c, t = (s.started op).raised c) ∨ runActs (scriptFor op bs s) (s.started op) = .next t)) ∨
    (s.fault = false ∧ s.busy = true ∧ ∃ r, s.request = some r ∧ r.outstanding = none ∧
      runActs (remainingActs r s) s.logged = .next t) := by
  cases hf : s.fault with
  | true => exact .inl (Host.Outcome.next.inj ((step_of_fault hr hf).symm.trans h)).symm
  | false =>
    cases hb : s.busy with
    | true =>
      have hres : resume s = .next t := by simpa [step, hr, hf, hb] using h
      exact (resume_next hres).imp_right fun hgo => .inr ⟨rfl, rfl, hgo⟩
    | false =>
      have ha : s.accepting = true := State.accepting_iff.mpr ⟨hr, hf, hb⟩
      rcases step_next_of_accepting ha h with ⟨-, ht⟩ | ⟨op, bs, hav, hway⟩
      · exact .inl ht
      · refine .inr (.inl ⟨ha, op, bs, hav, ?_⟩)
        rcases hway with ⟨-, ht⟩ | ⟨-, -, -, ht⟩ | ⟨-, -, ht⟩
        · exact .inl ⟨_, ht⟩
        · exact .inl ⟨_, ht⟩
        · exact .inr ht

/-! ### Running actions -/

/-- Running actions leaves FAULT and CAUSE, or one of the actions raised a fault. -/
theorem runActs_fault {as : List Act} {s t : State} (h : runActs as s = .next t) :
    (t.fault = s.fault ∧ t.cause = s.cause) ∨ (t.fault = true ∧ ∃ c, t.cause = Cause.code c) := by
  obtain ⟨done, rest, mid, -, hg, hend⟩ := runActs_next h
  obtain ⟨-, -, -, -, hfault, hcause⟩ := hg.const
  rcases hend with ⟨-, rfl⟩ | ⟨b, rest', -, -, -, rfl⟩ | ⟨c, rest', -, rfl⟩
  · exact .inl ⟨hfault, hcause⟩
  · exact .inl ⟨hfault, hcause⟩
  · exact .inr ⟨rfl, c, rfl⟩

/-- An action that goes on leaves BLMASK written where it was. -/
theorem runAct_goesOn_blmask_written {a : Act} {s t : State} (h : runAct a s = .goesOn t)
    (hw : s.blmask.written = true) : t.blmask.written = true := by
  rcases runAct_goesOn h with ⟨b, rfl, rfl⟩ | ⟨c, r, m, rfl, rfl⟩ | ⟨m, rfl, rfl⟩ | ⟨i, rfl, rfl⟩ |
    ⟨b, ack, t, rfl, -, -, rfl⟩ | ⟨u, rfl, rfl⟩ | ⟨rfl, rfl⟩ <;> simp [hw, DisplayReg.of]

/-- With BLMASK written, actions among which there is no read of an unwritten register answer a next state (R37). -/
theorem runActs_answers {as : List Act} {s : State} (hu : Act.readUnwritten ∉ as) (hw : s.blmask.written = true) :
    ∃ t, runActs as s = .next t := by
  induction as generalizing s with
  | nil => exact ⟨s, rfl⟩
  | cons a as ih =>
    obtain ⟨ha, has⟩ := not_or.mp (List.mem_cons.not.mp hu)
    simp only [runActs]
    cases hact : runAct a s with
    | goesOn s' => exact ih has (runAct_goesOn_blmask_written hact hw)
    | blocked s' => exact ⟨s', rfl⟩
    | stopped s' => exact ⟨s', rfl⟩
    | unwritten =>
      rcases runAct_unwritten hact with rfl | ⟨b, -, hb⟩
      · exact absurd rfl ha
      · simp [hw] at hb

/-- The first write after the operands are fetched stops where BLMASK is unwritten (R37). -/
theorem runActs_fetches_write_unwritten {s : State} (h : s.blmask.written = false) (bs : List Byte) (b : Byte)
    (rest : List Act) : runActs (bs.map .fetch ++ .write b :: rest) s = .fault .unwrittenRegister := by
  rw [(goesOn_fetches bs s).runActs_append]
  simp [runActs, runAct_write, h]

/-! ### The geometry -/

/-- The action leaves COLS and ROWS. -/
def Act.keepsSize : Act → Bool
  | .install _ _ _ => false
  | _ => true

/-- The action leaves INIT_STATE. -/
def Act.keepsInitState : Act → Bool
  | .setInitState _ => false
  | _ => true

theorem runAct_keepsSize {a : Act} {s t : State} (ha : a.keepsSize = true) (h : runAct a s = .goesOn t) :
    t.cols = s.cols ∧ t.rows = s.rows := by
  rcases runAct_goesOn h with ⟨b, rfl, rfl⟩ | ⟨c, r, m, rfl, rfl⟩ | ⟨m, rfl, rfl⟩ | ⟨i, rfl, rfl⟩ |
    ⟨b, ack, t, rfl, -, -, rfl⟩ | ⟨u, rfl, rfl⟩ | ⟨rfl, rfl⟩ <;> simp_all [Act.keepsSize]

theorem runAct_keepsInitState {a : Act} {s t : State} (ha : a.keepsInitState = true) (h : runAct a s = .goesOn t) :
    t.initState = s.initState := by
  rcases runAct_goesOn h with ⟨b, rfl, rfl⟩ | ⟨c, r, m, rfl, rfl⟩ | ⟨m, rfl, rfl⟩ | ⟨i, rfl, rfl⟩ |
    ⟨b, ack, t, rfl, -, -, rfl⟩ | ⟨u, rfl, rfl⟩ | ⟨rfl, rfl⟩ <;> simp_all [Act.keepsInitState]

theorem runActs_keepsSize {as : List Act} {s t : State} (h : runActs as s = .next t)
    (ha : as.all Act.keepsSize = true) : t.cols = s.cols ∧ t.rows = s.rows :=
  runActs_keeps (P := fun x => x.cols = s.cols ∧ x.rows = s.rows) h
    (fun a hm _ _ hact hx =>
      have hk := runAct_keepsSize (List.all_eq_true.mp ha a hm) hact
      ⟨hk.1.trans hx.1, hk.2.trans hx.2⟩)
    (fun _ _ _ hx => hx) (fun _ _ hx => hx) ⟨rfl, rfl⟩

theorem runActs_keepsInitState {as : List Act} {s t : State} (h : runActs as s = .next t)
    (ha : as.all Act.keepsInitState = true) : t.initState = s.initState :=
  runActs_keeps (P := fun x => x.initState = s.initState) h
    (fun a hm _ _ hact hx => (runAct_keepsInitState (List.all_eq_true.mp ha a hm) hact).trans hx)
    (fun _ _ _ hx => hx) (fun _ _ hx => hx) rfl

/-- What holds of the plain actions and of a write of BLMASK holds of the actions of every request but INIT. -/
theorem script_all_of_plain {p : Act → Bool} (hp : ∀ a, a.plain = true → p a = true)
    (hb : ∀ m, p (.setBacklight m) = true) (i : Instr) (s : State) (hi : ∀ c r, i ≠ .init c r) :
    (scriptOf i s).all p = true := by
  by_cases hl : ∃ l, i = .backlight l
  · obtain ⟨l, rfl⟩ := hl
    have hwrite := hp (.write 0x00) rfl
    simp_all [scriptOf, backlightScript, hp .respond rfl]
  · have hplain := script_plain i s hi fun l h => hl ⟨l, h⟩
    exact List.all_eq_true.mpr fun a ha => hp a (List.all_eq_true.mp hplain a ha)

/-- The same of the actions of the bytes that are there, where they are no INIT. -/
theorem scriptFor_all_of_plain {p : Act → Bool} (hp : ∀ a, a.plain = true → p a = true)
    (hb : ∀ m, p (.setBacklight m) = true) {op : Byte} {bs : List Byte} (s : State)
    (hi : ∀ c r rest, decode (op :: bs) ≠ .request (.init c r) rest) : (scriptFor op bs s).all p = true := by
  cases hl : legalOpcode op with
  | false => simp [scriptFor_illegal bs s hl]
  | true =>
    rcases scriptFor_cases op bs s hl with ⟨i, rest, hd, -, -, hs⟩ | ⟨-, hs⟩
    · rw [hs]
      exact script_all_of_plain hp hb i s fun c r h => hi c r rest (h ▸ hd)
    · rw [hs]
      have hplain := incompleteScript_plain s.cfg op bs
      exact List.all_eq_true.mpr fun a ha => hp a (List.all_eq_true.mp hplain a ha)

theorem keepsSize_of_plain (a : Act) (h : a.plain = true) : a.keepsSize = true := by
  cases a with
  | install c r m => simp [Act.plain] at h
  | _ => rfl

theorem keepsInitState_of_plain (a : Act) (h : a.plain = true) : a.keepsInitState = true := by
  cases a with
  | setInitState i => simp [Act.plain] at h
  | _ => rfl

/-- Running actions of bytes that are no INIT leaves COLS, ROWS and INIT_STATE (R24, R101). -/
theorem runActs_scriptFor_keeps_geometry {op : Byte} {bs : List Byte} {u s t : State} (k : Nat)
    (hi : ∀ c r rest, decode (op :: bs) ≠ .request (.init c r) rest)
    (h : runActs ((scriptFor op bs u).drop k) s = .next t) :
    t.cols = s.cols ∧ t.rows = s.rows ∧ t.initState = s.initState := by
  have hdrop : ∀ p : Act → Bool, (scriptFor op bs u).all p = true → ((scriptFor op bs u).drop k).all p = true :=
    fun p hp => List.all_eq_true.mpr fun a ha => List.all_eq_true.mp hp a (List.mem_of_mem_drop ha)
  obtain ⟨hcols, hrows⟩ :=
    runActs_keepsSize h (hdrop _ (scriptFor_all_of_plain keepsSize_of_plain (fun _ => rfl) u hi))
  exact ⟨hcols, hrows,
    runActs_keepsInitState h (hdrop _ (scriptFor_all_of_plain keepsInitState_of_plain (fun _ => rfl) u hi))⟩

/-- INIT's actions once its registers are written (R100). -/
def initTail (cfg : Config) : List Act := (initScript cfg 0 0).drop 4

theorem initScript_eq (cfg : Config) (c r : Byte) : initScript cfg c r =
    [.fetch c, .fetch r, .setInitState .poweredUnknown, .install c r (backlightMask cfg cfg.initBacklight)]
      ++ initTail cfg := by
  simp only [initTail, initScript, List.append_assoc, List.cons_append, List.nil_append, List.drop_succ_cons,
    List.drop_zero]

/-- Behind its registers INIT only writes to the bus, waits, moves INIT_STATE and responds. -/
theorem initTail_all {p : Act → Bool} (hw : ∀ b, p (.write b) = true) (ht : ∀ us, p (.wait us) = true)
    (hi : ∀ i, p (.setInitState i) = true) (hr : p .respond = true) (cfg : Config) : (initTail cfg).all p = true := by
  simp only [initTail, initScript, resyncActs, initCommandActs, List.append_assoc, List.cons_append, List.nil_append,
    List.drop_succ_cons, List.drop_zero, List.all_append, List.all_cons, List.all_nil, sendByteActs_all p hw,
    sendCommandActs_all p hw, ht, hi, hr, Bool.and_self]

/-- INIT, from any state, comes to its registers. -/
theorem exec_init (c r : Byte) (s : State) : exec (.init c r) s = runActs (initTail s.cfg)
    (((((s.started 0x10).fetched c).fetched r).initStateSet .poweredUnknown).installed c r
      (backlightMask s.cfg s.cfg.initBacklight)) := by
  have hn : needsReady (opcodeOf (.init c r)) = false := (by decide : needsReady 0x10 = false)
  rw [exec_begin, beginRequest_runs (.inl hn)]
  simp only [scriptOf, initScript_eq, List.cons_append, List.nil_append, runActs, runAct]
  rfl

/-- Every INIT answers a next state, and leaves its operands in COLS and ROWS (R24, R100). -/
theorem exec_init_next (c r : Byte) (s : State) :
    ∃ t, exec (.init c r) s = .next t ∧ t.cols = ⟨c, true⟩ ∧ t.rows = ⟨r, true⟩ := by
  have hu : (initTail s.cfg).all (· != Act.readUnwritten) = true :=
    initTail_all (fun _ => rfl) (fun _ => rfl) (fun _ => rfl) rfl _
  obtain ⟨t, ht⟩ := runActs_answers
    (s := ((((s.started 0x10).fetched c).fetched r).initStateSet .poweredUnknown).installed c r
      (backlightMask s.cfg s.cfg.initBacklight))
    (as := initTail s.cfg) (fun hm => by simpa using List.all_eq_true.mp hu _ hm) rfl
  obtain ⟨hcols, hrows⟩ :=
    runActs_keepsSize ht (initTail_all (fun _ => rfl) (fun _ => rfl) (fun _ => rfl) rfl _)
  exact ⟨t, (exec_init c r s).trans ht, hcols, hrows⟩

/-! ### Where a request runs -/

/-- While READY = 0 every request but INIT raises NotReady (R163). -/
theorem exec_notReady {i : Instr} {s : State} (hi : ∀ c r, i ≠ .init c r) (hr : s.ready = false) :
    exec i s = .next ((s.started (opcodeOf i)).raised .notReady) :=
  (exec_begin i s).trans (beginRequest_notReady (needsReady_opcodeOf i hi) hr)

/-- While READY = 1 every request runs its actions (R73). -/
theorem exec_ready (i : Instr) {s : State} (hr : s.ready = true) :
    exec i s = runActs (scriptOf i s) (s.started (opcodeOf i)) :=
  (exec_begin i s).trans (beginRequest_runs (.inr hr))

/-- No request but a GOTO that finds ROWS unwritten has a read of an unwritten register among its actions. -/
theorem readUnwritten_mem_script {i : Instr} {s : State} (h : Act.readUnwritten ∈ scriptOf i s) :
    s.rows.written = false ∧ ∃ x y, i = .goto x y := by
  obtain ⟨body, z, hs, hbody, hz⟩ := script_shape i s
  rw [hs, List.mem_append, List.mem_singleton] at h
  rcases h with hmem | rfl
  · exact absurd (List.all_eq_true.mp hbody _ hmem) (by simp [Act.within])
  · rcases hz with h | ⟨-, -, -, -, h⟩ | ⟨x, y, hi, hrows, -⟩
    · simp at h
    · simp at h
    · exact ⟨hrows, x, y, hi⟩

/-- Where ROWS is not 0 and the clamped row is in the row table, GOTO finds a row (R130). -/
theorem clampRow_some {rows y : Byte} (h0 : rows ≠ 0) (h3 : (if rows ≤ y then rows - 1 else y) ≤ 3) :
    ∃ yc, clampRow rows y = some yc := by
  have hlt : (if rows ≤ y then rows - 1 else y).toNat < 4 := Nat.lt_succ_of_le (BitVec.le_def.mp h3)
  exact ⟨⟨_, hlt⟩, by simp only [clampRow, if_neg h0, dif_pos hlt]⟩

/-- GOTO's actions where it finds a row: its operands, then its writes. -/
theorem goto_script_of_row {s : State} {x y : Byte} {yc : Fin 4} (hr : s.rows.written = true)
    (hc : clampRow s.rows.value y = some yc) :
    scriptOf (.goto x y) s = [x, y].map .fetch ++
      (sendByteActs s.cfg (ddramCommand (cursorAddress s.cfg x yc)) .command ++ [.respond]) := by
  simp [scriptOf, gotoScript, gotoBody, DisplayReg.read?, hr, hc]

/-- Every request but INIT, BACKLIGHT, GOTO and the empty WRSTR fetches operand bytes and then writes to the bus. -/
theorem script_fetches_then_write {i : Instr} (s : State) (h1 : ∀ c r, i ≠ .init c r) (h2 : ∀ l, i ≠ .backlight l)
    (h3 : ∀ x y, i ≠ .goto x y) (h4 : i ≠ .wrstr []) :
    ∃ (bs : List Byte) (b : Byte) (rest : List Act), scriptOf i s = bs.map .fetch ++ .write b :: rest := by
  cases i with
  | init c r => exact absurd rfl (h1 c r)
  | backlight l => exact absurd rfl (h2 l)
  | goto x y => exact absurd rfl (h3 x y)
  | glyph slot p0 p1 p2 p3 p4 p5 p6 p7 => exact ⟨[slot, p0, p1, p2, p3, p4, p5, p6, p7], _, _, rfl⟩
  | wrstr cs =>
    cases cs with
    | nil => exact absurd rfl h4
    | cons c cs => exact ⟨[c], _, _, rfl⟩
  | sendbyte v m => exact ⟨[v], _, _, rfl⟩
  | wrraw b => exact ⟨[b], b, [.respond], rfl⟩
  | clear => exact ⟨[], _, _, rfl⟩
  | home => exact ⟨[], _, _, rfl⟩
  | entry a b => exact ⟨[], _, _, rfl⟩
  | dispctl a b c => exact ⟨[], _, _, rfl⟩
  | shift a b => exact ⟨[], _, _, rfl⟩

/-- An XWrite reads BLMASK, asks the Transport, and goes on or is not answered (R14). -/
theorem xwrite_eq (b : Byte) (s : State) : xwrite b s =
    if s.blmask.written then
      match s.transport.next? with
      | none => .blocked (s.stalled (busWrite s.cfg (b ||| s.blmask.value)))
      | some (ack, t) =>
        .goesOn (s.wroteByte (b ||| s.blmask.value) ack (t.recorded (busWrite s.cfg (b ||| s.blmask.value))))
    else .unwritten := by
  simp only [xwrite, DisplayReg.read?]
  cases s.blmask.written with
  | false => rfl
  | true => cases h : s.transport.next? <;> simp [h]

/-- An XWrite stops just where BLMASK is unwritten (R37). -/
theorem xwrite_unwritten_iff (b : Byte) (s : State) : xwrite b s = .unwritten ↔ s.blmask.written = false := by
  rw [xwrite_eq]
  cases s.blmask.written with
  | false => simp
  | true => cases h : s.transport.next? <;> simp

/-! ### The events of a request -/

/-- Events whose failures are all logged say nothing of the log events of those after them. -/
theorem failuresLogged_append {due : Option Byte} {es : List Event} (h : failuresLogged due es = true)
    (fs : List Event) : failuresLogged due (es ++ fs) = failuresLogged none fs := by
  induction es generalizing due with
  | nil =>
    cases due with
    | none => rfl
    | some b => simp [failuresLogged] at h
  | cons e es ih =>
    cases due <;> cases e <;> simp_all [failuresLogged]

theorem anyFailure_append (es fs : List Event) : anyFailure (es ++ fs) = (anyFailure es || anyFailure fs) :=
  List.any_append

theorem failuresLogged_loggedWrite (b : Byte) (ack : Bool) : failuresLogged none (loggedWrite b ack) = true := by
  cases ack <;> simp [loggedWrite, failuresLogged]

theorem anyFailure_loggedWrite (b : Byte) (ack : Bool) : anyFailure (loggedWrite b ack) = !ack := by
  cases ack <;> rfl

theorem failuresLogged_waitEvents (us : Nat) : failuresLogged none (waitEvents us) = true := by
  unfold waitEvents
  split <;> rfl

theorem anyFailure_waitEvents (us : Nat) : anyFailure (waitEvents us) = false := by
  unfold waitEvents
  split <;> rfl

/-- These events came between the two states: each failure among them is logged at once, and FAILED says whether there
was one (R30, R81). -/
def State.LogsUpTo (s t : State) (es : List Event) : Prop :=
  t.trace = s.trace ++ es ∧ failuresLogged none es = true ∧ t.failed = (s.failed || anyFailure es)

theorem State.LogsUpTo.refl (s : State) : s.LogsUpTo s [] :=
  ⟨(List.append_nil _).symm, rfl, (Bool.or_false _).symm⟩

theorem State.LogsUpTo.trans {s t u : State} {es fs : List Event} (h : s.LogsUpTo t es) (h' : t.LogsUpTo u fs) :
    s.LogsUpTo u (es ++ fs) := by
  obtain ⟨htrace, hlogged, hfailed⟩ := h
  obtain ⟨htrace', hlogged', hfailed'⟩ := h'
  refine ⟨by rw [htrace', htrace, List.append_assoc], by rw [failuresLogged_append hlogged, hlogged'], ?_⟩
  rw [hfailed', hfailed, anyFailure_append, Bool.or_assoc]

/-- One action that goes on logs its failure at once. -/
theorem runAct_logs {a : Act} {s t : State} (h : runAct a s = .goesOn t) : ∃ es, s.LogsUpTo t es := by
  have silent : ∀ u : State, u.trace = s.trace → u.failed = s.failed → ∃ es, s.LogsUpTo u es :=
    fun u htrace hfailed => ⟨[], by simpa using htrace, rfl, by simpa [anyFailure] using hfailed⟩
  rcases runAct_goesOn h with ⟨b, rfl, rfl⟩ | ⟨c, r, m, rfl, rfl⟩ | ⟨m, rfl, rfl⟩ | ⟨i, rfl, rfl⟩ |
    ⟨b, ack, t, rfl, -, -, rfl⟩ | ⟨us, rfl, rfl⟩ | ⟨rfl, rfl⟩
  case inr.inr.inr.inr.inl =>
    exact ⟨_, State.wrote_trace .., failuresLogged_loggedWrite .., by simp [anyFailure_loggedWrite, failedAfter]⟩
  case inr.inr.inr.inr.inr.inl =>
    exact ⟨_, State.waited_trace .., failuresLogged_waitEvents us, by simp [anyFailure_waitEvents]⟩
  case inr.inr.inr.inr.inr.inr => exact ⟨_, State.responded_trace s, rfl, by simp [anyFailure]⟩
  all_goals exact silent _ rfl rfl

/-- Actions that go on log each failure at once. -/
theorem GoesOn.logs {as : List Act} {s t : State} (h : GoesOn as s t) : ∃ es, s.LogsUpTo t es := by
  induction h with
  | nil s => exact ⟨[], .refl s⟩
  | cons ha _ ih =>
    obtain ⟨es, hes⟩ := runAct_logs ha
    obtain ⟨fs, hfs⟩ := ih
    exact ⟨es ++ fs, hes.trans hfs⟩

/-! ### The request in progress -/

/-- An action that goes on with BUSY = 1 found it so, and does not end the request. -/
theorem runAct_goesOn_busy {a : Act} {s t : State} (h : runAct a s = .goesOn t) (hb : t.busy = true) :
    s.busy = true ∧ a.within = true := by
  rcases runAct_goesOn h with ⟨b, rfl, rfl⟩ | ⟨c, r, m, rfl, rfl⟩ | ⟨m, rfl, rfl⟩ | ⟨i, rfl, rfl⟩ |
    ⟨b, ack, t, rfl, -, -, rfl⟩ | ⟨us, rfl, rfl⟩ | ⟨rfl, rfl⟩ <;> simp_all [Act.within]

/-- Actions that leave BUSY = 1 do not end the request. -/
theorem GoesOn.within_of_busy {as : List Act} {s t : State} (h : GoesOn as s t) (hb : t.busy = true) :
    s.busy = true ∧ as.all Act.within = true := by
  induction h with
  | nil => exact ⟨hb, rfl⟩
  | cons ha _ ih =>
    obtain ⟨hmid, hrest⟩ := ih hb
    obtain ⟨hs, hact⟩ := runAct_goesOn_busy ha hmid
    exact ⟨hs, by rw [List.all_cons, hact, hrest]; rfl⟩

/-- What the actions leave of the bytes that could be fetched. -/
theorem GoesOn.available {as : List Act} {s t : State} {bs : List Byte} (h : GoesOn as s t)
    (hs : s.available = fetches as ++ bs) : t.available = bs := by
  obtain ⟨-, -, hstream, -, -, -⟩ := h.const
  unfold State.available at hs ⊢
  rw [hstream, h.reqpc]
  exact Memory.bytesFrom_add hs

/-- Running actions that leave BUSY = 1: some of them, none of which ends the request, go on, and then they are all done
or a write is not answered. -/
theorem runActs_next_of_busy {as : List Act} {s t : State} (h : runActs as s = .next t) (hb : t.busy = true) :
    ∃ done rest mid, as = done ++ rest ∧ GoesOn done s mid ∧ done.all Act.within = true ∧
      ((rest = [] ∧ t = mid) ∨ ∃ w, t = mid.stalled w) := by
  obtain ⟨done, rest, mid, has, hg, hend⟩ := runActs_next h
  rcases hend with ⟨hrest, rfl⟩ | ⟨b, rest', -, -, -, rfl⟩ | ⟨c, rest', -, rfl⟩
  · exact ⟨done, rest, t, has, hg, (hg.within_of_busy hb).2, .inl ⟨hrest, rfl⟩⟩
  · exact ⟨done, rest, mid, has, hg, (hg.within_of_busy hb).2, .inr ⟨_, rfl⟩⟩
  · simp at hb

/-- The bytes after an opcode byte are what can be fetched once it is. -/
theorem State.started_available {s : State} {op : Byte} {bs : List Byte} (h : s.available = op :: bs) :
    (s.started op).available = bs := Memory.bytesFrom_succ h

/-- A request that begins and is left waiting holds its opcode byte, the bytes it has fetched, and the number of events it
has emitted. -/
theorem request_of_begin_busy {s t : State} {op : Byte} {bs : List Byte} {r : Progress}
    (hav : s.available = op :: bs) (h : runActs (scriptFor op bs s) (s.started op) = .next t) (hb : t.busy = true)
    (hr : t.request = some r) :
    r.opcode = op ∧ bs = r.operands ++ t.available ∧ t.trace.length = s.trace.length + r.event := by
  obtain ⟨done, rest, mid, hscript, hg, hwithin, hend⟩ := runActs_next_of_busy h hb
  obtain ⟨-, n, htrace, hmid⟩ := hg.request hwithin (State.started_request s op)
  obtain ⟨tail, hbs⟩ := fetches_scriptFor_prefix op bs s
  rw [hscript, fetches_append, List.append_assoc] at hbs
  have hleft := hg.available ((State.started_available hav).trans hbs.symm)
  rcases hend with ⟨-, rfl⟩ | ⟨w, rfl⟩
  · obtain rfl := Option.some.inj (hmid.symm.trans hr)
    exact ⟨rfl, by simp [hleft, hbs], by simpa using htrace⟩
  · simp only [State.stalled_request, hmid, Option.map_some, Option.some.injEq] at hr
    subst hr
    have hsame : (mid.stalled w).available = mid.available := rfl
    exact ⟨rfl, by simp [hsame, hleft, hbs], by simpa using htrace⟩

/-- Where a request is in progress in both states, it is the same one: its opcode byte, its operands and more, and the
index of its next event moved by the events emitted (R34). -/
def State.RequestGoesOn (s t : State) : Prop :=
  ∀ r q, s.request = some r → t.request = some q →
    q.opcode = r.opcode ∧ r.operands <+: q.operands ∧ q.event + s.trace.length = r.event + t.trace.length

theorem State.RequestGoesOn.refl (s : State) : s.RequestGoesOn s := by
  intro r q hr hq
  obtain rfl := Option.some.inj (hr.symm.trans hq)
  exact ⟨rfl, List.prefix_rfl, rfl⟩

/-- A request goes on where operands are added to it and the index of its next event is moved by the events emitted. -/
theorem State.RequestGoesOn.of_moved {s t : State} {ops : List Byte} {es : List Event} (htrace : t.trace = s.trace ++ es)
    (hreq : ∀ r, s.request = some r →
      ∃ next out, t.request = some ⟨r.opcode, r.operands ++ ops, r.event + es.length, next, out⟩) :
    s.RequestGoesOn t := by
  intro r q hr hq
  obtain ⟨next, out, hmoved⟩ := hreq r hr
  obtain rfl := Option.some.inj (hmoved.symm.trans hq)
  refine ⟨rfl, List.prefix_append _ _, ?_⟩
  simp only [htrace, List.length_append]
  omega

/-- A request that is dropped goes on nowhere. -/
theorem State.RequestGoesOn.of_none {s t : State} (h : t.request = none) : s.RequestGoesOn t := by
  intro r q _ hq
  simp [h] at hq

/-- The log event that is due is the request's next event. -/
theorem State.requestGoesOn_logged (s : State) : s.RequestGoesOn s.logged := by
  cases hdue : s.logDue with
  | none => rw [State.logged_of_none hdue]; exact .refl s
  | some b =>
    refine .of_moved (ops := []) (es := [.l b]) ?_ fun r hr => ?_
    · simp [State.logged, hdue]
    · simp [State.logged, hdue, hr]

/-- An XWrite emits at most one event of the request. -/
theorem xwrite_requestGoesOn {b : Byte} {s t : State} (h : (xwrite b s).outcome = .next t) : s.RequestGoesOn t := by
  rw [xwrite_eq] at h
  split at h
  · split at h
    · obtain rfl := Host.Outcome.next.inj h
      exact .of_moved (ops := []) (es := []) (by simp) fun r hr => by simp [hr]
    · obtain rfl := Host.Outcome.next.inj h
      exact .of_moved (ops := []) (State.wroteByte_trace ..) fun r hr => by simp [hr]
  · simp [ActResult.outcome] at h

/-- A part of an action goes on with the request, or drops it. -/
theorem microAct_requestGoesOn {a : Act} {s t : State} (h : (microAct a s).outcome = .next t) : s.RequestGoesOn t := by
  cases a with
  | write b => exact xwrite_requestGoesOn h
  | readUnwritten => simp [microAct, runAct, ActResult.outcome] at h
  | raise c =>
    obtain rfl := Host.Outcome.next.inj h
    exact .of_none rfl
  | respond =>
    obtain rfl := Host.Outcome.next.inj h
    exact .of_none rfl
  | fetch b =>
    obtain rfl := Host.Outcome.next.inj h
    exact .of_moved (ops := [b]) (es := []) (by simp) fun r hr => by simp [hr]
  | wait us =>
    obtain rfl := Host.Outcome.next.inj h
    exact .of_moved (ops := []) (State.waited_trace s us) fun r hr => by simp [hr]
  | _ =>
    obtain rfl := Host.Outcome.next.inj h
    exact .of_moved (ops := []) (es := []) (by simp) fun r hr => by simp [hr]

/-- Everything going on one event at a time can do when it answers a next state: nothing, where the request waits or has
no action left; the log event that is due; or a part of the next action. -/
theorem resumeOnce_next {s t : State} (h : resumeOnce s = .next t) :
    t = s ∨ ∃ r, s.request = some r ∧ r.outstanding = none ∧
      ((s.logDue.isSome = true ∧ t = s.logged) ∨
       (s.logDue = none ∧ ∃ a rest, remainingActs r s = a :: rest ∧ (microAct a s).outcome = .next t)) := by
  unfold resumeOnce at h
  split at h
  · exact .inl (Host.Outcome.next.inj h).symm
  next r hreq =>
    split at h
    · exact .inl (Host.Outcome.next.inj h).symm
    next hout =>
      have hnone : r.outstanding = none := by simpa using hout
      split at h
      · next hdue => exact .inr ⟨r, hreq, hnone, .inl ⟨hdue, (Host.Outcome.next.inj h).symm⟩⟩
      next hdue =>
        cases hacts : remainingActs r s with
        | nil => exact .inl (by simpa [hacts, eq_comm] using h)
        | cons a rest =>
          exact .inr ⟨r, hreq, hnone, .inr ⟨by simpa using hdue, a, rest, hacts, by simpa [hacts] using h⟩⟩

/-- A micro-step of an engine with a request in progress goes on with it, or drops it. -/
theorem microStep_requestGoesOn {s t : State} (hb : s.busy = true) (h : microStep s = .next t) : s.RequestGoesOn t := by
  simp only [microStep, hb, if_true] at h
  split at h
  · obtain rfl := Host.Outcome.next.inj h
    exact .of_none rfl
  split at h
  · obtain rfl := Host.Outcome.next.inj h
    exact .refl s
  rcases resumeOnce_next h with rfl | ⟨r, -, -, ⟨-, rfl⟩ | ⟨-, a, rest, -, hact⟩⟩
  · exact .refl t
  · exact s.requestGoesOn_logged
  · exact microAct_requestGoesOn hact

/-! ### The obligations -/

/-- Settles O15: the layout is read off every value of the flags and of CAUSE. -/
theorem statusLayout : Obligations.StatusLayout := by
  unfold Obligations.StatusLayout
  refine ⟨fun s => ?_, fun _ _ => rfl, by decide⟩
  have layout : ∀ (busy ready fault : Bool) (cause : BitVec 4),
      let status : Byte := flagBit busy 0 ||| flagBit ready 1 ||| flagBit fault 2 ||| (cause.setWidth 8 <<< 4)
      status.getLsbD 0 = busy ∧ status.getLsbD 1 = ready ∧ status.getLsbD 2 = fault ∧ status.getLsbD 3 = false ∧
        status.extractLsb' 4 4 = cause := by decide
  exact layout s.busy s.ready s.fault s.cause

/-- Settles O11: a step writes FAULT and CAUSE by the actions it runs or by the checks of the opcode byte. -/
theorem onlyARaiseWritesCause : Obligations.OnlyARaiseWritesCause := by
  unfold Obligations.OnlyARaiseWritesCause
  refine ⟨rfl, rfl, rfl, fun s t hr h => ?_, fun s hf hr => step_of_fault hr hf,
    fun s => ⟨_, step_of_resetInput rfl, rfl, rfl⟩, rfl, rfl⟩
  rcases step_next hr h with rfl | ⟨ha, op, bs, -, hway⟩ | ⟨hf, -, r, -, -, hrun⟩
  · exact .inl ⟨rfl, rfl⟩
  · obtain ⟨-, hf, -⟩ := State.accepting_iff.mp ha
    rcases hway with ⟨c, rfl⟩ | hrun
    · exact .inr ⟨hf, rfl, c, rfl⟩
    · exact (runActs_fault hrun).imp_right fun hraise => ⟨hf, hraise⟩
  · exact (runActs_fault hrun).imp (fun hkept => by simpa using hkept) fun hraise => ⟨hf, hraise⟩

/-- Settles O39: the actions of bytes that are no INIT leave the geometry. -/
theorem onlyInitWritesGeometry : Obligations.OnlyInitWritesGeometry := by
  unfold Obligations.OnlyInitWritesGeometry
  refine ⟨fun s t hr h hchange => ?_, exec_init_next⟩
  by_contra hno
  obtain ⟨hbegin, hgoes⟩ := not_or.mp hno
  have hkept : t.cols = s.cols ∧ t.rows = s.rows ∧ t.initState = s.initState := by
    rcases step_next hr h with rfl | ⟨ha, op, bs, hav, ⟨c, rfl⟩ | hrun⟩ | ⟨-, hb, r, hreq, -, hrun⟩
    · exact ⟨rfl, rfl, rfl⟩
    · exact ⟨rfl, rfl, rfl⟩
    · refine runActs_scriptFor_keeps_geometry (s := s.started op) 0 (fun c r rest hd => hbegin ?_) hrun
      exact ⟨(State.accepting_iff.mp ha).2.2, c, r, rest, hav ▸ hd⟩
    · have hk := runActs_scriptFor_keeps_geometry r.next
        (fun c q rest hd => hgoes ⟨hb, r, hreq, (decode_request hd).1.symm⟩) hrun
      simpa using hk
  simp [hkept] at hchange

/-- Settles O60: the first thing read after the operands is what is unwritten, and nothing else stops the model. -/
theorem readingAnUnwrittenRegisterStops : Obligations.ReadingAnUnwrittenRegisterStops := by
  unfold Obligations.ReadingAnUnwrittenRegisterStops
  refine ⟨xwrite_unwritten_iff, fun x y s hr hrows => ?_, fun x y s hr hrows hb h0 h3 => ?_,
    fun i s h1 h2 h3 h4 hr hb => ?_, fun i s hcase => ?_⟩
  · rw [exec_ready _ hr]
    simp [scriptOf, gotoScript, DisplayReg.read?, hrows, runActs, runAct]
  · obtain ⟨yc, hc⟩ := clampRow_some h0 h3
    rw [exec_ready _ hr, goto_script_of_row hrows hc]
    exact runActs_fetches_write_unwritten (s := s.started _) hb [x, y] _ _
  · obtain ⟨bs, b, rest, hs⟩ := script_fetches_then_write s h1 h2 h3 h4
    rw [exec_ready _ hr, hs]
    exact runActs_fetches_write_unwritten (s := s.started _) hb bs b rest
  · by_cases hinit : ∃ c r, i = .init c r
    · obtain ⟨c, r, rfl⟩ := hinit
      exact (exec_init_next c r s).imp fun t ht => ht.1
    have hi : ∀ c r, i ≠ .init c r := fun c r h => hinit ⟨c, r, h⟩
    cases hr : s.ready with
    | false => exact ⟨_, exec_notReady hi hr⟩
    | true =>
      rw [exec_ready i hr]
      rcases hcase with h | ⟨l, rfl⟩ | rfl | h | ⟨hrows, hb⟩
      · exact absurd h hinit
      · exact runActs_answers (as := [.write 0, .respond])
          (s := (s.started (opcodeOf (.backlight l))).backlightSet (backlightMask s.cfg l)) (by simp) rfl
      · exact ⟨_, rfl⟩
      · simp [hr] at h
      · refine runActs_answers (fun hm => ?_) hb
        simp [(readUnwritten_mem_script hm).1] at hrows

/-- Settles O46: the actions up to the end of the request log each failure at once, and raise nothing. -/
theorem everyFailureIsLogged : Obligations.EveryFailureIsLogged := by
  unfold Obligations.EveryFailureIsLogged
  refine ⟨rfl, fun i s t hf h => ?_⟩
  rcases exec_ways h with ⟨-, -, rfl⟩ | ⟨-, body, z, -, -, hend⟩
  · exact ⟨[], by simp, rfl, rfl, by simp [anyFailure], by simp, by simp⟩
  rcases hend with ⟨-, m, hg, rfl⟩ | ⟨x, y, -, -, rfl⟩ | ⟨done, b, r, m, rfl, hg, -, -, hb, rfl⟩
  · obtain ⟨-, -, -, -, hfault, hcause⟩ := hg.const
    obtain ⟨es, htrace, hlogged, hfailed⟩ := hg.logs
    have hfailed' : m.failed = anyFailure es := by simpa using hfailed
    refine ⟨es ++ [.resp (responseByte m.failed)], by simp [htrace], ?_, ?_, fun _ => ⟨hfault.trans hf, hcause⟩,
      by simp, fun _ _ => List.getLast?_concat⟩
    · rw [failuresLogged_append hlogged]
      rfl
    · simpa [anyFailure_append, anyFailure] using hfailed'
  · exact ⟨[], by simp, rfl, rfl, by simp [anyFailure], by simp, by simp⟩
  · obtain ⟨-, -, -, -, hfault, hcause⟩ := hg.const
    obtain ⟨es, htrace, hlogged, hfailed⟩ := hg.logs
    refine ⟨es, htrace, hlogged, by simpa using hfailed, fun _ => ⟨hfault.trans hf, hcause⟩, fun _ => ?_,
      fun hnb => by simp [hb] at hnb⟩
    obtain ⟨-, n, -, hreq⟩ := hg.request (hg.within_of_busy hb).2 (State.started_request s _)
    simp [State.outstanding, hreq]

/-- Settles O52: at the grain of a step by the actions done, at the grain of a micro-step by the one that is. -/
theorem requestHoldsItsPosition : Obligations.RequestHoldsItsPosition := by
  unfold Obligations.RequestHoldsItsPosition
  refine ⟨fun s t r ha h hb hr => ?_, fun s t r q hb hr h hq => microStep_requestGoesOn hb h r q hr hq,
    fun _ _ => rfl, fun s => ⟨_, step_of_resetInput rfl, rfl⟩⟩
  rcases step_next_of_accepting ha h with ⟨-, rfl⟩ | ⟨op, bs, hav, ⟨-, rfl⟩ | ⟨-, -, -, rfl⟩ | ⟨-, -, hrun⟩⟩
  · simp [State.accepting, hb] at ha
  · simp at hb
  · simp at hb
  · obtain ⟨hop, hbs, htrace⟩ := request_of_begin_busy hav hrun hb hr
    exact ⟨by rw [hav, hop, ← hbs], htrace⟩

end Sys2Proof.Machine

/-! SUPPORT. The memory's obligation (20_memory): what one micro-step can do (`microStep_next`), which events it emits, and
that a whole step leaves no log event due. -/

namespace Sys2Proof.Machine

/-! ### What one micro-step can do -/

/-- The engine goes on with a request in progress: no reset, no fault, and no write that is waited for without end. -/
def State.Proceeds (s : State) : Prop :=
  s.resetInput = false ∧ s.fault = false ∧ s.busy = true ∧ ∃ r, s.request = some r ∧ r.outstanding = none

/-- An answered write leaves the engine going on with its request. -/
theorem State.Proceeds.wroteByte {s : State} (h : s.Proceeds) (b : Byte) (ack : Bool) (tr : Transport) :
    (s.wroteByte b ack tr).Proceeds := by
  obtain ⟨hr, hf, hb, r, hreq, hout⟩ := h
  exact ⟨hr, hf, hb, { r with event := r.event + 1, next := r.next + 1 }, by simp [hreq], hout⟩

/-- The fetch of an opcode byte begins its request or raises a fault (R73). -/
theorem openRequest_next {op : Byte} {s t : State} (h : openRequest op s = .next t) :
    t = s.started op ∨ ∃ c, t = (s.started op).raised c := by
  unfold openRequest at h
  split at h
  · rcases beginRequest_next h with ⟨-, -, rfl⟩ | ⟨-, hrun⟩
    · exact .inr ⟨_, rfl⟩
    · exact .inl (Host.Outcome.next.inj hrun).symm
  · exact .inr ⟨_, (Host.Outcome.next.inj h).symm⟩

/-- Everything a micro-step can do when it answers a next state: the reset; nothing; the fetch of an opcode byte, with a
fault or without; the log event that is due; or a part of the next action of the request in progress. -/
theorem microStep_next {s t : State} (h : microStep s = .next t) :
    t = s.afterReset ∨ t = s ∨ (∃ op, t = s.started op ∨ ∃ c, t = (s.started op).raised c) ∨
    (s.Proceeds ∧ ((s.logDue.isSome = true ∧ t = s.logged) ∨
      (s.logDue = none ∧ ∃ a, (microAct a s).outcome = .next t))) := by
  unfold microStep at h
  split at h
  · exact .inl (Host.Outcome.next.inj h).symm
  next hr =>
    split at h
    · exact .inr (.inl (Host.Outcome.next.inj h).symm)
    next hf =>
      split at h
      · next hb =>
        rcases resumeOnce_next h with ht | ⟨r, hreq, hout, hway⟩
        · exact .inr (.inl ht)
        · have hs : s.Proceeds := ⟨by simpa using hr, by simpa using hf, hb, r, hreq, hout⟩
          exact .inr (.inr (.inr ⟨hs, hway.imp_right fun ⟨hdue, a, _, _, hact⟩ => ⟨hdue, a, hact⟩⟩))
      · split at h
        · exact .inr (.inl (Host.Outcome.next.inj h).symm)
        · exact .inr (.inr (.inl ⟨_, openRequest_next h⟩))

/-- A log event that is due is the next micro-step of an engine that goes on (R81). -/
theorem microStep_of_logDue {s : State} {b : Byte} (h : s.Proceeds) (hdue : s.logDue = some b) :
    microStep s = .next s.logged := by
  obtain ⟨hr, hf, hb, r, hreq, hout⟩ := h
  simp [microStep, resumeOnce, hr, hf, hb, hreq, hout, hdue]

/-! ### The events of a micro-step -/

theorem State.logged_trace_of_some {s : State} {b : Byte} (h : s.logDue = some b) :
    s.logged.trace = s.trace ++ [.l b] := by
  simp [State.logged, h]

theorem waitEvents_length_le_one (us : Nat) : (waitEvents us).length ≤ 1 := by
  unfold waitEvents
  split <;> simp

/-- Between the two states at most one event came, and it is no `W` event. -/
def State.EmitsNoWrite (s t : State) : Prop :=
  ∃ es, t.trace = s.trace ++ es ∧ es.length ≤ 1 ∧ writtenBytes es = []

theorem State.EmitsNoWrite.of_trace_eq {s t : State} (h : t.trace = s.trace) : s.EmitsNoWrite t :=
  ⟨[], by simp [h], Nat.zero_le 1, rfl⟩

/-- An action, up to the log event of its write, is an answered write, or emits at most one event, no write (R14). -/
theorem microAct_emits {a : Act} {s t : State} (h : (microAct a s).outcome = .next t) :
    s.EmitsNoWrite t ∨ ∃ b ack tr, t = s.wroteByte b ack tr := by
  cases a with
  | write b =>
    simp only [microAct, xwrite_eq] at h
    split at h
    · split at h
      · obtain rfl := Host.Outcome.next.inj h
        exact .inl (.of_trace_eq rfl)
      · exact .inr ⟨_, _, _, (Host.Outcome.next.inj h).symm⟩
    · simp [ActResult.outcome] at h
  | readUnwritten => simp [microAct, runAct, ActResult.outcome] at h
  | wait us =>
    obtain rfl := Host.Outcome.next.inj h
    exact .inl ⟨_, State.waited_trace s us, waitEvents_length_le_one us, writtenBytes_waitEvents us⟩
  | respond =>
    obtain rfl := Host.Outcome.next.inj h
    exact .inl ⟨_, State.responded_trace s, Nat.le_refl 1, rfl⟩
  | _ =>
    obtain rfl := Host.Outcome.next.inj h
    exact .inl (.of_trace_eq rfl)

/-- A micro-step emits at most one event, no write, or is an answered write of an engine that goes on. -/
theorem microStep_emits {s t : State} (h : microStep s = .next t) :
    s.EmitsNoWrite t ∨ (s.Proceeds ∧ ∃ b ack tr, t = s.wroteByte b ack tr) := by
  rcases microStep_next h with rfl | rfl | ⟨op, rfl | ⟨c, rfl⟩⟩ | ⟨hs, ⟨hdue, rfl⟩ | ⟨-, a, hact⟩⟩
  · exact .inl (.of_trace_eq rfl)
  · exact .inl (.of_trace_eq rfl)
  · exact .inl (.of_trace_eq rfl)
  · exact .inl (.of_trace_eq rfl)
  · obtain ⟨b, hb⟩ := Option.isSome_iff_exists.mp hdue
    exact .inl ⟨_, State.logged_trace_of_some hb, Nat.le_refl 1, rfl⟩
  · exact (microAct_emits hact).imp_right fun hwrote => ⟨hs, hwrote⟩

theorem microStep_emits_at_most_one {s t : State} (h : microStep s = .next t) :
    ∃ es, t.trace = s.trace ++ es ∧ es.length ≤ 1 := by
  rcases microStep_emits h with ⟨es, htrace, hlen, -⟩ | ⟨-, b, ack, tr, rfl⟩
  · exact ⟨es, htrace, hlen⟩
  · exact ⟨_, State.wroteByte_trace .., Nat.le_refl 1⟩

/-- The micro-step after a failed write emits its log event (R81). -/
theorem microStep_logs_failed_write {s t : State} {b : Byte} (h : microStep s = .next t)
    (htrace : t.trace = s.trace ++ [.w b false]) : ∃ u, microStep t = .next u ∧ u.trace = t.trace ++ [.l b] := by
  rcases microStep_emits h with ⟨es, hes, -, hnone⟩ | ⟨hs, b', ack, tr, rfl⟩
  · obtain rfl : es = [.w b false] := List.append_cancel_left (hes.symm.trans htrace)
    simp [writtenBytes] at hnone
  · obtain ⟨rfl, rfl⟩ : b' = b ∧ ack = false := by simpa using htrace
    have hdue : (s.wroteByte b' false tr).logDue = some b' := rfl
    exact ⟨_, microStep_of_logDue (hs.wroteByte b' false tr) hdue, State.logged_trace_of_some hdue⟩

/-! ### The log event due after a whole step -/

/-- Running actions leaves no log event due where none was: each failure is logged in its own action (R81). -/
theorem runActs_logDue {as : List Act} {s t : State} (h : runActs as s = .next t) (hs : s.logDue = none) :
    t.logDue = none := by
  obtain ⟨done, rest, mid, -, hg, hend⟩ := runActs_next h
  have hmid : mid.logDue = none := hg.logDue hs
  rcases hend with ⟨-, rfl⟩ | ⟨b, rest', -, -, -, rfl⟩ | ⟨c, rest', -, rfl⟩ <;> exact hmid

/-- A whole step leaves no log event due where none was. -/
theorem step_logDue {s t : State} (hs : s.logDue = none) (h : step s = .next t) : t.logDue = none := by
  cases hr : s.resetInput with
  | true =>
    obtain rfl := Host.Outcome.next.inj ((step_of_resetInput hr).symm.trans h)
    rfl
  | false =>
    rcases step_next hr h with rfl | ⟨-, op, bs, -, ⟨c, rfl⟩ | hrun⟩ | ⟨-, -, r, -, -, hrun⟩
    · exact hs
    · rfl
    · exact runActs_logDue hrun rfl
    · exact runActs_logDue hrun (State.logged_logDue s)

/-! ### The obligation -/

/-- Settles O53: an answered write is a micro-step of its own and leaves its log event due, which only a reset drops; a
whole step runs the log event with its write. -/
theorem eventsComeOneAtATime : Obligations.EventsComeOneAtATime := by
  unfold Obligations.EventsComeOneAtATime
  exact ⟨fun _ _ => microStep_emits_at_most_one, fun _ _ _ => microStep_logs_failed_write,
    fun s => ⟨rfl, s.assertReset.afterReset, rfl, rfl, rfl, rfl⟩, rfl, fun _ _ => step_logDue⟩

end Sys2Proof.Machine

/-! SUPPORT. The encoding's obligation (30_encoding): which opcode bytes are illegal (R71), and what decoding and fetching
one does. -/

namespace Sys2Proof

theorem definedOp_eq_false_iff : ∀ o : Nibble, definedOp o = false ↔ o = 0x0 ∨ o = 0xD ∨ o = 0xE ∨ o = 0xF := by decide

/-- The four groups of defined OPs, each with the mask of its reserved F bits (R71). -/
theorem reservedBits_cases : ∀ o : Nibble, definedOp o = true →
    ((o = 0x4 ∨ o = 0x6) ∧ reservedBits o = 0xC) ∨ (o = 0x5 ∧ reservedBits o = 0x8) ∨
    ((o = 0x9 ∨ o = 0xB) ∧ reservedBits o = 0xE) ∨
    ((o = 0x1 ∨ o = 0x2 ∨ o = 0x3 ∨ o = 0x7 ∨ o = 0x8 ∨ o = 0xA ∨ o = 0xC) ∧ reservedBits o = 0xF) := by decide

/-- R71's second list: OP is a defined one, and F has a bit set that is reserved for it. -/
def reservedFlagSet (o f : Nibble) : Prop :=
  ((o = 0x4 ∨ o = 0x6) ∧ f &&& 0xC ≠ 0) ∨
  (o = 0x5 ∧ f &&& 0x8 ≠ 0) ∨
  ((o = 0x9 ∨ o = 0xB) ∧ f &&& 0xE ≠ 0) ∨
  ((o = 0x1 ∨ o = 0x2 ∨ o = 0x3 ∨ o = 0x7 ∨ o = 0x8 ∨ o = 0xA ∨ o = 0xC) ∧ f ≠ 0)

/-- The mask of a defined OP selects just the F bits that R71 reserves for it. -/
theorem reservedBits_and_ne_zero_iff {o : Nibble} (f : Nibble) (h : definedOp o = true) :
    reservedBits o &&& f ≠ 0 ↔ reservedFlagSet o f := by
  rcases reservedBits_cases o h with ⟨ho, hm⟩ | ⟨ho, hm⟩ | ⟨ho, hm⟩ | ⟨ho, hm⟩ <;> rw [hm, BitVec.and_comm]
  · rcases ho with rfl | rfl <;> simp [reservedFlagSet]
  · simp [reservedFlagSet, ho]
  · rcases ho with rfl | rfl <;> simp [reservedFlagSet]
  · rw [show f &&& 0xF = f from BitVec.and_allOnes]
    rcases ho with rfl | rfl | rfl | rfl | rfl | rfl | rfl <;> simp [reservedFlagSet]

/-- R71: an opcode byte is illegal where its OP is no request's, or a reserved F bit is set. -/
theorem legalOpcode_eq_false_iff (op : Byte) : legalOpcode op = false ↔
    (opField op = 0x0 ∨ opField op = 0xD ∨ opField op = 0xE ∨ opField op = 0xF) ∨
    reservedFlagSet (opField op) (flagField op) := by
  rw [← definedOp_eq_false_iff]
  cases hd : definedOp (opField op) with
  | false => simp [legalOpcode, hd]
  | true => simp [legalOpcode, hd, ← reservedBits_and_ne_zero_iff (flagField op) hd]

/-- An opcode byte is answered as illegal just where it is, whatever follows it (R71, R74). -/
theorem decode_cons_illegal_iff (op : Byte) (bs : List Byte) :
    decode (op :: bs) = .illegal op ↔ legalOpcode op = false := by
  refine ⟨fun hd => ?_, decode_cons_illegal bs⟩
  by_contra hl
  rcases decode_cons_legal bs (by simpa using hl) with ⟨i, rest, hreq⟩ | hinc
  · simp [hreq] at hd
  · simp [hinc] at hd

end Sys2Proof

namespace Sys2Proof.Machine

/-- Rejecting an opcode byte is IllegalRequest with that byte alone fetched (R162). -/
theorem rejectOpcode_eq_afterFault (op : Byte) (s : State) : rejectOpcode op s = .next (s.afterFault 1 1) := rfl

/-- An engine that fetches an illegal opcode byte raises IllegalRequest (R71, R162). -/
theorem step_of_illegal {s : State} {op : Byte} {bs : List Byte} (h : s.accepting = true)
    (ha : s.available = op :: bs) (hl : legalOpcode op = false) : step s = .next (s.afterFault 1 1) := by
  simp [step_of_accepting h ha, hl, rejectOpcode_eq_afterFault]

/-- Settles O4: R71's groups are the reserved-bit masks of the decoder, and the step rejects what the decoder does. -/
theorem illegalEncodingsRaise : Obligations.IllegalEncodingsRaise := by
  unfold Obligations.IllegalEncodingsRaise
  exact ⟨legalOpcode_eq_false_iff, decode_cons_illegal_iff, fun _ _ _ => step_of_illegal⟩

end Sys2Proof.Machine

/-! SUPPORT. The nibble protocol's obligations (40_nibble_protocol): the phase bytes, which opcode bytes a request's
reserved flags make illegal, which writes the Transport is asked for, and that a response ends its request. -/

namespace Sys2Proof.Machine

/-! ### The phases of a byte -/

/-- The base byte of a high nibble keeps bits 7:4 where they are (R84). -/
theorem baseByte_hiNibble {cfg : Config} (h : cfg.dataShift = 4) (v m : Byte) :
    baseByte cfg (hiNibble v) m = (v &&& 0xF0) ||| m := by
  have high : ∀ v : Byte, (hiNibble v).setWidth 8 <<< 4 = v &&& 0xF0 := by decide
  rw [baseByte, h, high]

/-- The base byte of a low nibble moves bits 3:0 up (R84). -/
theorem baseByte_loNibble {cfg : Config} (h : cfg.dataShift = 4) (v m : Byte) :
    baseByte cfg (loNibble v) m = ((v &&& 0x0F) <<< 4) ||| m := by
  have low : ∀ v : Byte, (loNibble v).setWidth 8 <<< 4 = (v &&& 0x0F) <<< 4 := by decide
  rw [baseByte, h, low]

/-- Writes that all succeed are their `W` events, with nothing between. -/
theorem busEvents_writes_succeed (mask : Byte) (bs : List Byte) :
    busEvents mask (bs.map .write) (List.replicate bs.length true) = bs.map fun b => .w (b ||| mask) true := by
  induction bs with
  | nil => rfl
  | cons b bs ih => simpa [busEvents, List.replicate_succ] using ih

/-! ### Illegal opcode bytes and NotReady -/

/-- Reserved flags are illegal where the opcode bytes that have one set are. -/
theorem reservedFlagsIllegal_of_not_legal {op reserved : Byte}
    (h : ∀ f : Byte, f &&& 0xF0 = 0 → f &&& reserved ≠ 0 → legalOpcode (op ||| f) = false) :
    ReservedFlagsIllegal op reserved :=
  fun f bs hop hf => decode_cons_illegal bs (h f hop hf)

/-- Every request but INIT is refused until READY = 1 (R163). -/
theorem refusedUntilReady {i : Instr} (hi : ∀ c r, i ≠ .init c r) : RefusedUntilReady i :=
  fun _ hr => exec_notReady hi hr

/-! ### The writes that the Transport is asked for -/

/-- These events came between the two states, and the Transport was asked for exactly their writes, in order (R80). -/
def State.AsksFor (s t : State) (es : List Event) : Prop :=
  t.trace = s.trace ++ es ∧
    t.transport.calls = s.transport.calls ++ (writtenBytes es).map (busWrite s.cfg)

/-- Events without a `W` event among them ask for nothing. -/
theorem State.AsksFor.of_no_write {s t : State} {es : List Event} (htrace : t.trace = s.trace ++ es)
    (hcalls : t.transport.calls = s.transport.calls) (hes : writtenBytes es = []) : s.AsksFor t es :=
  ⟨htrace, by simp [hcalls, hes]⟩

theorem State.AsksFor.of_silent {s t : State} (htrace : t.trace = s.trace)
    (hcalls : t.transport.calls = s.transport.calls) : s.AsksFor t [] :=
  .of_no_write (by simp [htrace]) hcalls rfl

theorem State.AsksFor.trans {s t u : State} {es fs : List Event} (h : s.AsksFor t es) (hc : t.cfg = s.cfg)
    (h' : t.AsksFor u fs) : s.AsksFor u (es ++ fs) := by
  obtain ⟨htrace, hcalls⟩ := h
  obtain ⟨htrace', hcalls'⟩ := h'
  exact ⟨by rw [htrace', htrace, List.append_assoc], by simp [hcalls', hcalls, hc]⟩

/-- An answered XWriteL asks for the write of its `W` event (R14, R81). -/
theorem State.asksFor_wrote {s : State} {t : Transport} (b : Byte) (ack : Bool)
    (h : t.calls = s.transport.calls) :
    s.AsksFor (s.wrote b ack (t.recorded (busWrite s.cfg b))) (loggedWrite b ack) :=
  ⟨State.wrote_trace .., by simp [h]⟩

/-- The log event that is due asks for nothing. -/
theorem State.asksFor_logged (s : State) : ∃ es, s.AsksFor s.logged es := by
  cases hdue : s.logDue with
  | none => exact ⟨[], .of_silent (by rw [State.logged_of_none hdue]) (by rw [State.logged_of_none hdue])⟩
  | some b => exact ⟨[.l b], .of_no_write (State.logged_trace_of_some hdue) (by simp) rfl⟩

/-- One action that goes on asks for the write of its `W` event, if it has one. -/
theorem runAct_asksFor {a : Act} {s t : State} (h : runAct a s = .goesOn t) : ∃ es, s.AsksFor t es := by
  rcases runAct_goesOn h with ⟨b, rfl, rfl⟩ | ⟨c, r, m, rfl, rfl⟩ | ⟨m, rfl, rfl⟩ | ⟨i, rfl, rfl⟩ |
    ⟨b, ack, t, rfl, -, hn, rfl⟩ | ⟨us, rfl, rfl⟩ | ⟨rfl, rfl⟩
  case inr.inr.inr.inr.inl => exact ⟨_, State.asksFor_wrote _ ack (Transport.next?_calls hn)⟩
  case inr.inr.inr.inr.inr.inl => exact ⟨_, .of_no_write (State.waited_trace s us) rfl (writtenBytes_waitEvents us)⟩
  case inr.inr.inr.inr.inr.inr => exact ⟨_, .of_no_write (State.responded_trace s) rfl rfl⟩
  all_goals exact ⟨[], .of_silent rfl rfl⟩

/-- Actions that go on ask for the writes of their `W` events. -/
theorem GoesOn.asksFor {as : List Act} {s t : State} (h : GoesOn as s t) : ∃ es, s.AsksFor t es := by
  induction h with
  | nil s => exact ⟨[], .of_silent rfl rfl⟩
  | cons ha _ ih =>
    obtain ⟨es, hes⟩ := runAct_asksFor ha
    obtain ⟨fs, hfs⟩ := ih
    obtain ⟨hcfg, -⟩ := runAct_goesOn_const ha
    exact ⟨es ++ fs, hes.trans hcfg hfs⟩

/-- Running actions asks for the writes of their `W` events: one that is not answered has none yet (R166). -/
theorem runActs_asksFor {as : List Act} {s t : State} (h : runActs as s = .next t) : ∃ es, s.AsksFor t es := by
  obtain ⟨done, rest, mid, -, hg, hend⟩ := runActs_next h
  obtain ⟨es, hes⟩ := hg.asksFor
  refine ⟨es, ?_⟩
  rcases hend with ⟨-, rfl⟩ | ⟨b, rest', -, -, -, rfl⟩ | ⟨c, rest', -, rfl⟩ <;> exact hes

/-- A step asks for the writes of its `W` events. -/
theorem step_asksFor {s t : State} (h : step s = .next t) : ∃ es, s.AsksFor t es := by
  cases hr : s.resetInput with
  | true =>
    obtain rfl := Host.Outcome.next.inj ((step_of_resetInput hr).symm.trans h)
    exact ⟨[], .of_silent rfl rfl⟩
  | false =>
    rcases step_next hr h with rfl | ⟨-, op, bs, -, ⟨c, rfl⟩ | hrun⟩ | ⟨-, -, r, -, -, hrun⟩
    · exact ⟨[], .of_silent rfl rfl⟩
    · exact ⟨[], .of_silent rfl rfl⟩
    · exact runActs_asksFor (s := s.started op) hrun
    · obtain ⟨es, hes⟩ := s.asksFor_logged
      obtain ⟨fs, hfs⟩ := runActs_asksFor hrun
      exact ⟨es ++ fs, hes.trans (State.logged_cfg s) hfs⟩

/-- A request that is left waiting has one write outstanding, of a byte under BLMASK; one that ended has none (R50,
R166). -/
theorem exec_outstanding {i : Instr} {s t : State} (h : exec i s = .next t) :
    (t.busy = false ∧ t.outstanding = none) ∨
    (t.busy = true ∧ ∃ b, t.outstanding = some (busWrite s.cfg (b ||| t.blmask.value))) := by
  rcases exec_ways h with
    ⟨-, -, rfl⟩ | ⟨-, body, z, -, -, ⟨-, m, -, rfl⟩ | ⟨x, y, -, -, rfl⟩ | ⟨done, b, r, m, -, hg, -, -, hb, rfl⟩⟩
  · exact .inl ⟨rfl, rfl⟩
  · exact .inl ⟨rfl, rfl⟩
  · exact .inl ⟨rfl, rfl⟩
  · obtain ⟨-, n, -, hreq⟩ := hg.request (hg.within_of_busy hb).2 (State.started_request s _)
    obtain ⟨hcfg, -⟩ := hg.const
    exact .inr ⟨hb, b, by simp [State.outstanding, hreq, hcfg]⟩

/-! ### The response -/

/-- These events came between the two states, and no response is among them. -/
def State.EmitsNoResponse (s t : State) (es : List Event) : Prop :=
  t.trace = s.trace ++ es ∧ ∀ r, Event.resp r ∉ es

theorem resp_not_mem_loggedWrite (b : Byte) (ack : Bool) (r : Byte) : Event.resp r ∉ loggedWrite b ack := by
  cases ack <;> simp [loggedWrite]

theorem resp_not_mem_waitEvents (us : Nat) (r : Byte) : Event.resp r ∉ waitEvents us := by
  unfold waitEvents
  split <;> simp

/-- Of the actions that go on, only Respond emits a response (R82). -/
theorem runAct_emitsNoResponse {a : Act} {s t : State} (h : runAct a s = .goesOn t) (ha : a.within = true) :
    ∃ es, s.EmitsNoResponse t es := by
  rcases runAct_goesOn h with ⟨b, rfl, rfl⟩ | ⟨c, r, m, rfl, rfl⟩ | ⟨m, rfl, rfl⟩ | ⟨i, rfl, rfl⟩ |
    ⟨b, ack, t, rfl, -, -, rfl⟩ | ⟨us, rfl, rfl⟩ | ⟨rfl, rfl⟩
  case inr.inr.inr.inr.inl => exact ⟨_, State.wrote_trace .., resp_not_mem_loggedWrite _ ack⟩
  case inr.inr.inr.inr.inr.inl => exact ⟨_, State.waited_trace s us, resp_not_mem_waitEvents us⟩
  case inr.inr.inr.inr.inr.inr => simp [Act.within] at ha
  all_goals exact ⟨[], by simp, by simp⟩

/-- Actions that do not end their request emit no response. -/
theorem GoesOn.emitsNoResponse {as : List Act} {s t : State} (h : GoesOn as s t) (has : as.all Act.within = true) :
    ∃ es, s.EmitsNoResponse t es := by
  induction h with
  | nil => exact ⟨[], by simp, by simp⟩
  | cons ha _ ih =>
    rw [List.all_cons, Bool.and_eq_true] at has
    obtain ⟨hact, hrest⟩ := has
    obtain ⟨es, htrace, hes⟩ := runAct_emitsNoResponse ha hact
    obtain ⟨fs, htrace', hfs⟩ := ih hrest
    exact ⟨es ++ fs, by rw [htrace', htrace, List.append_assoc], fun r => by simp [hes r, hfs r]⟩

/-! ### The obligations -/

/-- Settles O31: SENDBYTE fetches its operand, puts the items of its SendByte on the bus and responds. -/
theorem sendbyteSendsOneByte : Obligations.SendbyteSendsOneByte := by
  unfold Obligations.SendbyteSendsOneByte
  refine ⟨reservedFlagsIllegal_of_not_legal (by decide), fun v mode => ⟨?_, refusedUntilReady (by simp), ?_⟩⟩
  · cases mode <;> rfl
  · intro s hw ha
    have hscript : scriptOf (.sendbyte v mode) s =
        [v].map .fetch ++ ((sendByteItems s.cfg v mode).map BusItem.toAct ++ [.respond]) := by
      simp [scriptOf, sendbyteScript, sendByteActs_items]
    rw [exec_begin, hscript]
    exact begin_items s _ [v] _ hw (by simpa using ha)

/-- Settles O32: WRRAW is a request of one bus item, whose one answer says which events and which response there are. -/
theorem wrrawWritesOneByte : Obligations.WrrawWritesOneByte := by
  unfold Obligations.WrrawWritesOneByte
  refine ⟨reservedFlagsIllegal_of_not_legal (by decide), fun b => ⟨rfl, refusedUntilReady (by simp), ?_⟩⟩
  intro s ack rest hw hn
  have ha : s.transport.answers 1 = true := (Transport.answers_succ 0 _).mpr ⟨ack, rest, hn, rfl⟩
  have hrun : exec (.wrraw b) s = .next (s.afterRequest 2 s.blmask.value [.write b]) := by
    rw [exec_begin]
    exact begin_items s _ [b] [.write b] hw ha
  rw [hrun]
  have hcalls := Transport.next?_calls hn
  cases ack <;>
    simp [State.afterRequest, writeCount, Transport.take_succ hn, Transport.take, busEvents, busBytes,
      Transport.recorded, hcalls]

/-- Settles O48: the actions before Respond emit no response, and a request that faults or waits has not come to it. -/
theorem responseIsLastAndOnly : Obligations.ResponseIsLastAndOnly := by
  unfold Obligations.ResponseIsLastAndOnly
  intro i s t hf h
  rcases exec_ways h with
    ⟨-, -, rfl⟩ | ⟨-, body, z, -, hbody, ⟨-, m, hg, rfl⟩ | ⟨x, y, -, -, rfl⟩ | ⟨done, b, r, m, -, hg, -, -, hb, rfl⟩⟩
  · exact ⟨[], by simp, by simp⟩
  · obtain ⟨es, htrace, hes⟩ := hg.emitsNoResponse hbody
    obtain ⟨-, -, -, -, hfault, -⟩ := hg.const
    have hends : (m.responded.busy || m.responded.fault) = false := hfault.trans hf
    refine ⟨es, hes, ?_⟩
    rw [hends, State.responded_trace, htrace]
    rfl
  · exact ⟨[], by simp, by simp⟩
  · obtain ⟨es, htrace, hes⟩ := hg.emitsNoResponse (hg.within_of_busy hb).2
    exact ⟨es, hes, by simp [htrace, hb]⟩

/-- Settles O54: by what a step asks the Transport for, and the write that a request is left waiting for. -/
theorem everyWriteCallsTheTransport : Obligations.EveryWriteCallsTheTransport := by
  unfold Obligations.EveryWriteCallsTheTransport
  refine ⟨fun _ _ => rfl, fun s t => step_asksFor, fun i s t h => ?_⟩
  rcases exec_outstanding h with ⟨hb, hout⟩ | ⟨hb, hout⟩
  · exact ⟨fun _ => hout, fun hbusy => by simp [hb] at hbusy⟩
  · exact ⟨fun hidle => by simp [hb] at hidle, fun _ => hout⟩

/-- Settles O17: the phases of the high nibble, then those of the low one, each under the mask. -/
theorem sendByteIsEightPhases : Obligations.SendByteIsEightPhases := by
  unfold Obligations.SendByteIsEightPhases
  intro cfg v mask mode hshift m h l phases
  have hitems : sendByteItems cfg v mode = phases.map BusItem.write := by
    simp [sendByteItems, sendByteBytes, nibbleBytes, baseByte_hiNibble hshift, baseByte_loNibble hshift, phases, h, l, m]
  refine ⟨hitems, ?_, rfl, rfl⟩
  rw [hitems]
  exact busEvents_writes_succeed mask phases

end Sys2Proof.Machine

/-! SUPPORT. The initialization's obligations (41_initialization): INIT behind its registers is a list of stages, each
some writes and waits and then a move of INIT_STATE (R100, R101); what stages do when every write is answered
(`runActs_stages`), and where a write that is not answered leaves them (`runActs_stages_stall`). -/

namespace Sys2Proof.Machine

/-! ### Stages -/

/-- A stage of INIT: writes and waits, then the state that INIT_STATE moves to. -/
structure InitStage where
  items : List BusItem
  next : InitState

/-- The actions of a stage. -/
def InitStage.acts (g : InitStage) : List Act := g.items.map BusItem.toAct ++ [.setInitState g.next]

/-- INIT_STATE after stages that all come to their end. -/
def stagesEnd (i : InitState) (gs : List InitStage) : InitState := gs.foldl (fun _ g => g.next) i

/-- INIT_STATE while write `k` of the stages stands. -/
def stageStateAtWrite : InitState → List InitStage → Nat → InitState
  | i, [], _ => i
  | i, g :: gs, k => if k < writeCount g.items then i else stageStateAtWrite g.next gs (k - writeCount g.items)

/-- A full command of INIT as bus items (R100, D13). -/
def initCommandItems (cfg : Config) (v : Byte) : List BusItem :=
  sendByteItems cfg v .command ++ [.wait cfg.initCmdSettleUs]

/-- A resync of INIT as bus items, after the wait before it (R100). -/
def resyncItems (cfg : Config) (us : Nat) : List BusItem :=
  .wait us :: sendCommandItems cfg (cfg.resyncNibble.setWidth 8)

/-- The stages of INIT once its registers are written (R101). -/
def initStages (cfg : Config) : List InitStage :=
  [⟨resyncItems cfg cfg.powerupWaitUs, .eightBitFallback1⟩,
   ⟨resyncItems cfg cfg.resync1WaitUs, .eightBitFallback2⟩,
   ⟨resyncItems cfg cfg.resync2WaitUs, .eightBitFallback3⟩,
   ⟨.wait cfg.resync3WaitUs :: initCommandItems cfg homeCommand, .fourBitConfirmed⟩,
   ⟨initCommandItems cfg (functionSetCommand false true false), .functionSet⟩,
   ⟨initCommandItems cfg (displayCommand true false false), .displayConfigured⟩,
   ⟨initCommandItems cfg clearCommand ++ initCommandItems cfg (entryCommand true false), .entryModeSet⟩,
   ⟨[], .ready⟩]

/-- Behind its registers INIT runs its stages and responds. -/
theorem initTail_stages (cfg : Config) : initTail cfg = (initStages cfg).flatMap InitStage.acts ++ [.respond] := by
  simp [initTail, initScript, initStages, InitStage.acts, resyncActs, resyncItems, initCommandActs, initCommandItems,
    sendByteActs_items, sendCommandActs_items, BusItem.toAct]

@[simp] theorem writeCount_initCommandItems (cfg : Config) (v : Byte) : writeCount (initCommandItems cfg v) = 8 := by
  simp [initCommandItems]

@[simp] theorem writeCount_resyncItems (cfg : Config) (us : Nat) : writeCount (resyncItems cfg us) = 3 := by
  simp [resyncItems, writeCount]

/-- INIT makes 49 writes (R100). -/
theorem writeCount_initStages (cfg : Config) : writeCount ((initStages cfg).flatMap InitStage.items) = 49 := by
  simp [initStages, writeCount]

/-- The stages of INIT put INIT_STATE at each write where the table has it (R101). -/
theorem stageStateAtWrite_initStages (cfg : Config) {k : Nat} (hk : k < 49) :
    stageStateAtWrite .poweredUnknown (initStages cfg) k = initStateAtWrite k := by
  simp only [initStages, stageStateAtWrite, writeCount, writeCount_resyncItems, writeCount_initCommandItems,
    writeCount_append]
  revert k
  decide

/-! ### The writes of INIT_STATE -/

theorem initStateWrites_append (as bs : List Act) :
    initStateWrites (as ++ bs) = initStateWrites as ++ initStateWrites bs := by
  induction as with
  | nil => rfl
  | cons a as ih => cases a <;> simp [initStateWrites, ih]

theorem initStateWrites_items (items : List BusItem) : initStateWrites (items.map BusItem.toAct) = [] := by
  induction items with
  | nil => rfl
  | cons i items ih => cases i <;> exact ih

/-- Stages write INIT_STATE once each. -/
theorem initStateWrites_stages (gs : List InitStage) :
    initStateWrites (gs.flatMap InitStage.acts) = gs.map InitStage.next := by
  induction gs with
  | nil => rfl
  | cons g gs ih =>
    simp [InitStage.acts, initStateWrites_append, initStateWrites_items, initStateWrites, ih]

/-! ### Running stages -/

theorem State.afterBus_nil (s : State) : s.afterBus [] = s := by
  simp [State.afterBus, writeCount, Transport.take, busEvents, busBytes]

/-- Items put on the bus one list after the other. -/
theorem State.afterBus_append {s : State} {is : List BusItem} (h : s.transport.answers (writeCount is) = true)
    (js : List BusItem) : (s.afterBus is).afterBus js = s.afterBus (is ++ js) := by
  have hevents := fun (mask : Byte) (acks : List Bool) =>
    busEvents_append (mask := mask) (js := js) (bs := acks) (Transport.take_length h)
  cases hreq : s.request <;>
    simp [State.afterBus, Transport.take_add h, hevents, hreq, Nat.add_assoc, Bool.or_assoc]

/-- Stages whose writes are all answered put their items on the bus and move INIT_STATE to the last one's state. -/
theorem runActs_stages (gs : List InitStage) {s : State} (hw : s.blmask.written = true) (hl : s.logDue = none)
    (ha : s.transport.answers (writeCount (gs.flatMap InitStage.items)) = true) :
    runActs (gs.flatMap InitStage.acts ++ [.respond]) s =
      .next { (s.afterBus (gs.flatMap InitStage.items)).responded with initState := stagesEnd s.initState gs } := by
  induction gs generalizing s with
  | nil =>
    rw [List.flatMap_nil, List.flatMap_nil, State.afterBus_nil]
    rfl
  | cons g gs ih =>
    rw [List.flatMap_cons, writeCount_append, Transport.answers_add, Bool.and_eq_true] at ha
    obtain ⟨hg, hgs⟩ := ha
    rw [List.flatMap_cons, List.flatMap_cons, InitStage.acts, List.append_assoc, List.append_assoc,
      (goesOn_bus g.items s hw hl hg).runActs_append, ← State.afterBus_append hg]
    exact ih (s := (s.afterBus g.items).initStateSet g.next) hw hl (by simpa [State.afterBus] using hgs)

/-- Where the Transport answers fewer writes than the items have, the request waits, with INIT_STATE as it was. -/
theorem runActs_items_stall (items : List BusItem) (rest : List Act) {s : State} {k : Nat}
    (hw : s.blmask.written = true) (hk : k < writeCount items) (ha : s.transport.answers k = true)
    (hn : s.transport.answers (k + 1) = false) :
    ∃ t, runActs (items.map BusItem.toAct ++ rest) s = .next t ∧ t.busy = s.busy ∧ t.fault = s.fault ∧
      t.initState = s.initState := by
  induction items generalizing s k with
  | nil => simp [writeCount] at hk
  | cons i items ih =>
    cases i with
    | wait us => exact ih (s := s.waited us) hw hk ha hn
    | write b =>
      simp only [List.map_cons, BusItem.toAct, List.cons_append, runActs, runAct_write, hw, if_true]
      cases hnext : s.transport.next? with
      | none => exact ⟨_, rfl, rfl, rfl, rfl⟩
      | some p =>
        obtain ⟨ack, tr⟩ := p
        cases k with
        | zero => simp [Transport.answers, hnext] at hn
        | succ k =>
          rw [Transport.answers, hnext] at ha hn
          simpa using ih
            (s := s.wrote (b ||| s.blmask.value) ack (tr.recorded (busWrite s.cfg (b ||| s.blmask.value))))
            (by simpa using hw) (Nat.lt_of_succ_lt_succ hk) (by simpa using ha) (by simpa using hn)

/-- Where the Transport answers `k` writes of the stages and no more, the request waits at the state of write `k`. -/
theorem runActs_stages_stall (gs : List InitStage) (rest : List Act) {s : State} {k : Nat}
    (hw : s.blmask.written = true) (hl : s.logDue = none) (hk : k < writeCount (gs.flatMap InitStage.items))
    (ha : s.transport.answers k = true) (hn : s.transport.answers (k + 1) = false) :
    ∃ t, runActs (gs.flatMap InitStage.acts ++ rest) s = .next t ∧ t.busy = s.busy ∧ t.fault = s.fault ∧
      t.initState = stageStateAtWrite s.initState gs k := by
  induction gs generalizing s k with
  | nil => simp [writeCount] at hk
  | cons g gs ih =>
    rw [List.flatMap_cons, writeCount_append] at hk
    rw [List.flatMap_cons, InitStage.acts, List.append_assoc, List.append_assoc, stageStateAtWrite]
    by_cases hlt : k < writeCount g.items
    · rw [if_pos hlt]
      exact runActs_items_stall g.items _ hw hlt ha hn
    · obtain ⟨j, rfl⟩ := Nat.exists_eq_add_of_le (Nat.le_of_not_lt hlt)
      rw [Transport.answers_add, Bool.and_eq_true] at ha
      obtain ⟨hg, hj⟩ := ha
      rw [Nat.add_assoc, Transport.answers_add, hg, Bool.true_and] at hn
      rw [if_neg hlt, Nat.add_sub_cancel_left, (goesOn_bus g.items s hw hl hg).runActs_append]
      exact ih (s := (s.afterBus g.items).initStateSet g.next) hw hl (Nat.lt_of_add_lt_add_left hk)
        (by simpa [State.afterBus] using hj) (by simpa [State.afterBus] using hn)

/-! ### INIT -/

/-- INIT whose 49 writes are answered, whatever the answers are (R100, R103). -/
theorem exec_init_completes (c r : Byte) {s : State} (ha : s.transport.answers 49 = true) :
    exec (.init c r) s = .next { s.afterRequest 3 (backlightMask s.cfg s.cfg.initBacklight)
        ((initStages s.cfg).flatMap InitStage.items) with
      cols := .of c, rows := .of r, blmask := .of (backlightMask s.cfg s.cfg.initBacklight), initState := .ready } := by
  rw [← writeCount_initStages s.cfg] at ha
  rw [exec_init, initTail_stages]
  refine (runActs_stages (initStages s.cfg) (by rfl) (by rfl) (by exact ha)).trans ?_
  simp [State.afterBus, State.afterRequest, State.responded, State.started, State.fetched, State.initStateSet,
    State.installed, State.advanced, responseByte, DisplayReg.of, stagesEnd, initStages]

/-- INIT where the Transport answers `k` of its writes and no more (R101). -/
theorem exec_init_stalls (c r : Byte) {s : State} {k : Nat} (hk : k < 49) (ha : s.transport.answers k = true)
    (hn : s.transport.answers (k + 1) = false) :
    ∃ t, exec (.init c r) s = .next t ∧ t.busy = true ∧ t.fault = s.fault ∧ t.initState = initStateAtWrite k := by
  rw [exec_init, initTail_stages, ← stageStateAtWrite_initStages s.cfg hk]
  exact runActs_stages_stall (initStages s.cfg) [.respond] rfl rfl (by rwa [writeCount_initStages]) ha hn

/-- While a write of INIT stands, INIT is not done. -/
theorem initStateAtWrite_ne_ready (k : Nat) : initStateAtWrite k ≠ .ready := by
  unfold initStateAtWrite
  repeat' split
  all_goals decide

/-- No request but INIT moves INIT_STATE (R101). -/
theorem exec_keeps_initState {i : Instr} {s t : State} (hi : ∀ c r, i ≠ .init c r) (h : exec i s = .next t) :
    t.initState = s.initState := by
  have hall := script_all_of_plain keepsInitState_of_plain (fun _ => rfl) i s hi
  exact exec_keeps (P := fun x => x.initState = s.initState) h
    (fun a ha _ _ hact hx => (runAct_keepsInitState (List.all_eq_true.mp hall a ha) hact).trans hx)
    (fun _ _ hx => hx) (fun _ _ hx => hx) rfl

/-! ### The obligations -/

/-- Settles O33: INIT runs its stages to their end, or waits in the stage of the write that is not answered. -/
theorem initRunsWholeSequence : Obligations.InitRunsWholeSequence := by
  unfold Obligations.InitRunsWholeSequence
  refine ⟨reservedFlagsIllegal_of_not_legal (by decide), fun c r => ⟨rfl, fun s k => exec_init_stalls c r, ?_⟩⟩
  intro s ha m resync command
  have hitems : (initStages s.cfg).flatMap InitStage.items = [.wait s.cfg.powerupWaitUs] ++ resync
      ++ [.wait s.cfg.resync1WaitUs] ++ resync ++ [.wait s.cfg.resync2WaitUs] ++ resync ++ [.wait s.cfg.resync3WaitUs]
      ++ command 0x02 ++ command 0x28 ++ command 0x0C ++ command 0x01 ++ command 0x06 := by
    simp only [initStages, List.flatMap_cons, List.flatMap_nil, resyncItems, List.append_assoc, List.cons_append,
      List.nil_append, List.append_nil]
    rfl
  rw [exec_init_completes c r ha, hitems]
  rfl

/-- Settles O34: the stages of INIT give the path and where a write that is not answered leaves it; the actions of every
other request leave INIT_STATE. -/
theorem initStatePath : Obligations.InitStatePath := by
  unfold Obligations.InitStatePath
  refine ⟨fun cfg c r => ?_, fun s c r k hk ha hn => ?_, fun i s t => exec_keeps_initState⟩
  · rw [initScript_eq, initTail_stages, initStateWrites_append, initStateWrites_append, initStateWrites_stages]
    rfl
  · obtain ⟨t, hexec, hbusy, -, hinit⟩ := exec_init_stalls c r hk ha hn
    exact ⟨t, hexec, hbusy, by simp [State.ready, hinit, initStateAtWrite_ne_ready], hinit⟩

end Sys2Proof.Machine

/-! SUPPORT. The display control requests' obligations (42_display_control): CLEAR, HOME, ENTRY, DISPCTL and SHIFT are
each CmdSettle of one command byte (`exec_cmdSettle`); BACKLIGHT sets the mask under which its one write goes out. -/

namespace Sys2Proof.Machine

/-- Bus items whose writes are all answered, then Respond: what a request comes to behind its fetches. -/
theorem runActs_bus_respond (items : List BusItem) {s : State} (hw : s.blmask.written = true) (hl : s.logDue = none)
    (ha : s.transport.answers (writeCount items) = true) :
    runActs (items.map BusItem.toAct ++ [.respond]) s = .next (s.afterBus items).responded := by
  rw [(goesOn_bus items s hw hl ha).runActs_append]
  rfl

/-- A request without operands that is CmdSettle of a command byte and then the response (R111). -/
theorem exec_cmdSettle {i : Instr} {s : State} {c : Byte} (hscript : scriptOf i s = cmdSettleActs s.cfg c ++ [.respond])
    (hw : s.canWrite = true) (ha : s.transport.answers 8 = true) :
    exec i s = .next (s.afterRequest 1 s.blmask.value
      (sendByteItems s.cfg c .command ++ [.wait s.cfg.cmdSettleUs])) := by
  rw [exec_begin, hscript, cmdSettleActs_items]
  exact begin_items s (opcodeOf i) [] (sendByteItems s.cfg c .command ++ [.wait s.cfg.cmdSettleUs]) hw
    (by simpa using ha)

/-! ### The flags in the command bytes -/

/-- Entry mode set with its flags as bits (R114). -/
theorem entryCommand_eq : ∀ leftToRight shift : Bool, entryCommand leftToRight shift =
    0x04 ||| ((if leftToRight then 0x02 else 0x00) ||| (if shift then 0x01 else 0x00)) := by decide

/-- Display control with its flags as bits (R116). -/
theorem displayCommand_eq : ∀ display cursor blink : Bool, displayCommand display cursor blink =
    0x08 |||
      ((if display then 0x04 else 0x00) ||| (if cursor then 0x02 else 0x00) ||| (if blink then 0x01 else 0x00)) := by
  decide

/-- Cursor or display shift with its flags as bits (R118). -/
theorem shiftCommand_eq : ∀ moveDisplay right : Bool, shiftCommand moveDisplay right =
    0x10 ||| (if moveDisplay then 0x08 else 0x00) ||| (if right then 0x04 else 0x00) := by decide

/-! ### BACKLIGHT -/

/-- BACKLIGHT writes BLMASK, whether it was written before or not, and flushes 0x00 under the new mask (R120). -/
theorem exec_backlight (on : Bool) {s : State} (hr : s.ready = true) (ha : s.transport.answers 1 = true) :
    exec (.backlight on) s = .next { s.afterRequest 1 (backlightMask s.cfg on) [.write 0x00] with
      blmask := .of (backlightMask s.cfg on) } := by
  have hflush := runActs_bus_respond [.write 0x00]
    (s := (s.started (opcodeOf (.backlight on))).backlightSet (backlightMask s.cfg on)) rfl rfl ha
  rw [exec_ready _ hr]
  refine hflush.trans ?_
  simp [State.afterBus, State.afterRequest, State.responded, State.started, State.backlightSet, State.advanced,
    responseByte, DisplayReg.of]

/-! ### The obligations -/

/-- Settles O20: CLEAR is CmdSettle of 0x01. -/
theorem clearSendsClear : Obligations.ClearSendsClear := by
  unfold Obligations.ClearSendsClear
  exact ⟨rfl, reservedFlagsIllegal_of_not_legal (by decide), refusedUntilReady (by simp), fun _ => exec_cmdSettle rfl⟩

/-- Settles O21: HOME is CmdSettle of 0x02. -/
theorem homeSendsHome : Obligations.HomeSendsHome := by
  unfold Obligations.HomeSendsHome
  exact ⟨rfl, reservedFlagsIllegal_of_not_legal (by decide), refusedUntilReady (by simp), fun _ => exec_cmdSettle rfl⟩

/-- Settles O22: ENTRY is CmdSettle of the entry mode set command with its flags. -/
theorem entrySendsEntryMode : Obligations.EntrySendsEntryMode := by
  unfold Obligations.EntrySendsEntryMode
  refine ⟨reservedFlagsIllegal_of_not_legal (by decide), fun id sh => ⟨?_, refusedUntilReady (by simp), fun s => ?_⟩⟩
  · cases id <;> cases sh <;> rfl
  · rw [← entryCommand_eq]
    exact exec_cmdSettle rfl

/-- Settles O23: DISPCTL is CmdSettle of the display control command with its flags. -/
theorem dispctlSendsDisplayControl : Obligations.DispctlSendsDisplayControl := by
  unfold Obligations.DispctlSendsDisplayControl
  refine ⟨reservedFlagsIllegal_of_not_legal (by decide), fun d c b => ⟨?_, refusedUntilReady (by simp), fun s => ?_⟩⟩
  · cases d <;> cases c <;> cases b <;> rfl
  · rw [← displayCommand_eq]
    exact exec_cmdSettle rfl

/-- Settles O24: SHIFT is CmdSettle of the shift command with its flags. -/
theorem shiftSendsShift : Obligations.ShiftSendsShift := by
  unfold Obligations.ShiftSendsShift
  refine ⟨reservedFlagsIllegal_of_not_legal (by decide), fun sc rl => ⟨?_, refusedUntilReady (by simp), fun s => ?_⟩⟩
  · cases sc <;> cases rl <;> rfl
  · rw [← shiftCommand_eq]
    exact exec_cmdSettle rfl

/-- Settles O25: BACKLIGHT writes BLMASK, then makes its one write under it. -/
theorem backlightSetsMaskAndFlushes : Obligations.BacklightSetsMaskAndFlushes := by
  unfold Obligations.BacklightSetsMaskAndFlushes
  refine ⟨reservedFlagsIllegal_of_not_legal (by decide), fun l => ⟨?_, refusedUntilReady (by simp), ?_⟩⟩
  · cases l <;> rfl
  · exact fun s => exec_backlight l

end Sys2Proof.Machine

/-! SUPPORT. The addressing's obligations (43_addressing): where `clampRow` finds a row and which (`clampRow_eq_none_iff`,
`clampRow_eq_some`), and how a GOTO ends in either case (`exec_goto_overruns`, `exec_goto_completes`). -/

namespace Sys2Proof.Machine

/-! ### The clamped row -/

/-- GOTO finds no row where ROWS = 0 or the clamped row is above 3, and nowhere else (R131). -/
theorem clampRow_eq_none_iff (rows y : Byte) :
    clampRow rows y = none ↔ rows = 0 ∨ 3 < (if rows ≤ y then rows - 1 else y) := by
  constructor
  · intro h
    by_contra hin
    obtain ⟨h0, h3⟩ := not_or.mp hin
    obtain ⟨yc, hc⟩ := clampRow_some h0 (BitVec.not_lt.mp h3)
    exact Option.some_ne_none yc (hc.symm.trans h)
  · rintro (h0 | h3)
    · rw [clampRow, if_pos h0]
    · have hge : ¬ (if rows ≤ y then rows - 1 else y).toNat < 4 := Nat.not_lt.mpr (BitVec.lt_def.mp h3)
      simp only [clampRow, dif_neg hge, ite_self]

/-- GOTO finds the row that the clamped row is the number of (R130). -/
theorem clampRow_eq_some {rows y : Byte} {i : Fin 4} (h0 : rows ≠ 0)
    (hi : (if rows ≤ y then rows - 1 else y).toNat = i.val) : clampRow rows y = some i := by
  simp only [clampRow, if_neg h0, hi, dif_pos i.isLt]

/-! ### GOTO -/

/-- GOTO where the row table would be overrun: its operands are fetched, and nothing is written (R131, R164). -/
theorem exec_goto_overruns {s : State} {x y : Byte} (hr : s.ready = true) (hrows : s.rows.written = true)
    (hc : clampRow s.rows.value y = none) : exec (.goto x y) s = .next (s.afterFault 3 3) := by
  have hscript : scriptOf (.goto x y) s = [.fetch x, .fetch y, .raise .rowTableOverrun] := by
    simp [scriptOf, gotoScript, gotoBody, DisplayReg.read?, hrows, hc]
  rw [exec_ready _ hr, hscript]
  rfl

/-- GOTO where it finds a row and every write is answered: one SendByte of the set-DDRAM-address command, no wait, and the
response (R130). -/
theorem exec_goto_completes {s : State} {x y : Byte} {yc : Fin 4} (hw : s.canWrite = true)
    (hrows : s.rows.written = true) (hc : clampRow s.rows.value y = some yc) (ha : s.transport.answers 8 = true) :
    exec (.goto x y) s = .next (s.afterRequest 3 s.blmask.value
      (sendByteItems s.cfg (ddramCommand (cursorAddress s.cfg x yc)) .command)) := by
  rw [exec_begin, goto_script_of_row hrows hc, sendByteActs_items]
  exact begin_items s _ [x, y] _ hw (by simpa using ha)

/-! ### The obligations -/

/-- Settles O26: `clampRow` finds no row exactly where GOTO is to raise, and elsewhere the row of the address. -/
theorem gotoSendsCursorAddress : Obligations.GotoSendsCursorAddress := by
  unfold Obligations.GotoSendsCursorAddress
  refine ⟨reservedFlagsIllegal_of_not_legal (by decide), fun x y => ⟨rfl, refusedUntilReady (by simp), ?_⟩⟩
  intro s hr hrows yc
  constructor
  · intro hover
    exact exec_goto_overruns hr hrows ((clampRow_eq_none_iff _ _).mpr hover)
  · intro h0 hb ha i hi
    have hw : s.canWrite = true := by rw [State.canWrite, hr, hb, Bool.and_self]
    exact exec_goto_completes hw hrows (clampRow_eq_some h0 hi) ha

/-- Settles O27: with four rows no row below 4 is clamped, and neither the row nor the address has COLS in it. -/
theorem gotoNeverChecksColumn : Obligations.GotoNeverChecksColumn := by
  unfold Obligations.GotoNeverChecksColumn
  intro s x y c hcfg hw hrows ha
  have hrow : ∀ y : Fin 4, clampRow 4 (BitVec.ofNat 8 y.val) = some y := by decide
  have hoff : ∀ y : Fin 4, rowOffset Config.default y = #[0x00, 0x40, 0x14, 0x54][y] := by decide
  rw [← hoff, ← hcfg]
  exact exec_goto_completes (s := { s with cols := c }) hw (by simp [hrows]) (by simpa [hrows] using hrow y) ha

end Sys2Proof.Machine

/-! SUPPORT. The custom glyph's obligation (44_custom_glyph): the address of GLYPH's slot by its low three bits
(`glyphAddress_eq`), and its actions as the fetches of its operands and then bus items (`glyphScript_items`). -/

namespace Sys2Proof.Machine

/-- The low three bits of a byte are its remainder by 8, and moving them up by three is multiplying by 8. -/
theorem ofNat_mod_eight_mul_eight (b : Byte) : BitVec.ofNat 8 (b.toNat % 8 * 8) = (b &&& 0x07) <<< 3 := by
  have hlow : (b &&& 0x07).toNat = b.toNat % 8 := Nat.and_two_pow_sub_one_eq_mod b.toNat 3
  apply BitVec.eq_of_toNat_eq
  rw [BitVec.toNat_ofNat, BitVec.toNat_shiftLeft, hlow, Nat.shiftLeft_eq]

/-- With eight slots of eight rows the slot's address is `(S & 7) << 3` (R140, R142). -/
theorem glyphAddress_eq {cfg : Config} (hs : cfg.glyphSlots = 8) (hr : cfg.glyphRows = 8) (slot : Byte) :
    glyphAddress cfg slot = (slot &&& 0x07) <<< 3 := by
  rw [glyphAddress, hs, hr, ofNat_mod_eight_mul_eight]

@[simp] theorem writeCount_sendBytesItems (cfg : Config) (vs : List Byte) (m : Mode) :
    writeCount (vs.flatMap fun v => sendByteItems cfg v m) = 8 * vs.length := by
  induction vs with
  | nil => rfl
  | cons v vs ih =>
    rw [List.flatMap_cons, writeCount_append, writeCount_sendByteItems, ih, List.length_cons]
    omega

/-- GLYPH fetches its slot and its pattern, then sends the slot's address and every byte of a pattern that has no more
than GLYPH_ROWS of them (R140, R141). -/
theorem glyphScript_items {cfg : Config} {pattern : List Byte} (hp : pattern.length ≤ cfg.glyphRows) (slot : Byte) :
    glyphScript cfg slot pattern = (slot :: pattern).map .fetch ++
      ((sendByteItems cfg (cgramCommand (glyphAddress cfg slot)) .command ++
        pattern.flatMap fun p => sendByteItems cfg p .data).map BusItem.toAct ++ [.respond]) := by
  simp only [glyphScript, List.take_of_length_le hp, sendByteActs_items, List.map_append,
    List.map_flatMap, List.append_assoc]

/-! ### The obligation -/

/-- Settles O29: behind its fetches GLYPH is a SendByte of the slot's address and of each byte of its pattern. -/
theorem glyphSendsSlotAndPattern : Obligations.GlyphSendsSlotAndPattern := by
  unfold Obligations.GlyphSendsSlotAndPattern
  refine ⟨reservedFlagsIllegal_of_not_legal (by decide), fun slot p0 p1 p2 p3 p4 p5 p6 p7 =>
    ⟨rfl, refusedUntilReady (by simp), ?_⟩⟩
  intro s hslots hrows hw ha
  have hscript := glyphScript_items (pattern := [p0, p1, p2, p3, p4, p5, p6, p7]) (by rw [hrows]; rfl) slot
  rw [glyphAddress_eq hslots hrows, cgramCommand] at hscript
  rw [exec_begin, scriptOf, hscript]
  exact begin_items s _ [slot, p0, p1, p2, p3, p4, p5, p6, p7] _ hw
    (by rw [writeCount_append, writeCount_sendByteItems, writeCount_sendBytesItems]; exact ha)

end Sys2Proof.Machine

/-! SUPPORT. Text output's obligation (45_text_output): fetching characters and writing to the bus commute
(`State.afterBus_fetchedAll`), so WRSTR, which fetches each character just before it sends it, comes to the same state
as a request that fetches all its operands first (`runActs_wrstrScript`). -/

namespace Sys2Proof.Machine

/-! ### Fetches between writes -/

/-- The state after the fetches of a list of operand bytes. -/
def State.fetchedAll (bs : List Byte) (s : State) : State :=
  { s with
    reqpc := s.reqpc + bs.length
    request := s.request.map fun r => { r with operands := r.operands ++ bs, next := r.next + bs.length } }

theorem goesOn_fetchedAll (bs : List Byte) (s : State) : GoesOn (bs.map .fetch) s (s.fetchedAll bs) :=
  goesOn_fetches bs s

theorem State.fetchedAll_nil (s : State) : s.fetchedAll [] = s := by simp [State.fetchedAll]

theorem State.fetchedAll_singleton (b : Byte) (s : State) : s.fetchedAll [b] = s.fetched b := rfl

theorem State.fetchedAll_append (as bs : List Byte) (s : State) :
    s.fetchedAll (as ++ bs) = (s.fetchedAll as).fetchedAll bs := by
  cases hreq : s.request <;> simp [State.fetchedAll, hreq, Nat.add_assoc]

/-- What is put on the bus does not depend on the operands fetched, nor the fetches on the bus. -/
theorem State.afterBus_fetchedAll (bs : List Byte) (items : List BusItem) (s : State) :
    (s.fetchedAll bs).afterBus items = (s.afterBus items).fetchedAll bs := by
  cases hreq : s.request <;>
    simp [State.fetchedAll, State.afterBus, hreq, Nat.add_right_comm]

/-! ### WRSTR -/

/-- The bus items of WRSTR: the SendByte of each character in mode DATA (R150). -/
def charItems (cfg : Config) (cs : List Byte) : List BusItem := cs.flatMap fun c => sendByteItems cfg c .data

theorem charItems_nil (cfg : Config) : charItems cfg [] = [] := rfl

theorem charItems_cons (cfg : Config) (c : Byte) (cs : List Byte) :
    charItems cfg (c :: cs) = sendByteItems cfg c .data ++ charItems cfg cs := List.flatMap_cons

@[simp] theorem writeCount_charItems (cfg : Config) (cs : List Byte) : writeCount (charItems cfg cs) = 8 * cs.length :=
  writeCount_sendBytesItems cfg cs .data

/-- WRSTR's loop, with every write answered: the characters fetched and sent. -/
theorem goesOn_charActs (cs : List Byte) {s : State} (hw : s.blmask.written = true) (hl : s.logDue = none)
    (ha : s.transport.answers (writeCount (charItems s.cfg cs)) = true) :
    GoesOn (cs.flatMap (charActs s.cfg)) s ((s.fetchedAll cs).afterBus (charItems s.cfg cs)) := by
  induction cs generalizing s with
  | nil =>
    rw [State.fetchedAll_nil, charItems_nil, State.afterBus_nil]
    exact .nil s
  | cons c cs ih =>
    rw [charItems_cons, writeCount_append, Transport.answers_add, Bool.and_eq_true] at ha
    obtain ⟨hc, hcs⟩ := ha
    have hsend : GoesOn (sendByteActs s.cfg c .data) (s.fetched c)
        ((s.fetched c).afterBus (sendByteItems s.cfg c .data)) := by
      rw [sendByteActs_items]
      exact goesOn_bus _ (s.fetched c) hw hl hc
    have hend : (s.fetchedAll (c :: cs)).afterBus (charItems s.cfg (c :: cs)) =
        (((s.fetched c).afterBus (sendByteItems s.cfg c .data)).fetchedAll cs).afterBus (charItems s.cfg cs) := by
      rw [← s.fetchedAll_singleton, ← State.afterBus_fetchedAll, ← State.fetchedAll_append,
        State.afterBus_append (s := s.fetchedAll ([c] ++ cs)) hc, List.singleton_append, charItems_cons]
    rw [List.flatMap_cons, hend]
    have hloop := ih (s := (s.fetched c).afterBus (sendByteItems s.cfg c .data)) hw hl
      (by simpa [State.afterBus] using hcs)
    exact .cons rfl (hsend.append hloop)

/-- WRSTR with every write answered runs like a request that fetches its characters and the terminator first and then
puts its items on the bus (R150). -/
theorem runActs_wrstrScript (cs : List Byte) {s : State} (hw : s.blmask.written = true) (hl : s.logDue = none)
    (ha : s.transport.answers (writeCount (charItems s.cfg cs)) = true) :
    runActs (wrstrScript s.cfg cs) s =
      runActs ((cs ++ [0]).map .fetch ++ ((charItems s.cfg cs).map BusItem.toAct ++ [.respond])) s := by
  calc runActs (wrstrScript s.cfg cs) s
      = .next (((s.fetchedAll cs).afterBus (charItems s.cfg cs)).fetched 0).responded := by
        rw [wrstrScript, (goesOn_charActs cs hw hl ha).runActs_append]
        rfl
    _ = .next ((s.fetchedAll (cs ++ [0])).afterBus (charItems s.cfg cs)).responded := by
        rw [State.fetchedAll_append, State.afterBus_fetchedAll [0], State.fetchedAll_singleton]
    _ = _ := by
        rw [(goesOn_fetchedAll (cs ++ [0]) s).runActs_append]
        exact (runActs_bus_respond _ (s := s.fetchedAll (cs ++ [0])) hw hl ha).symm

/-! ### The obligation -/

/-- Settles O30: WRSTR is, up to the order of its fetches and writes, a request of the fetches of its operands and then
the SendByte of each character. -/
theorem wrstrSendsCharacters : Obligations.WrstrSendsCharacters := by
  unfold Obligations.WrstrSendsCharacters
  refine ⟨reservedFlagsIllegal_of_not_legal (by decide), fun cs => ⟨rfl, refusedUntilReady (by simp), ?_⟩⟩
  intro s _ hw ha
  obtain ⟨hready, hmask⟩ : s.ready = true ∧ s.blmask.written = true := by
    simpa [State.canWrite] using hw
  have hcount : s.transport.answers (writeCount (charItems s.cfg cs)) = true := by
    rwa [writeCount_charItems]
  have hlen : cs.length + 2 = 1 + (cs ++ [0]).length := by
    rw [List.length_append, List.length_singleton]
    omega
  rw [hlen, ← charItems, ← begin_items s (opcodeOf (.wrstr cs)) (cs ++ [0]) _ hw hcount, exec_begin,
    beginRequest_runs (.inr hready), beginRequest_runs (.inr hready)]
  exact runActs_wrstrScript cs (s := s.started (opcodeOf (.wrstr cs))) hmask rfl hcount

end Sys2Proof.Machine

/-! SUPPORT. The exceptions' obligations (60_exceptions): the one fault among a request's actions is GOTO's
RowTableOverrun, behind its two fetches (`scriptFor_of_raise_mem`), and a request whose bytes are not all there waits
where its actions end (`step_of_incomplete`). -/

namespace Sys2Proof

/-- An incomplete request is a legal opcode byte and all the bytes after it (R167). -/
theorem decode_eq_incomplete {bs operands : List Byte} {op : Byte} (h : decode bs = .incomplete op operands) :
    bs = op :: operands ∧ legalOpcode op = true := by
  cases bs with
  | nil => simp [decode] at h
  | cons b bs =>
    cases hl : legalOpcode b with
    | false => simp [decode_cons_illegal bs hl] at h
    | true =>
      rcases decode_cons_legal bs hl with ⟨i, rest, hd⟩ | hd
      · simp [hd] at h
      · obtain ⟨rfl, rfl⟩ := Decoded.incomplete.inj (hd.symm.trans h)
        exact ⟨rfl, hl⟩

/-- WRSTR has one legal opcode byte (R68, R71). -/
theorem eq_wrstr_of_opField : ∀ op : Byte, legalOpcode op = true → opField op = 0xA → op = 0xA0 := by decide

end Sys2Proof

namespace Sys2Proof.Machine

/-! ### The checks of the opcode byte -/

/-- An engine that fetches a legal opcode byte other than INIT's while READY = 0 raises NotReady (R163). -/
theorem step_of_notReady {s : State} {op : Byte} {bs : List Byte} (h : s.accepting = true)
    (ha : s.available = op :: bs) (hl : legalOpcode op = true) (hn : needsReady op = true) (hr : s.ready = false) :
    step s = .next (s.afterFault 1 2) := by
  rw [step_of_accepting h ha, if_pos hl, beginRequest_notReady hn hr]
  rfl

/-- An engine that fetches a legal opcode byte that passes both checks runs the actions of the bytes that are there. -/
theorem step_of_legal {s : State} {op : Byte} {bs : List Byte} (h : s.accepting = true)
    (ha : s.available = op :: bs) (hl : legalOpcode op = true) (hr : needsReady op = false ∨ s.ready = true) :
    step s = runActs (scriptFor op bs s) (s.started op) := by
  rw [step_of_accepting h ha, if_pos hl, beginRequest_runs hr]

/-! ### The fault among a request's actions -/

/-- The actions of a GOTO that overruns the row table (R131, R164). -/
def overrunScript (x y : Byte) : List Act := [.fetch x, .fetch y, .raise .rowTableOverrun]

/-- Actions that end no request raise nothing. -/
theorem raise_not_mem_of_within {as : List Act} (h : as.all Act.within = true) (c : Cause) : Act.raise c ∉ as :=
  fun hmem => Bool.false_ne_true (List.all_eq_true.mp h _ hmem)

/-- A request that has a raise among its actions is a GOTO that overruns the row table. -/
theorem script_of_raise_mem {i : Instr} {s : State} {c : Cause} (h : Act.raise c ∈ scriptOf i s) :
    ∃ x y, i = .goto x y ∧ scriptOf i s = overrunScript x y := by
  obtain ⟨body, z, hs, hbody, hz⟩ := script_shape i s
  rw [hs, List.mem_append, List.mem_singleton] at h
  rcases h with hmem | rfl
  · exact absurd hmem (raise_not_mem_of_within hbody c)
  · rcases hz with hz | ⟨x, y, hi, rfl, hz⟩ | ⟨-, -, -, -, hz⟩
    · simp at hz
    · exact ⟨x, y, hi, by rw [hs, hz]; rfl⟩
    · simp at hz

/-- A GOTO has a raise among its actions only where it reads ROWS and finds no row (R130). -/
theorem clampRow_of_raise_mem {x y : Byte} {s : State} {c : Cause} (h : Act.raise c ∈ scriptOf (.goto x y) s) :
    s.rows.written = true ∧ clampRow s.rows.value y = none := by
  cases hrows : s.rows.written with
  | false => simp [scriptOf, gotoScript, DisplayReg.read?, hrows] at h
  | true =>
    cases hc : clampRow s.rows.value y with
    | none => exact ⟨rfl, rfl⟩
    | some yc => simp [goto_script_of_row hrows hc, sendByteActs] at h

/-- Bytes that have a raise among their actions are those of a GOTO that overruns the row table. -/
theorem scriptFor_of_raise_mem {op : Byte} {bs : List Byte} {s : State} {c : Cause}
    (h : Act.raise c ∈ scriptFor op bs s) : opField op = 0x7 ∧ ∃ x y, scriptFor op bs s = overrunScript x y := by
  cases hl : legalOpcode op with
  | false => simp [scriptFor_illegal bs s hl] at h
  | true =>
    rcases scriptFor_cases op bs s hl with ⟨i, rest, -, rfl, -, hs⟩ | ⟨-, hs⟩
    · rw [hs] at h ⊢
      obtain ⟨x, y, rfl, hscript⟩ := script_of_raise_mem h
      exact ⟨(by decide : opField 0x70 = 0x7), x, y, hscript⟩
    · rw [hs] at h
      exact absurd h (raise_not_mem_of_within (incompleteScript_within s.cfg op bs) c)

/-- Actions that leave FAULT set where it was not have a raise among them. -/
theorem raise_mem_of_runActs {as : List Act} {s t : State} (h : runActs as s = .next t) (hs : s.fault = false)
    (ht : t.fault = true) : ∃ c, Act.raise c ∈ as := by
  obtain ⟨done, rest, mid, rfl, hg, hend⟩ := runActs_next h
  obtain ⟨-, -, -, -, hfault, -⟩ := hg.const
  rcases hend with ⟨-, rfl⟩ | ⟨b, rest', -, -, -, rfl⟩ | ⟨c, rest', rfl, -⟩
  · simp [hfault, hs] at ht
  · simp [hfault, hs] at ht
  · exact ⟨c, by simp⟩

/-- Where some or all of the actions of the bytes that are there raise a fault, they are a GOTO's that overruns the row
table. -/
theorem runActs_scriptFor_fault {op : Byte} {bs : List Byte} {u s t : State} (k : Nat)
    (h : runActs ((scriptFor op bs u).drop k) s = .next t) (hs : s.fault = false) (ht : t.fault = true) :
    opField op = 0x7 ∧ ∃ x y, scriptFor op bs u = overrunScript x y := by
  obtain ⟨c, hc⟩ := raise_mem_of_runActs h hs ht
  exact scriptFor_of_raise_mem (List.mem_of_mem_drop hc)

/-- A GOTO that overruns the row table fetches its operands and raises the fault: CAUSE only (R164). -/
theorem runActs_overrunScript (x y op : Byte) (s : State) :
    runActs (overrunScript x y) (s.started op) = .next (s.afterFault 3 3) := rfl

/-- A GOTO that overruns the row table emits nothing, from wherever it goes on. -/
theorem runActs_overrunScript_trace {x y : Byte} {s t : State} (k : Nat)
    (h : runActs ((overrunScript x y).drop k) s = .next t) : t.trace = s.trace := by
  refine runActs_keeps (P := fun u => u.trace = s.trace) h (fun a ha u v hact hu => ?_) (fun _ _ _ hu => hu)
    (fun _ _ hu => hu) rfl
  have hmem : a = .fetch x ∨ a = .fetch y ∨ a = .raise .rowTableOverrun := by
    simpa [overrunScript] using List.mem_of_mem_drop ha
  rcases hmem with rfl | rfl | rfl
  · exact ActResult.goesOn.inj hact ▸ hu
  · exact ActResult.goesOn.inj hact ▸ hu
  · simp [runAct] at hact

/-- A step that faults, with no log event due before it, emits nothing (R161). -/
theorem step_fault_trace {s t : State} (hdue : s.logDue = none) (h : step s = .next t) (hs : s.fault = false)
    (ht : t.fault = true) : t.trace = s.trace := by
  cases hr : s.resetInput with
  | true =>
    obtain rfl := Host.Outcome.next.inj ((step_of_resetInput hr).symm.trans h)
    rfl
  | false =>
    rcases step_next hr h with rfl | ⟨-, op, bs, -, ⟨c, rfl⟩ | hrun⟩ | ⟨-, -, r, -, -, hrun⟩
    · rfl
    · rfl
    · obtain ⟨-, x, y, hscript⟩ := runActs_scriptFor_fault 0 hrun hs ht
      rw [hscript, runActs_overrunScript] at hrun
      obtain rfl := Host.Outcome.next.inj hrun
      rfl
    · rw [State.logged_of_none hdue, remainingActs] at hrun
      obtain ⟨-, x, y, hscript⟩ := runActs_scriptFor_fault r.next hrun hs ht
      rw [hscript] at hrun
      exact runActs_overrunScript_trace r.next hrun

/-! ### A request whose bytes are not all there -/

/-- Where the actions of the bytes that are there all go on, the engine comes to wait for the next byte: BUSY = 1, every
byte fetched, and nothing left to do (R167). -/
theorem step_of_incomplete {s t : State} {op : Byte} {operands : List Byte} (h : s.accepting = true)
    (hd : decode s.available = .incomplete op operands) (hr : needsReady op = false ∨ s.ready = true)
    (hg : GoesOn (incompleteScript s.cfg op operands) (s.started op) t) :
    step s = .next t ∧ step t = .next t ∧ t.complete = false ∧ t.busy = true ∧
      t.reqpc = s.reqpc + 1 + operands.length := by
  obtain ⟨hav, hl⟩ := decode_eq_incomplete hd
  rw [hav] at hd
  have hscript : ∀ u : State, scriptFor op operands u = incompleteScript u.cfg op operands :=
    fun u => by simp only [scriptFor, hd]
  obtain ⟨hreset, hfault, -⟩ := State.accepting_iff.mp h
  obtain ⟨hcfg, hreset', -, -, hfault', -⟩ := hg.const
  obtain ⟨hbusy, n, -, hreq⟩ := hg.request (incompleteScript_within ..) (State.started_request s op)
  have hpc := hg.reqpc
  have hleft : t.available = [] := by
    refine hg.available (bs := []) ?_
    rw [fetches_incompleteScript, List.append_nil, State.started_available hav]
  rw [fetches_incompleteScript] at hreq hpc
  refine ⟨?_, ?_, by simp [State.complete, State.idle, hbusy], hbusy, hpc⟩
  · rw [step_of_legal h hav hl hr, hscript, hg.runActs]
  · have hresume : resume t = .next t := by
      simp [resume, hreq, remainingActs, hleft, hscript, hcfg, runActs, State.logged_of_none (hg.logDue rfl)]
    simp [step, hreset', hreset, hfault', hfault, hbusy, hresume]

/-- A request other than WRSTR only fetches the bytes that are there (R167). -/
theorem incompleteScript_of_ne_wrstr {op : Byte} (hl : legalOpcode op = true) (hop : op ≠ 0xA0) (cfg : Config)
    (operands : List Byte) : incompleteScript cfg op operands = operands.map .fetch :=
  if_neg fun hA => hop (eq_wrstr_of_opField op hl hA)

/-- A WRSTR sends the characters that are there (R150, R167). -/
theorem incompleteScript_wrstr (cfg : Config) (operands : List Byte) :
    incompleteScript cfg 0xA0 operands = operands.flatMap (charActs cfg) :=
  if_pos (by decide)

/-! ### The obligations -/

/-- Settles O8: the two checks of the opcode byte come first, and behind them only a GOTO's actions raise a fault. -/
theorem faultPriority : Obligations.FaultPriority := by
  unfold Obligations.FaultPriority
  intro s op bs ha hav
  refine ⟨step_of_illegal ha hav, step_of_notReady ha hav, fun hl hr t h ht => ?_⟩
  obtain ⟨-, hf, -⟩ := State.accepting_iff.mp ha
  rw [step_of_legal ha hav hl hr] at h
  obtain ⟨hop, x, y, hscript⟩ := runActs_scriptFor_fault 0 h hf ht
  rw [hscript, runActs_overrunScript] at h
  exact ⟨hop, (Host.Outcome.next.inj h).symm⟩

/-- Settles O9: NotReady is a check of the opcode byte, whatever follows it. -/
theorem requestBeforeInitIsNotReady : Obligations.RequestBeforeInitIsNotReady := by
  unfold Obligations.RequestBeforeInitIsNotReady
  refine ⟨fun i s hi hr => exec_notReady hi hr, fun s op bs ha hav hl hop hr => ?_⟩
  have hn : needsReady op = true := by simpa [needsReady] using hop
  exact step_of_notReady ha hav hl hn hr

/-- Settles O10: a faulted state is its own next state, and the step that comes to it ran no action with an event. -/
theorem faultedEngineIsStopped : Obligations.FaultedEngineIsStopped := by
  unfold Obligations.FaultedEngineIsStopped
  refine ⟨fun _ _ => ⟨rfl, rfl, rfl, rfl⟩, fun s hf hr => step_of_fault hr hf, fun s hf => ?_,
    fun s t h hf ht => ?_, fun s t => step_fault_trace⟩
  · obtain ⟨-, -, hfault, -, hcause⟩ := statusLayout.1 s
    exact ⟨hfault.trans hf, hcause, by simp [State.complete, State.idle, hf]⟩
  · by_contra hr
    have hsame : s = t := Host.Outcome.next.inj ((step_of_fault (by simpa using hr) hf).symm.trans h)
    simp [← hsame, hf] at ht

/-- Settles O12: of the ways a request ends, the one with CAUSE 3 is a GOTO that finds no row. -/
theorem rowTableOverrunIsGotosAlone : Obligations.RowTableOverrunIsGotosAlone := by
  unfold Obligations.RowTableOverrunIsGotosAlone
  intro overruns
  refine ⟨fun i s t h hs ht hcause => ?_, fun x y s hr hrows hover =>
    exec_goto_overruns hr hrows ((clampRow_eq_none_iff _ _).mpr hover)⟩
  rcases exec_ways h with ⟨-, -, rfl⟩ | ⟨hr, body, z, hscript, -, hend⟩
  · exact absurd hcause (by decide : (2 : BitVec 4) ≠ 3)
  rcases hend with ⟨-, m, hg, rfl⟩ | ⟨x, y, rfl, rfl, rfl⟩ | ⟨done, b, r, m, -, hg, -, -, -, rfl⟩
  · obtain ⟨-, -, -, -, hfault, -⟩ := hg.const
    simp [hfault, hs] at ht
  · have hready : s.ready = true := hr.resolve_left (by simp [needsReady_opcodeOf])
    obtain ⟨hrows, hc⟩ := clampRow_of_raise_mem (x := x) (y := y) (s := s) (c := .rowTableOverrun)
      (by simp [hscript])
    exact ⟨x, y, rfl, hready, hrows, (clampRow_eq_none_iff _ _).mp hc, rfl⟩
  · obtain ⟨-, -, -, -, hfault, -⟩ := hg.const
    simp [hfault, hs] at ht

/-- Settles O47: the fetches of a request, or the turns of WRSTR's loop, all go on, up to the byte that is missing. -/
theorem incompleteRequestWaits : Obligations.IncompleteRequestWaits := by
  unfold Obligations.IncompleteRequestWaits
  intro s op operands ha hd
  obtain ⟨-, hl⟩ := decode_eq_incomplete hd
  constructor
  · intro hop hready t
    have hr : needsReady op = false ∨ s.ready = true := hready.imp_left fun h => by rw [h]; decide
    have hend : (s.started op).fetchedAll operands = t := by
      simp [State.fetchedAll, State.started, t]
    have hg : GoesOn (incompleteScript s.cfg op operands) (s.started op) t := by
      rw [incompleteScript_of_ne_wrstr hl hop, ← hend]
      exact goesOn_fetchedAll operands _
    obtain ⟨hstep, hwait, hcomplete, -⟩ := step_of_incomplete ha hd hr hg
    exact ⟨hstep, hwait, hcomplete⟩
  · rintro rfl hw hans
    obtain ⟨hready, hmask⟩ : s.ready = true ∧ s.blmask.written = true := by
      simpa [State.canWrite] using hw
    have hg : GoesOn (incompleteScript s.cfg 0xA0 operands) (s.started 0xA0)
        (((s.started 0xA0).fetchedAll operands).afterBus (charItems s.cfg operands)) := by
      rw [incompleteScript_wrstr]
      exact goesOn_charActs operands (s := s.started 0xA0) hmask rfl (by rwa [writeCount_charItems])
    obtain ⟨hstep, hwait, hcomplete, hbusy, hpc⟩ := step_of_incomplete ha hd (.inr hready) hg
    refine ⟨_, hstep, hwait, hcomplete, hbusy, hpc, ?_⟩
    rw [State.afterBus, writeCount_charItems]
    rfl

end Sys2Proof.Machine

/-! SUPPORT. The reset's obligation (70_reset_and_hazards): what the reset of any state holds (R190), of which
`State.reset`, the reset of itself, is one case (`State.afterReset_reset`). -/

namespace Sys2Proof.Machine

/-- After a reset READY = 0, since INIT_STATE is PoweredUnknown (R26, R190). -/
@[simp] theorem State.afterReset_ready (s : State) : s.afterReset.ready = false := rfl

/-- After a reset STATUS reads 0x00 (R31, R191). -/
@[simp] theorem State.afterReset_status (s : State) : s.afterReset.status = 0x00 := by
  simp [State.status, flagBit]

/-- A reset of the state after reset changes nothing. -/
@[simp] theorem State.afterReset_reset : State.reset.afterReset = State.reset := rfl

/-- Settles O13: with the reset input asserted the step is the reset, and `State.reset` is one such state. -/
theorem resetLeavesResetState : Obligations.ResetLeavesResetState := by
  unfold Obligations.ResetLeavesResetState
  intro isReset
  have hreset : ∀ s : State, isReset s.afterReset := fun s => by simp [isReset]
  refine ⟨State.afterReset_reset ▸ hreset State.reset, rfl, fun s => ?_⟩
  exact ⟨s.assertReset.afterReset, step_of_resetInput (State.assertReset_resetInput s), hreset _, by simp⟩

end Sys2Proof.Machine

/-! SUPPORT. The decoder's two directions (30_encoding): the decoder's operands of an encoding
(`decodeOperands_operandsOf`), and that what it reads is well-formed; the rows of the opcode table and fixed words. -/

namespace Sys2Proof

/-- A request's operand bytes are read back as that request, with the bytes after them left over (R61, R62). -/
theorem decodeOperands_operandsOf {i : Instr} (h : i.wellFormed = true) (rest : List Byte) :
    decodeOperands (headOf i) (operandsOf i ++ rest) = some (i, rest) := by
  cases i with
  | wrstr cs =>
    have hsplit : splitString (cs ++ [0] ++ rest) = some (cs, rest) := by simpa using splitString_append cs rest h
    simp only [headOf, operandsOf, decodeOperands, hsplit]
  | _ => rfl

/-- What the decoder reads is the encoding of a well-formed request. -/
theorem decodeOperands_wellFormed {h : Head} {bs rest : List Byte} {i : Instr}
    (e : decodeOperands h bs = some (i, rest)) : i.wellFormed = true := by
  obtain ⟨rfl, -⟩ := decodeOperands_some e
  cases i with
  | wrstr cs =>
    simp only [headOf, decodeOperands] at e
    split at e
    · next cs' rest' hs =>
      obtain ⟨rfl, rfl⟩ : cs' = cs ∧ rest' = rest := by simpa using e
      exact (splitString_some hs).1
    · simp at e
  | _ => rfl

theorem decode_encode {i : Instr} (h : i.wellFormed = true) (rest : List Byte) :
    decode (encode i ++ rest) = .request i rest := by
  simp only [encode, List.cons_append, decode, decodeOpcode_opcodeOf, decodeOperands_operandsOf h]

theorem encode_of_decode {bs rest : List Byte} {i : Instr} (h : decode bs = .request i rest) :
    i.wellFormed = true ∧ encode i ++ rest = bs := by
  cases bs with
  | nil => simp [decode] at h
  | cons op bs =>
    obtain ⟨rfl, rfl⟩ := decode_request h
    refine ⟨?_, rfl⟩
    simp only [decode, decodeOpcode_opcodeOf] at h
    split at h
    · next hd =>
      obtain ⟨rfl, rfl⟩ := Decoded.request.inj h
      exact decodeOperands_wellFormed hd
    · simp at h

/-- Settles O1: the opcode byte gives back the request's head, and its operands the request. -/
theorem decodeOfEncode : Obligations.DecodeOfEncode := by
  unfold Obligations.DecodeOfEncode
  exact fun i rest h => decode_encode h rest

/-- Settles O2: the head that an opcode byte decodes to has that opcode byte, and its operands are those read. -/
theorem encodeOfDecode : Obligations.EncodeOfDecode := by
  unfold Obligations.EncodeOfDecode
  exact fun bs i rest => encode_of_decode

/-- Settles O3: over the 256 opcode bytes. -/
theorem opcodeByteHasOneMeaning : Obligations.OpcodeByteHasOneMeaning := by
  unfold Obligations.OpcodeByteHasOneMeaning
  decide

/-- Settles O5: each word is decoded. -/
theorem specWordsDecode : Obligations.SpecWordsDecode := by
  unfold Obligations.SpecWordsDecode
  decide

/-- Settles O6: a pseudo-request is expanded and the request encoded, whatever its operand byte or text is. -/
theorem pseudoRequestsExpand : Obligations.PseudoRequestsExpand := by
  unfold Obligations.PseudoRequestsExpand
  intro v text
  exact ⟨rfl, rfl, rfl, rfl, rfl, rfl, rfl, rfl, rfl, rfl, rfl⟩

end Sys2Proof

namespace Sys2Proof.Machine

/-- Settles O7: with no reset, fault or request in progress the step decodes the bytes that are there. -/
theorem stepRunsDecodedRequest : Obligations.StepRunsDecodedRequest := by
  unfold Obligations.StepRunsDecodedRequest
  intro s i rest ha hd
  obtain ⟨hr, hf, hb⟩ := State.accepting_iff.mp ha
  simp [step, hr, hf, hb, hd]

/-- An engine that takes a request and finds no byte waits (R14). -/
theorem step_of_no_byte {s : State} (ha : s.accepting = true) (hav : s.available = []) : step s = .next s := by
  obtain ⟨hr, hf, hb⟩ := State.accepting_iff.mp ha
  simp [step, hr, hf, hb, hav, decode]

/-- Settles O14. -/
theorem idleEngineWaits : Obligations.IdleEngineWaits := by
  unfold Obligations.IdleEngineWaits
  exact fun s => step_of_no_byte

/-- Settles O16: each parameter of the state after reset is read off. -/
theorem parameterDefaults : Obligations.ParameterDefaults := by
  unfold Obligations.ParameterDefaults
  decide

/-- Settles O18: the three phases on the base byte of the low nibble. -/
theorem sendCommandIsThreePhases : Obligations.SendCommandIsThreePhases := by
  unfold Obligations.SendCommandIsThreePhases
  intro cfg v hshift base
  have hbase : baseByte cfg (loNibble v) 0 = base := (baseByte_loNibble hshift v 0).trans (BitVec.or_zero ..)
  simp only [sendCommandItems, sendCommandBytes, hbase]

/-- A pulse of E, low before and low in the byte after it, latches the lines of the byte that lowers it (R83, R206). -/
theorem latched_pulse {setup high low idle : Byte} (hsetup : (linesOf setup).e = false)
    (hhigh : (linesOf high).e = true) (hlow : (linesOf low).e = false) (hidle : (linesOf idle).e = false)
    (rest : List Byte) :
    latched false (setup :: high :: low :: idle :: rest) =
      ((linesOf low).data, (linesOf low).rs) :: latched false rest := by
  simp [latched, hsetup, hhigh, hlow, hidle]

/-- The lines that the base byte of a nibble drives: the nibble, and RS as the mode; E is low (R42, R83). -/
theorem linesOf_baseByte {mask : Byte} (hmask : mask = 0x00 ∨ mask = 0x08) (n : Nibble) (mode : Mode) :
    linesOf (baseByte Config.default n (modeByte Config.default mode) ||| mask) =
      ⟨n, mask.getLsbD 3, false, false, mode == .data⟩ := by
  rcases hmask with rfl | rfl <;> cases mode <;> revert n <;> decide

/-- The four phases of a nibble transfer latch that nibble (R83). -/
theorem latched_nibbleBytes {mask : Byte} (hmask : mask = 0x00 ∨ mask = 0x08) (n : Nibble) (mode : Mode)
    (rest : List Byte) :
    latched false ((nibbleBytes Config.default n mode).map (· ||| mask) ++ rest) =
      (n, mode == .data) :: latched false rest := by
  have hbase := linesOf_baseByte hmask n mode
  have hhigh (base : Byte) : (linesOf (base ||| Config.default.bitE ||| mask)).e = true := by
    simp [linesOf, show Config.default.bitE.getLsbD 2 = true from rfl]
  have hidle : (linesOf (Config.default.idleByte ||| mask)).e = false := by rcases hmask with rfl | rfl <;> rfl
  have hpulse := latched_pulse (by rw [hbase]) (hhigh (baseByte Config.default n (modeByte Config.default mode)))
    (by rw [hbase]) hidle rest
  rwa [hbase] at hpulse

/-- Settles O19: the two nibble transfers of a SendByte latch one nibble each. -/
theorem sendByteLatchesBothNibbles : Obligations.SendByteLatchesBothNibbles := by
  unfold Obligations.SendByteLatchesBothNibbles
  intro v mask mode hmask
  rw [sendByteBytes, List.map_append, latched_nibbleBytes hmask, ← List.append_nil (List.map _ _),
    latched_nibbleBytes hmask]
  rfl

/-- Settles O58: each clause of the state after reset is read off. -/
theorem resetMeetsInvariant : Obligations.ResetMeetsInvariant := by
  unfold Obligations.ResetMeetsInvariant
  exact ⟨by decide, by decide, by decide, by decide, by decide, by decide, nofun, by decide⟩

end Sys2Proof.Machine

/-! SUPPORT. Frames: what running actions leaves unchanged (`runActs_const`), which bytes it fetches (`runActs_reqpc`),
and what follows for a step and for each request. -/

namespace Sys2Proof.Machine

/-! ### What running actions leaves unchanged -/

/-- Running actions leaves the parameters, the reset input and the stream, and takes back no event. -/
theorem runActs_const {as : List Act} {s t : State} (h : runActs as s = .next t) :
    t.cfg = s.cfg ∧ t.resetInput = s.resetInput ∧ t.stream = s.stream ∧ s.trace <+: t.trace := by
  obtain ⟨done, rest, mid, -, hg, hend⟩ := runActs_next h
  obtain ⟨hcfg, hreset, hstream, htrace, -, -⟩ := hg.const
  rcases hend with ⟨-, rfl⟩ | ⟨b, rest', -, -, -, rfl⟩ | ⟨c, rest', -, rfl⟩ <;> exact ⟨hcfg, hreset, hstream, htrace⟩

/-- Running actions moves REQPC past the first of the bytes that they fetch. -/
theorem runActs_reqpc {as : List Act} {s t : State} (h : runActs as s = .next t) :
    ∃ bs, bs <+: fetches as ∧ t.reqpc = s.reqpc + bs.length := by
  obtain ⟨done, rest, mid, rfl, hg, hend⟩ := runActs_next h
  refine ⟨fetches done, fetches_append done rest ▸ List.prefix_append .., ?_⟩
  rcases hend with ⟨-, rfl⟩ | ⟨b, rest', -, -, -, rfl⟩ | ⟨c, rest', -, rfl⟩ <;> exact hg.reqpc

/-- Actions that fetch nothing leave REQPC. -/
theorem runActs_reqpc_of_no_fetch {as : List Act} {s t : State} (h : runActs as s = .next t) (hf : fetches as = []) :
    t.reqpc = s.reqpc := by
  obtain ⟨bs, hbs, hpc⟩ := runActs_reqpc h
  obtain rfl : bs = [] := by simpa [hf] using hbs
  simpa using hpc

/-- Actions with no raise among them leave FAULT and CAUSE. -/
theorem runActs_fault_of_no_raise {as : List Act} {s t : State} (h : runActs as s = .next t)
    (hn : ∀ c, Act.raise c ∉ as) : t.fault = s.fault ∧ t.cause = s.cause := by
  obtain ⟨done, rest, mid, rfl, hg, hend⟩ := runActs_next h
  obtain ⟨-, -, -, -, hfault, hcause⟩ := hg.const
  rcases hend with ⟨-, rfl⟩ | ⟨b, rest', -, -, -, rfl⟩ | ⟨c, rest', rfl, -⟩
  · exact ⟨hfault, hcause⟩
  · exact ⟨hfault, hcause⟩
  · exact absurd (List.mem_append_right _ (List.mem_cons_self ..)) (hn c)

/-- Plain actions leave the display registers (10_state section 2). -/
theorem runActs_plain_const {as : List Act} {s t : State} (h : runActs as s = .next t)
    (hp : as.all Act.plain = true) :
    t.cols = s.cols ∧ t.rows = s.rows ∧ t.blmask = s.blmask ∧ t.initState = s.initState := by
  refine runActs_keeps (P := fun x => x.cols = s.cols ∧ x.rows = s.rows ∧ x.blmask = s.blmask ∧
    x.initState = s.initState) h (fun a ha x y hact hx => ?_) (fun _ _ _ hx => hx) (fun _ _ hx => hx)
    ⟨rfl, rfl, rfl, rfl⟩
  obtain ⟨hcols, hrows, hmask, hinit⟩ := runAct_plain_const (List.all_eq_true.mp hp a ha) hact
  exact ⟨hcols.trans hx.1, hrows.trans hx.2.1, hmask.trans hx.2.2.1, hinit.trans hx.2.2.2⟩

/-! ### The frame of a step -/

/-- A step that is no reset leaves the parameters, the reset input and the stream, and takes back no event. -/
theorem step_const {s t : State} (hr : s.resetInput = false) (h : step s = .next t) :
    t.cfg = s.cfg ∧ t.resetInput = s.resetInput ∧ t.stream = s.stream ∧ s.trace <+: t.trace := by
  rcases step_next hr h with rfl | ⟨-, op, bs, -, ⟨c, rfl⟩ | hrun⟩ | ⟨-, -, r, -, -, hrun⟩
  · exact ⟨rfl, rfl, rfl, List.prefix_rfl⟩
  · exact ⟨rfl, rfl, rfl, List.prefix_rfl⟩
  · exact runActs_const (s := s.started op) hrun
  · obtain ⟨hcfg, hreset, hstream, htrace⟩ := runActs_const hrun
    obtain ⟨es, hes, -⟩ := s.asksFor_logged
    exact ⟨by simpa using hcfg, by simpa using hreset, by simpa using hstream,
      (hes ▸ List.prefix_append _ _).trans htrace⟩

/-- Settles O40: a reset keeps the trace, and no action takes back an event. -/
theorem traceOnlyGrows : Obligations.TraceOnlyGrows := by
  unfold Obligations.TraceOnlyGrows
  intro s t h
  cases hr : s.resetInput with
  | true =>
    obtain rfl := Host.Outcome.next.inj ((step_of_resetInput hr).symm.trans h)
    exact List.prefix_rfl
  | false =>
    obtain ⟨-, -, -, htrace⟩ := step_const hr h
    exact htrace

/-- Settles O41: no action writes the stream. -/
theorem stepNeverWritesStream : Obligations.StepNeverWritesStream := by
  unfold Obligations.StepNeverWritesStream
  intro s t hr h
  obtain ⟨-, -, hstream, -⟩ := step_const hr h
  exact hstream

/-- A step of an engine that takes a request moves REQPC past the first of the bytes that were there. -/
theorem step_consumes {s t : State} (ha : s.accepting = true) (h : step s = .next t) :
    ∃ bs, bs <+: s.available ∧ t.reqpc = s.reqpc + bs.length := by
  obtain ⟨hr, -, hb⟩ := State.accepting_iff.mp ha
  rcases step_next hr h with rfl | ⟨-, op, bs, hav, ⟨c, rfl⟩ | hrun⟩ | ⟨-, hb', -⟩
  · exact ⟨[], List.nil_prefix, rfl⟩
  · exact ⟨[op], by simp [hav], rfl⟩
  · obtain ⟨got, hgot, hpc⟩ := runActs_reqpc hrun
    refine ⟨op :: got, ?_, by simp [hpc]; omega⟩
    rw [hav]
    exact List.cons_prefix_cons.mpr ⟨rfl, hgot.trans (fetches_scriptFor_prefix op bs s)⟩
  · simp [hb] at hb'

/-- Settles O43: the bytes fetched stand at the front of those that were there, and the stream stays as it is. -/
theorem reqpcCountsConsumedBytes : Obligations.ReqpcCountsConsumedBytes := by
  unfold Obligations.ReqpcCountsConsumedBytes
  intro s t ha h
  obtain ⟨hr, -, -⟩ := State.accepting_iff.mp ha
  obtain ⟨bs, ⟨left, hleft⟩, hpc⟩ := step_consumes ha h
  obtain ⟨-, -, hstream, -⟩ := step_const hr h
  have hrest : t.available = left := by
    rw [State.available, hstream, hpc]
    exact Memory.bytesFrom_add hleft.symm
  exact ⟨bs.length, by simp [← hleft], hpc, by simp [hrest, ← hleft]⟩

/-! ### The frames of requests -/

theorem length_encode (i : Instr) : (encode i).length = lengthOf i := by
  cases i with
  | wrstr cs => exact Laws.EncodedLength.wrstr cs
  | _ => rfl

/-- What no request changes: the parameters, the reset input, the stream and the events that were emitted; and REQPC
moves by 1 to the request's length (R61, R62). -/
theorem exec_const {i : Instr} {s t : State} (h : exec i s = .next t) :
    t.cfg = s.cfg ∧ t.resetInput = s.resetInput ∧ t.stream = s.stream ∧ s.trace <+: t.trace ∧
      s.reqpc < t.reqpc ∧ t.reqpc ≤ s.reqpc + lengthOf i := by
  rw [exec_begin] at h
  have hlen : 1 + (operandsOf i).length = lengthOf i := by
    rw [← length_encode, encode, List.length_cons, Nat.add_comm]
  rcases beginRequest_next h with ⟨-, -, rfl⟩ | ⟨-, hrun⟩
  · exact ⟨rfl, rfl, rfl, List.prefix_rfl, Nat.lt_succ_self _, by simp; omega⟩
  · obtain ⟨hcfg, hreset, hstream, htrace⟩ := runActs_const hrun
    obtain ⟨bs, hbs, hpc⟩ := runActs_reqpc hrun
    have hle := hbs.length_le
    rw [fetches_script] at hle
    rw [State.started_reqpc] at hpc
    exact ⟨hcfg, hreset, hstream, htrace, by omega, by omega⟩

/-- Settles O36: a request other than INIT and BACKLIGHT has only plain actions, and a raise only where it is a GOTO. -/
theorem frameOfOtherRequests : Obligations.FrameOfOtherRequests := by
  unfold Obligations.FrameOfOtherRequests
  intro i s t hi hl h
  obtain ⟨hcfg, hreset, hstream, htrace, hlt, hle⟩ := exec_const h
  rw [exec_begin] at h
  have hregs : t.cols = s.cols ∧ t.rows = s.rows ∧ t.blmask = s.blmask ∧ t.initState = s.initState := by
    rcases beginRequest_next h with ⟨-, -, rfl⟩ | ⟨-, hrun⟩
    · exact ⟨rfl, rfl, rfl, rfl⟩
    · exact runActs_plain_const (s := s.started _) hrun (script_plain i s hi hl)
  have hfault : s.ready = true → (∀ x y, i ≠ .goto x y) → t.fault = s.fault ∧ t.cause = s.cause := by
    intro hr hgoto
    rw [beginRequest_runs (.inr hr)] at h
    refine runActs_fault_of_no_raise (s := s.started _) h fun c hc => ?_
    obtain ⟨x, y, rfl, -⟩ := script_of_raise_mem hc
    exact hgoto x y rfl
  obtain ⟨hcols, hrows, hmask, hinit⟩ := hregs
  exact ⟨hcols, hrows, hmask, hinit, hcfg, hreset, fun a => by rw [hstream], hfault, htrace, hlt, hle⟩

/-- Settles O37: BACKLIGHT's actions write BLMASK alone, fetch nothing and raise nothing. -/
theorem frameOfBacklight : Obligations.FrameOfBacklight := by
  unfold Obligations.FrameOfBacklight
  intro l s t h
  obtain ⟨hcfg, hreset, hstream, htrace, hlt, hle⟩ := exec_const h
  have hpc : t.reqpc = s.reqpc + 1 := Nat.le_antisymm hle hlt
  have hread : ∀ a, t.stream.read a = s.stream.read a := fun a => by rw [hstream]
  cases hr : s.ready with
  | false =>
    obtain rfl := Host.Outcome.next.inj ((exec_notReady (by simp) hr).symm.trans h)
    exact ⟨rfl, rfl, rfl, hcfg, hreset, hread, nofun, fun _ => rfl, htrace, hpc⟩
  | true =>
    have hrun : runActs (backlightScript s.cfg l) (s.started (opcodeOf (.backlight l))) = .next t :=
      (exec_ready (.backlight l) hr).symm.trans h
    obtain ⟨hcols, hrows⟩ := runActs_keepsSize hrun rfl
    have hinit := runActs_keepsInitState hrun rfl
    have hfault := runActs_fault_of_no_raise hrun (by simp [backlightScript])
    exact ⟨hcols, hrows, hinit, hcfg, hreset, hread, fun _ => hfault, nofun, htrace, hpc⟩

theorem raise_not_mem_initTail {s : State} {c : Cause} : Act.raise c ∉ initTail s.cfg := by
  intro hc
  have hmem : Act.raise c ∈ scriptOf (.init 0 0) s := by
    rw [scriptOf, initScript_eq]
    exact List.mem_append_right _ hc
  obtain ⟨x, y, hi, -⟩ := script_of_raise_mem hmem
  simp at hi

/-- Behind its registers INIT fetches nothing. -/
theorem fetches_initTail (s : State) : fetches (initTail s.cfg) = [] := by
  have hscript := fetches_script (.init 0 0) s
  rw [scriptOf, initScript_eq, fetches_append] at hscript
  simpa [fetches, operandsOf] using hscript

/-- Settles O38: INIT always comes to its registers, and behind them fetches nothing and raises nothing. -/
theorem frameOfInit : Obligations.FrameOfInit := by
  unfold Obligations.FrameOfInit
  intro c r s t h
  obtain ⟨hcfg, hreset, hstream, htrace, -, -⟩ := exec_const h
  rw [exec_init] at h
  obtain ⟨hfault, hcause⟩ := runActs_fault_of_no_raise h fun _ => raise_not_mem_initTail
  have hreqpc := runActs_reqpc_of_no_fetch h (fetches_initTail s)
  exact ⟨by simpa using hfault, by simpa using hcause, hcfg, hreset, fun a => by rw [hstream], htrace,
    by simpa using hreqpc⟩

end Sys2Proof.Machine

/-! SUPPORT. Noninterference: a step reads of the stream only what can be fetched (`step_withStream`), no action reads
the request in progress (`runActs_withoutRequest`), and two runs of the same actions with different answers stay alike
(`GoesOn.sameWrites`). -/

namespace Sys2Proof.Machine

/-! ### The request stream -/

/-- The actions of the bytes that are there depend on the parameters, and a GOTO's on ROWS. -/
theorem scriptFor_congr {op : Byte} {s t : State} (bs : List Byte) (hc : t.cfg = s.cfg)
    (hr : opField op = 0x7 → t.rows = s.rows) : scriptFor op bs t = scriptFor op bs s := by
  unfold scriptFor
  cases hd : decode (op :: bs) with
  | request i rest =>
    obtain ⟨rfl, -⟩ := decode_request hd
    exact scriptOf_congr i hc hr
  | incomplete op' got => simp only [hc]
  | _ => rfl

theorem State.logged_withStream (s : State) (m : Memory) :
    State.logged { s with stream := m } = { s.logged with stream := m } := by
  cases h : s.logDue <;> simp [State.logged, h, State.emitted]

/-- Going on with a request does not look at the stream but for the bytes that can be fetched. -/
theorem resume_withStream {s x : State} {m : Memory} (hx : x = { s with stream := m })
    (hav : x.available = s.available) : resume x = withStream m (resume s) := by
  have hreq : x.request = s.request := by rw [hx]
  have hlogged : x.logged = { s.logged with stream := m } := by rw [hx, State.logged_withStream]
  have hacts : ∀ r, remainingActs r x = remainingActs r s := fun r => by
    rw [remainingActs, hav, scriptFor_congr (s := s) _ (by rw [hx]) fun _ => by rw [hx]]
    rfl
  unfold resume
  rw [hreq]
  cases s.request with
  | none => rw [hx]; rfl
  | some r =>
    simp only [hacts, hlogged, runActs_withStream]
    split
    · rw [hx]; rfl
    · rfl

/-- A step that is no reset does not look at the stream but for the bytes that can be fetched. -/
theorem step_withStream {s x : State} {m : Memory} (hr : s.resetInput = false) (hx : x = { s with stream := m })
    (hav : x.available = s.available) : step x = withStream m (step s) := by
  have hr' : x.resetInput = false := by rw [hx, hr]
  have hf' : x.fault = s.fault := by rw [hx]
  have hb' : x.busy = s.busy := by rw [hx]
  cases hf : s.fault with
  | true => rw [step_of_fault hr hf, step_of_fault hr' (hf'.trans hf), hx, withStream]
  | false =>
    cases hb : s.busy with
    | true => simpa [step, hr, hr', hf', hf, hb', hb] using resume_withStream hx hav
    | false =>
      have ha : s.accepting = true := State.accepting_iff.mpr ⟨hr, hf, hb⟩
      have ha' : x.accepting = true := State.accepting_iff.mpr ⟨hr', hf'.trans hf, hb'.trans hb⟩
      cases hbytes : s.available with
      | nil => rw [step_of_no_byte ha hbytes, step_of_no_byte ha' (hav.trans hbytes), hx, withStream]
      | cons op bs =>
        rw [step_of_accepting ha hbytes, step_of_accepting ha' (hav.trans hbytes),
          scriptFor_congr (s := s) bs (by rw [hx]) fun _ => by rw [hx], hx, beginRequest_withStream]
        split <;> rfl

theorem exec_withStream (i : Instr) (s : State) (m : Memory) :
    exec i { s with stream := m } = withStream m (exec i s) := by
  rw [exec_begin, exec_begin, beginRequest_withStream,
    scriptOf_congr (s := s) (t := { s with stream := m }) i rfl fun _ => rfl]

/-- Settles O42: a byte before REQPC is not among those that can be fetched. -/
theorem fetchedByteIsNeverReadAgain : Obligations.FetchedByteIsNeverReadAgain := by
  unfold Obligations.FetchedByteIsNeverReadAgain
  intro s t a b hr ha h
  obtain ⟨-, -, hstream, -⟩ := step_const hr h
  rw [step_withStream hr rfl (Memory.bytesFrom_write_before s.stream b ha), h, withStream, hstream]

/-! ### The request in progress -/

/-- The outcome with no request in progress. -/
def withoutRequest : Result → Result
  | .next s => .next { s with request := none }
  | .fault f => .fault f
  | .refused r => .refused r

/-- Running actions does not look at the request in progress (R34). -/
theorem runActs_withoutRequest (as : List Act) (s : State) :
    runActs as { s with request := none } = withoutRequest (runActs as s) := by
  induction as generalizing s with
  | nil => rfl
  | cons a as ih =>
    simp only [runActs]
    cases a with
    | write b =>
      have hwrote : ∀ (b' : Byte) (ack : Bool) (u : Transport), State.wrote b' ack u { s with request := none } =
          { s.wrote b' ack u with request := none } := fun _ ack _ => by cases ack <;> rfl
      simp only [runAct_write, hwrote]
      cases s.blmask.written with
      | false => rfl
      | true =>
        cases s.transport.next? with
        | none => rfl
        | some p => exact ih _
    | fetch b => exact ih (s.fetched b)
    | install c r m => exact ih (s.installed c r m)
    | setBacklight m => exact ih (s.backlightSet m)
    | setInitState i => exact ih (s.initStateSet i)
    | wait u => exact ih (s.waited u)
    | respond => exact ih s.responded
    | readUnwritten => rfl
    | raise c => rfl

/-- A request that is left with BUSY = 0 is no longer in progress. -/
theorem exec_request_of_idle {i : Instr} {s t : State} (h : exec i s = .next t) (hb : t.busy = false) :
    t.request = none := by
  rcases exec_ways h with
    ⟨-, -, rfl⟩ | ⟨-, body, z, -, -, ⟨-, m, -, rfl⟩ | ⟨x, y, -, -, rfl⟩ | ⟨done, b, r, m, -, -, -, -, hbusy, rfl⟩⟩
  · rfl
  · rfl
  · rfl
  · simp [hbusy] at hb

/-- For 1 ≤ ROWS every row at or past ROWS is clamped to the last row, which is not clamped (R130). -/
theorem clampRow_last {rows y : Byte} (h1 : 1 ≤ rows) (hy : rows ≤ y) : clampRow rows (rows - 1) = clampRow rows y := by
  have hlast : ¬ rows ≤ rows - 1 := by bv_omega
  simp only [clampRow, if_neg hlast, if_pos hy]

/-- Behind its operands a clamped GOTO has the actions of the GOTO to the last row. -/
theorem gotoScript_last {rows : DisplayReg} {y : Byte} (h1 : 1 ≤ rows.value) (hy : rows.value ≤ y) (cfg : Config)
    (x : Byte) : (gotoScript cfg rows x (rows.value - 1)).drop 2 = (gotoScript cfg rows x y).drop 2 := by
  simp only [gotoScript, DisplayReg.read?]
  split
  · rfl
  · next r hread =>
    obtain ⟨-, rfl⟩ : rows.written = true ∧ rows.value = r := by simpa using hread
    simp only [gotoBody, clampRow_last h1 hy, List.cons_append, List.nil_append, List.drop_succ_cons, List.drop_zero]

/-- What a GOTO comes to, but for the request in progress, does not depend on its operands beyond its actions. -/
theorem exec_goto_withoutRequest (x y : Byte) {s : State} (hr : s.ready = true) :
    withoutRequest (exec (.goto x y) s) = runActs ((gotoScript s.cfg s.rows x y).drop 2)
      { s.started 0x70 with reqpc := s.reqpc + 3, request := none } := by
  rw [exec_ready _ hr, ← runActs_withoutRequest]
  rfl

/-- A request that comes to the idle state `t`, but for the request in progress, comes to `t`. -/
theorem exec_of_withoutRequest {i : Instr} {s t : State} (h : withoutRequest (exec i s) = .next t)
    (hb : t.busy = false) : exec i s = .next t := by
  cases he : exec i s with
  | next u =>
    rw [he] at h
    obtain rfl := Host.Outcome.next.inj h
    have hu : u.request = none := exec_request_of_idle he hb
    rw [← hu]
  | fault f =>
    rw [he] at h
    cases h
  | refused r =>
    rw [he] at h
    cases h

/-- Settles O28: the actions differ in the second operand alone, which only the request in progress keeps. -/
theorem gotoClampsToLastRow : Obligations.GotoClampsToLastRow := by
  unfold Obligations.GotoClampsToLastRow
  intro s t x y h1 _ hy hb h
  cases hr : s.ready with
  | false =>
    rw [exec_notReady (by simp) hr] at h ⊢
    exact h
  | true =>
    refine exec_of_withoutRequest ?_ hb
    have ht : t.request = none := exec_request_of_idle h hb
    rw [exec_goto_withoutRequest x _ hr, gotoScript_last h1 hy, ← exec_goto_withoutRequest x y hr, h, withoutRequest,
      ← ht]

/-! ### The Transport's answers -/

theorem runAct_write_goesOn {b : Byte} {s t : State} (h : runAct (.write b) s = .goesOn t) :
    ∃ ack tr, t = s.wrote (b ||| s.blmask.value) ack tr := by
  rw [runAct_write] at h
  split at h
  · split at h
    · cases h
    · exact ⟨_, _, (ActResult.goesOn.inj h).symm⟩
  · cases h

/-- The first state is the second but for what the Transport's answers can change, and the same bytes were written with
the same waits. -/
def State.SameWrites (x y : State) : Prop :=
  ∃ f u es p, x = { y with failed := f, transport := u, trace := es, request := p } ∧
    writtenBytes es = writtenBytes y.trace ∧ totalWait es = totalWait y.trace

/-- One action that goes on under both scripts of answers keeps the two states alike. -/
theorem State.SameWrites.runAct {a : Act} {x y x' y' : State} (h : x.SameWrites y) (hx : runAct a x = .goesOn x')
    (hy : runAct a y = .goesOn y') : x'.SameWrites y' := by
  obtain ⟨f, u, es, p, rfl, hw, ht⟩ := h
  cases a with
  | write b =>
    obtain ⟨ack, tr, rfl⟩ := runAct_write_goesOn hx
    obtain ⟨ack', tr', rfl⟩ := runAct_write_goesOn hy
    refine ⟨failedAfter f ack, tr, es ++ loggedWrite (b ||| y.blmask.value) ack,
      p.map fun r => { r with event := r.event + (loggedWrite (b ||| y.blmask.value) ack).length, next := r.next + 1 },
      ?_, by simp [hw], by simp [ht]⟩
    apply State.ext <;> simp
  | readUnwritten => simp [Machine.runAct] at hy
  | raise c => simp [Machine.runAct] at hy
  | wait us =>
    obtain rfl := ActResult.goesOn.inj hx
    obtain rfl := ActResult.goesOn.inj hy
    exact ⟨f, u, es ++ waitEvents us, _, rfl, by simp [hw], by simp [ht]⟩
  | respond =>
    obtain rfl := ActResult.goesOn.inj hx
    obtain rfl := ActResult.goesOn.inj hy
    exact ⟨f, u, es ++ [.resp (responseByte f)], _, rfl, by simp [hw, writtenBytes], by simp [ht, totalWait]⟩
  | _ =>
    obtain rfl := ActResult.goesOn.inj hx
    obtain rfl := ActResult.goesOn.inj hy
    exact ⟨f, u, es, _, rfl, hw, ht⟩

theorem GoesOn.sameWrites {as : List Act} {x y x' y' : State} (hx : GoesOn as x x') (hy : GoesOn as y y')
    (h : x.SameWrites y) : x'.SameWrites y' := by
  induction hx generalizing y with
  | nil =>
    cases hy
    exact h
  | cons hax _ ih =>
    cases hy with
    | cons hay hry => exact ih hry (h.runAct hax hay)

/-- The two states are equal but for FAILED, the Transport and the trace once no request is in progress. -/
theorem State.SameWrites.eq_of_no_request {x y : State} (h : x.SameWrites y) (hx : x.request = none)
    (hy : y.request = none) :
    writtenBytes x.trace = writtenBytes y.trace ∧ totalWait x.trace = totalWait y.trace ∧
      { y with failed := x.failed, transport := x.transport, trace := x.trace } = x := by
  obtain ⟨f, u, es, p, rfl, hw, ht⟩ := h
  obtain rfl : p = none := hx
  exact ⟨hw, ht, by rw [← hy]⟩

/-- Each of the actions that go on goes on from somewhere. -/
theorem GoesOn.of_mem {as : List Act} {s t : State} {a : Act} (h : GoesOn as s t) (ha : a ∈ as) :
    ∃ x y, runAct a x = .goesOn y := by
  induction h with
  | nil => exact absurd ha List.not_mem_nil
  | cons hact _ ih =>
    rcases List.mem_cons.mp ha with rfl | hmem
    · exact ⟨_, _, hact⟩
    · exact ih hmem

theorem GoesOn.raise_not_mem {as : List Act} {s t : State} (h : GoesOn as s t) (c : Cause) : Act.raise c ∉ as := by
  intro hmem
  obtain ⟨x, y, hact⟩ := h.of_mem hmem
  cases hact

/-- A request left with BUSY = 0 was refused with NotReady, did all its actions, or is a GOTO that found no row. -/
theorem exec_ways_of_idle {i : Instr} {s t : State} (h : exec i s = .next t) (hb : t.busy = false) :
    (needsReady (opcodeOf i) = true ∧ s.ready = false ∧ t = (s.started (opcodeOf i)).raised .notReady) ∨
    ((needsReady (opcodeOf i) = false ∨ s.ready = true) ∧
      (GoesOn (scriptOf i s) (s.started (opcodeOf i)) t ∨
       ∃ x y, i = .goto x y ∧ Act.raise .rowTableOverrun ∈ scriptOf i s ∧
         t = (((s.started (opcodeOf i)).fetched x).fetched y).raised .rowTableOverrun)) := by
  rcases exec_ways h with hrefused | ⟨hr, body, z, hs, -, hend⟩
  · exact .inl hrefused
  refine .inr ⟨hr, ?_⟩
  rcases hend with ⟨rfl, m, hg, rfl⟩ | ⟨x, y, hi, rfl, ht⟩ | ⟨done, b, r, m, -, -, -, -, hbusy, rfl⟩
  · exact .inl (hs ▸ hg.append (.cons rfl (.nil _)))
  · exact .inr ⟨x, y, hi, by simp [hs], ht⟩
  · simp [hbusy] at hb

theorem State.SameWrites.started {x y : State} (h : x.SameWrites y) (op : Byte) :
    (x.started op).SameWrites (y.started op) := by
  obtain ⟨f, u, es, p, rfl, hw, ht⟩ := h
  exact ⟨_, _, _, _, rfl, hw, ht⟩

theorem State.SameWrites.raised {x y : State} (h : x.SameWrites y) (c : Cause) :
    (x.raised c).SameWrites (y.raised c) := by
  obtain ⟨f, u, es, p, rfl, hw, ht⟩ := h
  exact ⟨_, _, _, _, rfl, hw, ht⟩

/-- Two runs of a request that differ in the Transport's answers, and come to their end, stay alike. -/
theorem exec_sameWrites {i : Instr} {x y a b : State} (h : x.SameWrites y) (ha : exec i x = .next a)
    (hb : exec i y = .next b) (hai : a.busy = false) (hbi : b.busy = false) : a.SameWrites b := by
  obtain ⟨hcfg, hrows, hready⟩ : x.cfg = y.cfg ∧ x.rows = y.rows ∧ x.ready = y.ready := by
    obtain ⟨f, u, es, p, rfl, -, -⟩ := h
    exact ⟨rfl, rfl, rfl⟩
  have hscript : scriptOf i x = scriptOf i y := scriptOf_congr i hcfg fun _ => hrows
  have hst := h.started (opcodeOf i)
  rcases exec_ways_of_idle ha hai with ⟨hn, hr, rfl⟩ | ⟨hr, hend⟩
  · rw [exec_begin, beginRequest_notReady hn (hready ▸ hr)] at hb
    obtain rfl := Host.Outcome.next.inj hb
    exact hst.raised _
  rcases exec_ways_of_idle hb hbi with ⟨hn, hr', -⟩ | ⟨-, hend'⟩
  · simp [hn, hready, hr'] at hr
  rcases hend with hga | ⟨c, d, rfl, hmem, rfl⟩
  · rcases hend' with hgb | ⟨c, d, rfl, hmem, rfl⟩
    · exact (hscript ▸ hga).sameWrites hgb hst
    · exact absurd hmem ((hscript ▸ hga).raise_not_mem _)
  · rcases hend' with hgb | ⟨c', d', hi, -, rfl⟩
    · exact absurd (hscript ▸ hmem) (hgb.raise_not_mem _)
    · obtain ⟨rfl, rfl⟩ := Instr.goto.inj hi
      exact ((hst.runAct (a := .fetch c) rfl rfl).runAct (a := .fetch d) rfl rfl).raised _

/-- Settles O44: both runs do the same actions, and an answer moves only FAILED, the Transport and the trace. -/
theorem writesDoNotDependOnAnswers : Obligations.WritesDoNotDependOnAnswers := by
  unfold Obligations.WritesDoNotDependOnAnswers
  intro i s a b u v ha hb hai hbi
  have hsame : State.SameWrites { s with transport := u } { s with transport := v } := ⟨_, _, _, _, rfl, rfl, rfl⟩
  exact (exec_sameWrites hsame ha hb hai hbi).eq_of_no_request (exec_request_of_idle ha hai)
    (exec_request_of_idle hb hbi)

end Sys2Proof.Machine

/-! SUPPORT. What stands on the bus: the bytes written carry BLMASK's bit 3 where the actions' own bytes leave it 0
(`runActs_writesUnder`), what actions cost in writes and waits (`GoesOn.budget`), and the nibbles that INIT's bytes
latch. -/

namespace Sys2Proof.Machine

/-! ### The backlight bit -/

/-- The action leaves BLMASK. -/
def Act.keepsMask : Act → Bool
  | .install _ _ _ => false
  | .setBacklight _ => false
  | _ => true

/-- The action writes no byte with bit 3, the backlight bit of the default parameters, of its own. -/
def Act.ledLow : Act → Bool
  | .write b => !b.getLsbD 3
  | _ => true

/-- Between the two states BLMASK stayed, and every byte written has its bit 3. -/
def State.WritesUnder (s t : State) : Prop :=
  t.blmask = s.blmask ∧
    ∃ es, t.trace = s.trace ++ es ∧ ∀ b ∈ writtenBytes es, b.getLsbD 3 = s.blmask.value.getLsbD 3

theorem State.WritesUnder.of_silent {s t : State} {es : List Event} (hmask : t.blmask = s.blmask)
    (htrace : t.trace = s.trace ++ es) (hes : writtenBytes es = []) : s.WritesUnder t :=
  ⟨hmask, es, htrace, by simp [hes]⟩

theorem State.WritesUnder.trans {s t u : State} (h : s.WritesUnder t) (h' : t.WritesUnder u) : s.WritesUnder u := by
  obtain ⟨hmask, es, htrace, hes⟩ := h
  obtain ⟨hmask', fs, htrace', hfs⟩ := h'
  refine ⟨hmask'.trans hmask, es ++ fs, by rw [htrace', htrace, List.append_assoc], fun b hb => ?_⟩
  rw [writtenBytes_append, List.mem_append] at hb
  rw [hmask] at hfs
  exact hb.elim (hes b) (hfs b)

/-- One action that goes on writes under BLMASK (R14). -/
theorem runAct_writesUnder {a : Act} {s t : State} (h : runAct a s = .goesOn t) (hm : a.keepsMask = true)
    (hl : a.ledLow = true) : s.WritesUnder t := by
  rcases runAct_goesOn h with ⟨b, rfl, rfl⟩ | ⟨c, r, m, rfl, rfl⟩ | ⟨m, rfl, rfl⟩ | ⟨i, rfl, rfl⟩ |
    ⟨b, ack, tr, rfl, -, -, rfl⟩ | ⟨us, rfl, rfl⟩ | ⟨rfl, rfl⟩
  case inr.inr.inr.inr.inl =>
    have hbit : b.getLsbD 3 = false := by simpa [Act.ledLow] using hl
    refine ⟨State.wrote_blmask .., _, State.wrote_trace .., fun b' hb' => ?_⟩
    rw [writtenBytes_loggedWrite, List.mem_singleton] at hb'
    rw [hb', BitVec.getLsbD_or, hbit, Bool.false_or]
  case inr.inr.inr.inr.inr.inl => exact .of_silent rfl (State.waited_trace s us) (writtenBytes_waitEvents us)
  case inr.inr.inr.inr.inr.inr => exact .of_silent rfl (State.responded_trace s) rfl
  case inr.inl => simp [Act.keepsMask] at hm
  case inr.inr.inl => simp [Act.keepsMask] at hm
  all_goals exact .of_silent (es := []) rfl (List.append_nil _).symm rfl

theorem GoesOn.writesUnder {as : List Act} {s t : State} (h : GoesOn as s t) (hm : as.all Act.keepsMask = true)
    (hl : as.all Act.ledLow = true) : s.WritesUnder t := by
  induction h with
  | nil s => exact .of_silent (es := []) rfl (List.append_nil _).symm rfl
  | cons ha _ ih =>
    rw [List.all_cons, Bool.and_eq_true] at hm hl
    obtain ⟨hm, hms⟩ := hm
    obtain ⟨hl, hls⟩ := hl
    exact (runAct_writesUnder ha hm hl).trans (ih hms hls)

/-- Running actions that leave BLMASK and have bit 3 of every byte 0 writes bytes that have BLMASK's. -/
theorem runActs_writesUnder {as : List Act} {s t : State} (h : runActs as s = .next t)
    (hm : as.all Act.keepsMask = true) (hl : as.all Act.ledLow = true) : s.WritesUnder t := by
  obtain ⟨done, rest, mid, rfl, hg, hend⟩ := runActs_next h
  rw [List.all_append, Bool.and_eq_true] at hm hl
  have hmid := hg.writesUnder hm.1 hl.1
  rcases hend with ⟨-, rfl⟩ | ⟨b, rest', -, -, -, rfl⟩ | ⟨c, rest', -, rfl⟩ <;> exact hmid

/-- What holds of the fetches, the waits and the ends of a request, and of every action of a SendByte, holds of every
action of a request other than INIT, BACKLIGHT and WRRAW. -/
theorem script_all_of_sendByte {p : Act → Bool} {i : Instr} {s : State} (hf : ∀ b, p (.fetch b) = true)
    (hw : ∀ us, p (.wait us) = true) (hu : p .readUnwritten = true) (hr : ∀ c, p (.raise c) = true)
    (he : p .respond = true) (hs : ∀ v m, (sendByteActs s.cfg v m).all p = true) (h1 : ∀ c r, i ≠ .init c r)
    (h2 : ∀ l, i ≠ .backlight l) (h3 : ∀ b, i ≠ .wrraw b) : (scriptOf i s).all p = true := by
  have hc (v : Byte) : (cmdSettleActs s.cfg v ++ [Act.respond]).all p = true := by
    simp only [cmdSettleActs, List.all_append, List.all_cons, List.all_nil, hs, hw, he, Bool.and_true]
  have hbytes (vs : List Byte) : (vs.flatMap fun v => sendByteActs s.cfg v .data).all p = true := by
    rw [List.all_flatMap]
    exact List.all_eq_true.mpr fun v _ => hs v .data
  have hchars (vs : List Byte) : (vs.flatMap (charActs s.cfg)).all p = true := by
    rw [List.all_flatMap]
    exact List.all_eq_true.mpr fun v _ => by rw [charActs, List.all_cons, hf, hs, Bool.and_self]
  cases i with
  | init c r => exact absurd rfl (h1 c r)
  | backlight l => exact absurd rfl (h2 l)
  | wrraw b => exact absurd rfl (h3 b)
  | clear => exact hc _
  | home => exact hc _
  | entry a b => exact hc _
  | dispctl a b c => exact hc _
  | shift a b => exact hc _
  | goto x y =>
    simp only [scriptOf, gotoScript, gotoBody, List.all_append, List.all_cons, List.all_nil, hf, Bool.true_and]
    split
    · simp only [List.all_cons, List.all_nil, hu, Bool.and_true]
    · split <;> simp only [List.all_append, List.all_cons, List.all_nil, hr, hs, he, Bool.and_true]
  | glyph slot p0 p1 p2 p3 p4 p5 p6 p7 =>
    simp only [scriptOf, glyphScript, List.map_cons, List.map_nil, List.all_append, List.all_cons, List.all_nil, hf, hs,
      hbytes, he, Bool.and_true]
  | wrstr cs =>
    simp only [scriptOf, wrstrScript, List.all_append, List.all_cons, List.all_nil, hchars, hf, he, Bool.and_true]
  | sendbyte v m =>
    simp only [scriptOf, sendbyteScript, List.all_append, List.all_cons, List.all_nil, hf, hs, he, Bool.and_true]

/-- With the default parameters no phase of a SendByte sets the backlight bit (R83). -/
theorem sendByteActs_ledLow (v : Byte) (mode : Mode) : (sendByteActs Config.default v mode).all Act.ledLow = true := by
  have hphases : ∀ n : Nibble, (nibbleBytes Config.default n mode).all (fun b => !b.getLsbD 3) = true := by
    cases mode <;> decide
  simp only [sendByteActs, sendByteBytes, List.map_append, List.all_append, List.all_map, Bool.and_eq_true]
  exact ⟨hphases _, hphases _⟩

/-- Nor does any write of INIT (R100). -/
theorem initTail_ledLow : (initTail Config.default).all Act.ledLow = true := by
  have hresync : (sendCommandActs Config.default (Config.default.resyncNibble.setWidth 8)).all Act.ledLow = true := by
    decide
  simp only [initTail, initScript, resyncActs, initCommandActs, List.append_assoc, List.cons_append, List.nil_append,
    List.drop_succ_cons, List.drop_zero, List.all_append, List.all_cons, List.all_nil, sendByteActs_ledLow, hresync,
    Act.ledLow, Bool.and_self]

/-- Settles O45: the actions write under BLMASK as INIT and BACKLIGHT set it first and the other requests find it. -/
theorem everyWriteCarriesBacklight : Obligations.EveryWriteCarriesBacklight := by
  unfold Obligations.EveryWriteCarriesBacklight
  intro i s t h3 hcfg h
  suffices hunder : ∃ u : State, u.trace = s.trace ∧ u.WritesUnder t by
    obtain ⟨u, hu, hmask, es, htrace, hes⟩ := hunder
    rw [htrace, hu, List.drop_left, hmask]
    exact hes
  by_cases h1 : ∃ c r, i = .init c r
  · obtain ⟨c, r, rfl⟩ := h1
    rw [exec_init, hcfg] at h
    have hm := initTail_all (p := Act.keepsMask) (fun _ => rfl) (fun _ => rfl) (fun _ => rfl) rfl Config.default
    refine ⟨_, ?_, runActs_writesUnder h hm initTail_ledLow⟩
    simp
  by_cases h2 : ∃ l, i = .backlight l
  · obtain ⟨l, rfl⟩ := h2
    cases hr : s.ready with
    | false =>
      obtain rfl := Host.Outcome.next.inj ((exec_notReady (by simp) hr).symm.trans h)
      exact ⟨s, rfl, .of_silent (es := []) rfl (List.append_nil _).symm rfl⟩
    | true =>
      rw [exec_ready _ hr] at h
      exact ⟨(s.started (opcodeOf (.backlight l))).backlightSet (backlightMask s.cfg l), rfl,
        runActs_writesUnder (as := [.write 0x00, .respond]) h rfl rfl⟩
  · have h1 : ∀ c r, i ≠ .init c r := fun c r hi => h1 ⟨c, r, hi⟩
    have h2 : ∀ l, i ≠ .backlight l := fun l hi => h2 ⟨l, hi⟩
    have hm : (scriptOf i s).all Act.keepsMask = true :=
      script_all_of_sendByte (fun _ => rfl) (fun _ => rfl) rfl (fun _ => rfl) rfl
        (fun v m => sendByteActs_all _ (fun _ => rfl) _ v m) h1 h2 h3
    have hl : (scriptOf i s).all Act.ledLow = true :=
      script_all_of_sendByte (fun _ => rfl) (fun _ => rfl) rfl (fun _ => rfl) rfl
        (fun v m => hcfg ▸ sendByteActs_ledLow v m) h1 h2 h3
    rw [exec_begin] at h
    rcases beginRequest_next h with ⟨-, -, rfl⟩ | ⟨-, hrun⟩
    · exact ⟨s, rfl, .of_silent (es := []) rfl (List.append_nil _).symm rfl⟩
    · exact ⟨s.started _, rfl, runActs_writesUnder hrun hm hl⟩

/-! ### The bus budget -/

/-- The writes, the `T` events and the total wait of one action (R210). -/
def Act.budget : Act → Nat × Nat × Nat
  | .write _ => (1, 0, 0)
  | .wait us => (0, if us = 0 then 0 else 1, us)
  | _ => 0

/-- The writes, the `T` events and the total wait of a list of actions. -/
def budget (as : List Act) : Nat × Nat × Nat := (as.map Act.budget).sum

/-- The writes, the `T` events and the total wait of events. -/
def eventBudget (es : List Event) : Nat × Nat × Nat := ((writtenBytes es).length, waitEventCount es, totalWait es)

theorem budget_append (as bs : List Act) : budget (as ++ bs) = budget as + budget bs := by
  rw [budget, List.map_append, List.sum_append, budget, budget]

theorem budget_nil : budget [] = 0 := rfl

theorem budget_cons (a : Act) (as : List Act) : budget (a :: as) = a.budget + budget as := by
  rw [budget, List.map_cons, List.sum_cons, budget]

theorem waitEventCount_append (es fs : List Event) :
    waitEventCount (es ++ fs) = waitEventCount es + waitEventCount fs := by
  induction es with
  | nil => simp [waitEventCount]
  | cons e es ih => cases e <;> simp [waitEventCount, ih]; omega

theorem eventBudget_append (es fs : List Event) : eventBudget (es ++ fs) = eventBudget es + eventBudget fs := by
  simp [eventBudget, waitEventCount_append]

theorem eventBudget_loggedWrite (b : Byte) (ack : Bool) : eventBudget (loggedWrite b ack) = (1, 0, 0) := by
  cases ack <;> rfl

theorem eventBudget_waitEvents (us : Nat) : eventBudget (waitEvents us) = (0, if us = 0 then 0 else 1, us) := by
  by_cases h : us = 0 <;> simp [eventBudget, waitEvents, h, writtenBytes, waitEventCount, totalWait]

/-- Actions that go on emit the events that they cost. -/
theorem GoesOn.budget {as : List Act} {s t : State} (h : GoesOn as s t) :
    ∃ es, t.trace = s.trace ++ es ∧ eventBudget es = Machine.budget as := by
  induction h with
  | nil => exact ⟨[], (List.append_nil _).symm, rfl⟩
  | @cons a rest s s' t ha _ ih =>
    obtain ⟨fs, hfs, hrest⟩ := ih
    have hact : ∃ es, s'.trace = s.trace ++ es ∧ eventBudget es = a.budget := by
      rcases runAct_goesOn ha with ⟨b, rfl, rfl⟩ | ⟨c, r, m, rfl, rfl⟩ | ⟨m, rfl, rfl⟩ | ⟨i, rfl, rfl⟩ |
        ⟨b, ack, tr, rfl, -, -, rfl⟩ | ⟨us, rfl, rfl⟩ | ⟨rfl, rfl⟩
      case inr.inr.inr.inr.inl => exact ⟨_, State.wrote_trace .., eventBudget_loggedWrite _ ack⟩
      case inr.inr.inr.inr.inr.inl => exact ⟨_, State.waited_trace s us, eventBudget_waitEvents us⟩
      case inr.inr.inr.inr.inr.inr => exact ⟨_, State.responded_trace s, rfl⟩
      all_goals exact ⟨[], (List.append_nil _).symm, rfl⟩
    obtain ⟨es, hes, hcost⟩ := hact
    exact ⟨es ++ fs, by rw [hfs, hes, List.append_assoc], by rw [eventBudget_append, hcost, hrest, budget_cons]⟩

theorem budget_writes (bs : List Byte) : budget (bs.map .write) = (bs.length, 0, 0) := by
  induction bs with
  | nil => rfl
  | cons b bs ih => simp [budget_cons, ih, Act.budget]; omega

theorem budget_sendByteActs (cfg : Config) (v : Byte) (m : Mode) : budget (sendByteActs cfg v m) = (8, 0, 0) :=
  budget_writes _

theorem budget_sendCommandActs (cfg : Config) (v : Byte) : budget (sendCommandActs cfg v) = (3, 0, 0) :=
  budget_writes _

/-- Each character of a WRSTR costs a SendByte (R150). -/
theorem budget_charActs (cfg : Config) (cs : List Byte) :
    budget (cs.flatMap (charActs cfg)) = (8 * cs.length, 0, 0) := by
  induction cs with
  | nil => rfl
  | cons c cs ih =>
    simp [charActs, budget_append, budget_cons, budget_sendByteActs, ih, Act.budget]
    omega

/-- A request that sends one byte and waits a while costs 8 writes and that wait (R111). -/
theorem budget_cmdSettleActs {cfg : Config} (h : cfg.cmdSettleUs = 2000) (c : Byte) :
    budget (cmdSettleActs cfg c ++ [Act.respond]) = (8, 1, 2000) := by
  simp [cmdSettleActs, budget_append, budget_cons, budget_nil, budget_sendByteActs, Act.budget, h]

/-- A GOTO whose actions all go on has found a row, and sends one byte (R130). -/
theorem budget_goto {x y : Byte} {s u t : State} (hg : GoesOn (scriptOf (.goto x y) s) u t) :
    budget (scriptOf (.goto x y) s) = (8, 0, 0) := by
  cases hrows : s.rows.written with
  | false =>
    obtain ⟨v, w, hact⟩ := hg.of_mem (a := .readUnwritten)
      (by simp [scriptOf, gotoScript, DisplayReg.read?, hrows])
    cases hact
  | true =>
    cases hc : clampRow s.rows.value y with
    | none =>
      exact absurd (by simp [scriptOf, gotoScript, gotoBody, DisplayReg.read?, hrows, hc])
        (hg.raise_not_mem .rowTableOverrun)
    | some yc =>
      simp [goto_script_of_row hrows hc, budget_append, budget_cons, budget_nil, budget_sendByteActs, Act.budget]

/-- Settles O56: a completed request has done all its actions, and each action has its cost. -/
theorem busBudgetOfRequests : Obligations.BusBudgetOfRequests := by
  unfold Obligations.BusBudgetOfRequests
  intro i s t hcfg _ h hb hf
  have hg : GoesOn (scriptOf i s) (s.started (opcodeOf i)) t := by
    rcases exec_ways_of_idle h hb with ⟨-, -, rfl⟩ | ⟨-, hg | ⟨x, y, -, -, rfl⟩⟩
    · simp at hf
    · exact hg
    · simp at hf
  obtain ⟨es, htrace, hcost⟩ := hg.budget
  have hsettle : s.cfg.cmdSettleUs = 2000 := by rw [hcfg]; rfl
  rw [htrace, State.started_trace, List.drop_left, ← eventBudget, hcost]
  cases i with
  | init c r =>
    simp [scriptOf, initScript, resyncActs, initCommandActs, budget_append, budget_cons, budget_nil,
      budget_sendByteActs, budget_sendCommandActs, Act.budget, hcfg, Config.default]
  | clear => exact budget_cmdSettleActs hsettle _
  | home => exact budget_cmdSettleActs hsettle _
  | entry a b => exact budget_cmdSettleActs hsettle _
  | dispctl a b c => exact budget_cmdSettleActs hsettle _
  | shift a b => exact budget_cmdSettleActs hsettle _
  | goto x y => exact budget_goto hg
  | glyph slot p0 p1 p2 p3 p4 p5 p6 p7 =>
    have hrows : s.cfg.glyphRows = 8 := by rw [hcfg]; rfl
    simp [scriptOf, glyphScript, hrows, budget_append, budget_cons, budget_nil, budget_sendByteActs, Act.budget]
  | backlight l => rfl
  | wrstr cs =>
    simp [scriptOf, wrstrScript, budget_append, budget_cons, budget_nil, budget_charActs, Act.budget]
  | sendbyte v m =>
    simp [scriptOf, sendbyteScript, budget_append, budget_cons, budget_nil, budget_sendByteActs, Act.budget]
  | wrraw b => rfl

/-! ### What INIT latches -/

/-- The bytes of the `W` events of items are the bytes that the items put on the bus. -/
theorem writtenBytes_busEvents (mask : Byte) {items : List BusItem} {acks : List Bool}
    (h : acks.length = writeCount items) : writtenBytes (busEvents mask items acks) = busBytes mask items := by
  induction items generalizing acks with
  | nil => rfl
  | cons i items ih =>
    cases i with
    | wait us =>
      rw [busEvents, ← waitEvents, writtenBytes_append, writtenBytes_waitEvents, List.nil_append, busBytes, ih h]
    | write b =>
      cases acks with
      | nil => simp [writeCount] at h
      | cons ack acks =>
        have hrest := ih (Nat.succ.inj h)
        cases ack <;> simp [busEvents, busBytes, writtenBytes, hrest]

/-- Settles O35: the bytes of INIT's stages, evaluated at the default parameters. -/
theorem initLatchesCommandsInOrder : Obligations.InitLatchesCommandsInOrder := by
  unfold Obligations.InitLatchesCommandsInOrder
  intro s t c r hcfg ha h
  obtain rfl := Host.Outcome.next.inj ((exec_init_completes c r ha).symm.trans h)
  have hlatched : latched false (busBytes (backlightMask Config.default Config.default.initBacklight)
      ((initStages Config.default).flatMap InitStage.items)) =
        [0x3, 0x3, 0x3, 0x0, 0x2, 0x2, 0x8, 0x0, 0xC, 0x0, 0x1, 0x0, 0x6].map fun n => (n, false) := by decide
  have hwritten := writtenBytes_busEvents (backlightMask s.cfg s.cfg.initBacklight)
    (items := (initStages s.cfg).flatMap InitStage.items) (Transport.take_length (by rwa [writeCount_initStages]))
  simp only [State.afterRequest, List.append_assoc, List.drop_left, writtenBytes_append, hwritten, writtenBytes,
    List.append_nil]
  rw [hcfg, hlatched]

end Sys2Proof.Machine

/-! SUPPORT. How a request that begins ends (60_exceptions R160, `step_ways`), that a request left waiting waits on
(`step_of_outstanding`), and that a request whose bytes come in two parts has done the first of its actions where it
comes to wait (`incompleteScript_prefix`). -/

namespace Sys2Proof.Machine

/-! ### The ways a request ends -/

/-- Actions that end no request all go on, or one of them is a write that is not answered, whatever comes after it. -/
theorem runActs_within_ways {as : List Act} {s t : State} {r : Progress} (h : runActs as s = .next t)
    (hw : as.all Act.within = true) (hreq : s.request = some r) :
    GoesOn as s t ∨
    (t.busy = s.busy ∧ t.outstanding.isSome = true ∧ ∀ rest, runActs (as ++ rest) s = .next t) := by
  obtain ⟨done, left, mid, rfl, hg, hend⟩ := runActs_next h
  rw [List.all_append, Bool.and_eq_true] at hw
  obtain ⟨hdone, hleft⟩ := hw
  obtain ⟨hbusy, n, -, hmid⟩ := hg.request hdone hreq
  rcases hend with ⟨rfl, rfl⟩ | ⟨b, left', rfl, hmask, hn, rfl⟩ | ⟨c, left', rfl, -⟩
  · exact .inl (by rwa [List.append_nil])
  · refine .inr ⟨hbusy, by simp [State.outstanding, hmid], fun rest => ?_⟩
    rw [List.append_assoc, hg.runActs_append, List.cons_append, runActs, runAct_write, if_pos hmask, hn]
  · simp [Act.within] at hleft

/-- A request that has a write outstanding waits for it without end (R166). -/
theorem step_of_outstanding {s : State} (hr : s.resetInput = false) (hf : s.fault = false) (hb : s.busy = true)
    (ho : s.outstanding.isSome = true) : step s = .next s := by
  have hresume : resume s = .next s := by
    unfold resume
    cases hreq : s.request with
    | none => rfl
    | some r =>
      have hout : r.outstanding.isSome = true := by simpa [State.outstanding, hreq] using ho
      simp only [if_pos hout]
  simp [step, hr, hf, hb, hresume]

/-- Everything the step that begins a request can come to: its response; a fault with no event; a write that is not
answered; or a wait for a byte that is not there, which is its own next state (R160). -/
theorem step_ways {s t : State} (ha : s.accepting = true) (hav : s.available ≠ []) (h : step s = .next t) :
    (t.busy = false ∧ t.fault = false ∧ ∃ mid r, t.trace = s.trace ++ mid ++ [.resp r]) ∨
    (t.busy = false ∧ t.fault = true ∧ t.trace = s.trace) ∨
    (t.busy = true ∧ t.fault = false ∧ t.outstanding.isSome = true) ∨
    (t.busy = true ∧ t.fault = false ∧ t.available = [] ∧ step t = .next t) := by
  obtain ⟨-, hf, -⟩ := State.accepting_iff.mp ha
  rcases step_next_of_accepting ha h with ⟨hnil, -⟩ | ⟨op, bs, hbytes, ⟨-, rfl⟩ | ⟨-, -, -, rfl⟩ | ⟨hl, hr, hrun⟩⟩
  · exact absurd hnil hav
  · exact .inr (.inl ⟨rfl, rfl, rfl⟩)
  · exact .inr (.inl ⟨rfl, rfl, rfl⟩)
  rcases scriptFor_cases op bs s hl with ⟨i, rest, -, rfl, -, hs⟩ | ⟨hd, hs⟩
  · rw [hs, ← beginRequest_runs hr, ← exec_begin] at hrun
    rcases exec_ways hrun with ⟨-, -, rfl⟩ | ⟨-, body, z, -, -, ⟨-, m, hg, rfl⟩ | ⟨x, y, -, -, rfl⟩ |
      ⟨done, b, r, m, -, hg, -, -, hb, rfl⟩⟩
    · exact .inr (.inl ⟨rfl, rfl, rfl⟩)
    · obtain ⟨-, -, -, ⟨mid, hmid⟩, hfault, -⟩ := hg.const
      exact .inl ⟨rfl, hfault.trans hf, mid, _, by rw [State.responded_trace, ← hmid]; rfl⟩
    · exact .inr (.inl ⟨rfl, rfl, rfl⟩)
    · obtain ⟨-, -, -, -, hfault, -⟩ := hg.const
      rcases exec_outstanding hrun with ⟨hidle, -⟩ | ⟨-, b', hout⟩
      · simp [hb] at hidle
      · exact .inr (.inr (.inl ⟨hb, hfault.trans hf, by rw [hout]; rfl⟩))
  · rw [hs] at hrun
    obtain ⟨hfault, -⟩ := runActs_fault_of_no_raise hrun (raise_not_mem_of_within (incompleteScript_within ..))
    rcases runActs_within_ways hrun (incompleteScript_within ..) (State.started_request s op) with
      hg | ⟨hb, hout, -⟩
    · rw [← hbytes] at hd
      obtain ⟨-, hwait, -, hb, -⟩ := step_of_incomplete ha hd hr hg
      have hleft : t.available = [] := hg.available (by
        rw [fetches_incompleteScript, List.append_nil, State.started_available hbytes])
      exact .inr (.inr (.inr ⟨hb, hfault.trans hf, hleft, hwait⟩))
    · exact .inr (.inr (.inl ⟨hb, hfault.trans hf, hout⟩))

/-- Settles O49: by what the actions of the bytes that are there come to. -/
theorem requestEndsInOneOfFourWays : Obligations.RequestEndsInOneOfFourWays := by
  unfold Obligations.RequestEndsInOneOfFourWays
  intro s t ha hav h
  rcases step_ways ha hav h with hway | hway | hway | ⟨hb, hf, hleft, -⟩
  · exact .inl hway
  · exact .inr (.inl hway)
  · exact .inr (.inr (.inl hway))
  · exact .inr (.inr (.inr ⟨hb, hf, hleft⟩))

/-- A step that begins a request and leaves it waiting comes to a state that is its own next state (R166, R167). -/
theorem step_fixed_of_busy {s t : State} (ha : s.accepting = true) (h : step s = .next t) (hb : t.busy = true) :
    step t = .next t := by
  obtain ⟨hr, -, hidle⟩ := State.accepting_iff.mp ha
  obtain ⟨-, hreset, -, -⟩ := step_const hr h
  by_cases hav : s.available = []
  · obtain rfl := Host.Outcome.next.inj ((step_of_no_byte ha hav).symm.trans h)
    simp [hidle] at hb
  rcases step_ways ha hav h with ⟨hb', -⟩ | ⟨hb', -⟩ | ⟨-, hf, hout⟩ | ⟨-, -, -, hwait⟩
  · simp [hb] at hb'
  · simp [hb] at hb'
  · exact step_of_outstanding (hreset.trans hr) hf hb hout
  · exact hwait

/-- Settles O50: a write that is not answered is waited for, and with no byte come there is no action left. -/
theorem hungRequestStaysHung : Obligations.HungRequestStaysHung := by
  unfold Obligations.HungRequestStaysHung
  exact fun s t => step_fixed_of_busy

/-! ### A request whose bytes come in two parts -/

/-- Every request but WRSTR fetches all its operands before any other action (R140, D27). -/
theorem script_fetches_first {i : Instr} (s : State) (hi : ∀ cs, i ≠ .wrstr cs) :
    ∃ rest, scriptOf i s = (operandsOf i).map .fetch ++ rest := by
  cases i with
  | wrstr cs => exact absurd rfl (hi cs)
  | goto x y => exact ⟨_, rfl⟩
  | glyph slot p0 p1 p2 p3 p4 p5 p6 p7 =>
    exact ⟨_, by rw [scriptOf, glyphScript, List.append_assoc, List.append_assoc]; rfl⟩
  | _ => exact ⟨_, rfl⟩

theorem opcodeOf_eq_wrstr {i : Instr} (h : opcodeOf i = 0xA0) : ∃ cs, i = .wrstr cs := by
  have hhead : headOf i = .wrstr := by
    have hd := decodeOpcode_opcodeOf i
    rw [h] at hd
    exact (Option.some.inj (hd.symm.trans (by decide : decodeOpcode 0xA0 = some .wrstr)))
  cases i with
  | wrstr cs => exact ⟨cs, rfl⟩
  | _ => cases hhead

theorem legalOpcode_opcodeOf (i : Instr) : legalOpcode (opcodeOf i) = true := by
  have hn := decodeOpcode_isNone (opcodeOf i)
  rw [decodeOpcode_opcodeOf] at hn
  simpa using hn.symm

/-- What a request does with the first of its operands is the first of what it does with all of them (R140, R150). -/
theorem incompleteScript_prefix {i : Instr} {ops late : List Byte} (s : State) (ho : operandsOf i = ops ++ late)
    (hne : late ≠ []) : ∃ rest, scriptOf i s = incompleteScript s.cfg (opcodeOf i) ops ++ rest := by
  by_cases hw : ∃ cs, i = .wrstr cs
  · obtain ⟨cs, rfl⟩ := hw
    obtain ⟨hnil, -⟩ | ⟨more, -, hcs⟩ := append_last_split ho
    · exact absurd hnil hne
    · exact ⟨more.flatMap (charActs s.cfg) ++ [Act.fetch 0, Act.respond], by
        rw [scriptOf, wrstrScript, hcs, List.flatMap_append, List.append_assoc, opcodeOf, incompleteScript_wrstr]⟩
  · have hop : opcodeOf i ≠ 0xA0 := fun h => hw (opcodeOf_eq_wrstr h)
    obtain ⟨rest, hs⟩ := script_fetches_first s fun cs hi => hw ⟨cs, hi⟩
    exact ⟨late.map .fetch ++ rest, by
      rw [hs, ho, List.map_append, List.append_assoc, incompleteScript_of_ne_wrstr (legalOpcode_opcodeOf i) hop]⟩

/-- The first bytes of an encoding, without the last, are an incomplete request. -/
theorem decode_of_prefix {i : Instr} {ops late : List Byte} (hi : i.wellFormed = true)
    (ho : operandsOf i = ops ++ late) (hne : late ≠ []) :
    decode (opcodeOf i :: ops) = .incomplete (opcodeOf i) ops := by
  rcases decode_cons_legal ops (legalOpcode_opcodeOf i) with ⟨j, rest, hd⟩ | hd
  · obtain ⟨hj, hbytes⟩ := encode_of_decode hd
    have hwhole : encode j ++ (rest ++ late) = encode i ++ [] := by
      rw [← List.append_assoc, hbytes, encode, ho]
      simp
    have hboth := decode_encode hj (rest ++ late)
    rw [hwhole, decode_encode hi] at hboth
    obtain ⟨-, hnil⟩ := Decoded.request.inj hboth
    exact absurd (List.append_eq_nil_iff.mp hnil.symm).2 hne
  · exact hd

/-- Where the bytes that are there are a request's encoding, the step is that request. -/
theorem step_of_encode {i : Instr} {s : State} (ha : s.accepting = true) (hi : i.wellFormed = true)
    (hav : s.available = encode i) : step s = exec i s :=
  stepRunsDecodedRequest s i [] ha (by rw [hav, ← decode_encode hi [], List.append_nil])

/-- A step of a request with no byte after it comes to a state that is its own next state: it waits, has faulted, or is
idle with no byte left. -/
theorem step_fixed_of_alone {i : Instr} {s t : State} (ha : s.accepting = true) (hi : i.wellFormed = true)
    (hav : s.available = encode i) (h : step s = .next t) : step t = .next t := by
  obtain ⟨hr, hf, -⟩ := State.accepting_iff.mp ha
  obtain ⟨-, hreset, -, -⟩ := step_const hr h
  cases hb : t.busy with
  | true => exact step_fixed_of_busy ha h hb
  | false =>
    have hexec : exec i s = .next t := (step_of_encode ha hi hav).symm.trans h
    rcases exec_ways_of_idle hexec hb with ⟨-, -, rfl⟩ | ⟨-, hg | ⟨x, y, -, -, rfl⟩⟩
    · exact step_of_fault hr rfl
    · obtain ⟨-, -, -, -, hfault, -⟩ := hg.const
      have hleft : t.available = [] := hg.available (by
        rw [fetches_script, List.append_nil, State.started_available hav])
      exact step_of_no_byte (State.accepting_iff.mpr ⟨hreset.trans hr, hfault.trans hf, hb⟩) hleft
    · exact step_of_fault hr rfl

/-- Going on with a request that waits for no write and has no log event due is running the actions it has left. -/
theorem step_of_resume {s : State} {r : Progress} (hr : s.resetInput = false) (hf : s.fault = false)
    (hb : s.busy = true) (hreq : s.request = some r) (ho : r.outstanding = none) (hdue : s.logDue = none) :
    step s = runActs (remainingActs r s) s := by
  simp [step, resume, hr, hf, hb, hreq, ho, State.logged_of_none hdue]

/-- Where the first bytes of a request are there and the engine has come to wait, the rest of them lead on to the state
that all of them lead to at once (R152). `m` is the stream with all of them. -/
theorem step_of_late_bytes {i : Instr} {s p : State} {ops late : List Byte} {m : Memory} (ha : s.accepting = true)
    (hi : i.wellFormed = true) (ho : operandsOf i = ops ++ late) (hne : late ≠ [])
    (hav : s.available = opcodeOf i :: ops) (h : step s = .next p)
    (hall : m.bytesFrom s.reqpc = encode i) :
    step { p with stream := m } = withStream m (exec i s) := by
  obtain ⟨hr, hf, -⟩ := State.accepting_iff.mp ha
  obtain ⟨hcfg, hreset, -, -⟩ := step_const hr h
  have hd := decode_of_prefix hi ho hne
  rw [exec_begin]
  rcases step_next_of_accepting ha h with ⟨hnil, -⟩ | ⟨op, bs, hbytes, hway⟩
  · simp [hav] at hnil
  obtain ⟨rfl, rfl⟩ := List.cons.inj (hav.symm.trans hbytes)
  rcases hway with ⟨hl, -⟩ | ⟨-, hn, hready, rfl⟩ | ⟨-, hready, hrun⟩
  · simp [legalOpcode_opcodeOf] at hl
  · rw [beginRequest_notReady hn hready]
    exact step_of_fault hr rfl
  obtain ⟨rest, hs⟩ := incompleteScript_prefix s ho hne
  have hinc : scriptFor (opcodeOf i) ops s = incompleteScript s.cfg (opcodeOf i) ops := by
    simp only [scriptFor, hd]
  rw [hinc] at hrun
  rw [beginRequest_runs hready, hs]
  obtain ⟨hfault, -⟩ := runActs_fault_of_no_raise hrun (raise_not_mem_of_within (incompleteScript_within ..))
  rcases runActs_within_ways hrun (incompleteScript_within ..) (State.started_request s _) with hg | ⟨hb, hout, hstop⟩
  · obtain ⟨hb, n, -, hreq⟩ := hg.request (incompleteScript_within ..) (State.started_request s _)
    obtain ⟨-, hrows, -, -⟩ := runActs_plain_const hrun (incompleteScript_plain ..)
    have hwhole : scriptFor (opcodeOf i) (ops ++ late) { p with stream := m } = scriptOf i s := by
      have hdecode := decode_encode hi []
      rw [encode, ho, List.append_nil] at hdecode
      rw [scriptFor_congr (s := s) (t := { p with stream := m }) _ hcfg fun _ => hrows, scriptFor, hdecode]
    have hlate : State.available { p with stream := m } = late := by
      have hpc := hg.reqpc
      rw [fetches_incompleteScript, State.started_reqpc, Nat.add_assoc, Nat.add_comm 1] at hpc
      rw [encode, ho] at hall
      rw [State.available, hpc]
      exact Memory.bytesFrom_add (bs := opcodeOf i :: ops) hall
    rw [hg.runActs_append, ← runActs_withStream, step_of_resume (s := { p with stream := m }) (hreset.trans hr)
      (hfault.trans hf) hb hreq rfl (hg.logDue rfl), remainingActs, hlate]
    simp [fetches_incompleteScript, hwhole, hs]
  · rw [hstop]
    exact step_of_outstanding (hreset.trans hr) (hfault.trans hf) hb hout

/-- Settles O51: up to the wait the actions are the first of the request's, and from it on they are the rest. -/
theorem lateBytesMakeNoDifference : Obligations.LateBytesMakeNoDifference := by
  unfold Obligations.LateBytesMakeNoDifference
  intro i s p b1 b2 hi ha hstream hsplit hne h
  obtain ⟨hfirst, hbefore⟩ := Memory.bytesFrom_writeBytes hstream b1
  obtain ⟨hr, -, -⟩ := State.accepting_iff.mp ha
  by_cases hlate : b2 = []
  · obtain rfl : encode i = b1 := by simpa [hlate] using hsplit
    rw [hlate, h]
    exact step_fixed_of_alone (s := s.supply s.reqpc (encode i)) ha hi hfirst h
  · obtain ⟨op, ops, rfl⟩ := List.exists_cons_of_ne_nil hne
    obtain ⟨rfl, ho⟩ := List.cons.inj hsplit
    obtain ⟨hall, -⟩ := Memory.bytesFrom_writeBytes hstream (encode i)
    obtain ⟨-, -, hkept, -⟩ := step_const (s := s.supply s.reqpc (opcodeOf i :: ops)) hr h
    have hm : p.stream.writeBytes (s.reqpc + (opcodeOf i :: ops).length) b2 =
        s.stream.writeBytes s.reqpc (encode i) := by
      rw [hkept, State.supply_stream, hsplit, Memory.writeBytes_append]
    calc step (p.supply (s.reqpc + (opcodeOf i :: ops).length) b2)
        = withStream (s.stream.writeBytes s.reqpc (encode i)) (exec i (s.supply s.reqpc (opcodeOf i :: ops))) := by
          rw [State.supply, hm]
          exact step_of_late_bytes (s := s.supply s.reqpc (opcodeOf i :: ops)) ha hi ho hlate hfirst h hall
      _ = exec i (s.supply s.reqpc (encode i)) := (exec_withStream i (s.supply s.reqpc (opcodeOf i :: ops)) _).symm
      _ = step (s.supply s.reqpc (encode i)) :=
          (step_of_encode (s := s.supply s.reqpc (encode i)) ha hi hall).symm

end Sys2Proof.Machine

/-! SUPPORT. The two grains of a step (log 4): while a request is in progress, its next micro-steps are the first of the
actions it has left (`State.Doing`), and running them all is some number of micro-steps (`State.Doing.microReaches`). -/

namespace Sys2Proof.Machine

/-! ### Micro-steps -/

/-- Some number of micro-steps leads from the first state to the second. -/
def State.MicroReaches (s t : State) : Prop := ∃ n, microRun n s = .next t

theorem State.MicroReaches.refl (s : State) : s.MicroReaches s := ⟨0, rfl⟩

theorem State.MicroReaches.head {s t u : State} (h : microStep s = .next t) (h' : t.MicroReaches u) :
    s.MicroReaches u := by
  obtain ⟨n, hn⟩ := h'
  exact ⟨n + 1, by rw [microRun, h]; exact hn⟩

theorem State.MicroReaches.single {s t : State} (h : microStep s = .next t) : s.MicroReaches t := .head h (.refl t)

theorem State.MicroReaches.trans {s t u : State} (h : s.MicroReaches t) (h' : t.MicroReaches u) : s.MicroReaches u := by
  obtain ⟨n, hn⟩ := h
  induction n generalizing s with
  | zero =>
    obtain rfl := Host.Outcome.next.inj hn
    exact h'
  | succ n ih =>
    rw [microRun] at hn
    cases hs : microStep s with
    | next v =>
      rw [hs] at hn
      exact .head hs (ih hn)
    | fault f =>
      rw [hs] at hn
      cases hn
    | refused r =>
      rw [hs] at hn
      cases hn

/-! ### A request in progress -/

/-- The engine is doing the request of the opcode byte `op` and the bytes `bs` behind it, begun at `s`: at `x` it goes
on, waits for nothing, and has these actions left. -/
structure State.Doing (s : State) (op : Byte) (bs : List Byte) (left : List Act) (x : State) : Prop where
  resetInput : x.resetInput = false
  fault : x.fault = false
  busy : x.busy = true
  logDue : x.logDue = none
  cfg : x.cfg = s.cfg
  rows : opField op = 0x7 → x.rows = s.rows
  fetches : fetches left <+: x.available
  request : ∃ r, x.request = some r ∧ r.opcode = op ∧ r.outstanding = none ∧ r.operands ++ x.available = bs ∧
    (scriptFor op bs s).drop r.next = left

/-- The actions that the request in progress has left are those of what the engine is doing. -/
theorem State.Doing.remaining {s x : State} {op : Byte} {bs : List Byte} {left : List Act} (h : s.Doing op bs left x) :
    ∃ r, x.request = some r ∧ r.outstanding = none ∧ remainingActs r x = left := by
  obtain ⟨r, hreq, rfl, hout, hbytes, hleft⟩ := h.request
  exact ⟨r, hreq, hout, by rw [remainingActs, hbytes, scriptFor_congr bs h.cfg h.rows, hleft]⟩

/-- A micro-step does a part of the first action left. -/
theorem State.Doing.microStep_eq {s x : State} {op : Byte} {bs : List Byte} {a : Act} {rest : List Act}
    (h : s.Doing op bs (a :: rest) x) : microStep x = (microAct a x).outcome := by
  obtain ⟨r, hreq, hout, hleft⟩ := h.remaining
  simp [microStep, resumeOnce, h.resetInput, h.fault, h.busy, h.logDue, hreq, hout, hleft]

/-- No action of a GOTO writes ROWS. -/
theorem scriptFor_goto_keepsSize {op : Byte} (hop : opField op = 0x7) (bs : List Byte) (s : State) :
    (scriptFor op bs s).all Act.keepsSize = true := by
  refine scriptFor_all_of_plain keepsSize_of_plain (fun _ => rfl) s fun c r rest hd => ?_
  obtain ⟨rfl, -⟩ := decode_request hd
  exact absurd hop (by decide : opField 0x10 ≠ 0x7)

/-- One action that goes on and ends nothing leaves the engine doing the rest. -/
theorem State.Doing.next {s x y : State} {op : Byte} {bs : List Byte} {a : Act} {rest : List Act}
    (h : s.Doing op bs (a :: rest) x) (ha : runAct a x = .goesOn y) (hw : a.within = true) : s.Doing op bs rest y := by
  have hg : GoesOn [a] x y := .cons ha (.nil y)
  obtain ⟨r, hreq, rfl, hout, hbytes, hleft⟩ := h.request
  obtain ⟨hcfg, hreset, hstream, -, hfault, -⟩ := runAct_goesOn_const ha
  obtain ⟨hbusy, n, -, hreq'⟩ := hg.request (by simp [hw]) hreq
  have hsplit : Machine.fetches (a :: rest) = Machine.fetches [a] ++ Machine.fetches rest := fetches_append [a] rest
  obtain ⟨more, hmore⟩ := h.fetches
  rw [hsplit, List.append_assoc] at hmore
  have hav : y.available = Machine.fetches rest ++ more := hg.available hmore.symm
  have hrows : opField r.opcode = 0x7 → y.rows = x.rows := by
    intro hop
    have hmem : a ∈ scriptFor r.opcode bs s := List.mem_of_mem_drop (hleft ▸ List.mem_cons_self ..)
    exact (runAct_keepsSize (List.all_eq_true.mp (scriptFor_goto_keepsSize hop bs s) a hmem) ha).2
  exact {
    resetInput := hreset.trans h.resetInput
    fault := hfault.trans h.fault
    busy := hbusy.trans h.busy
    logDue := hg.logDue h.logDue
    cfg := hcfg.trans h.cfg
    rows := fun hop => (hrows hop).trans (h.rows hop)
    fetches := hav ▸ List.prefix_append _ _
    request := ⟨_, hreq', rfl, hout, by rw [hav, List.append_assoc, hmore, hbytes], by
      rw [List.length_singleton, ← List.drop_drop, hleft, List.drop_succ_cons, List.drop_zero]⟩ }

/-- An action that goes on is one micro-step, or two where it is a write that fails (R81). -/
theorem State.Doing.microReaches_goesOn {s x y : State} {op : Byte} {bs : List Byte} {a : Act} {rest : List Act}
    (h : s.Doing op bs (a :: rest) x) (ha : runAct a x = .goesOn y) : x.MicroReaches y := by
  have hstep := h.microStep_eq
  cases a with
  | write b =>
    obtain ⟨r, hreq, hout, -⟩ := h.remaining
    rw [microAct, xwrite_eq] at hstep
    rw [runAct_write] at ha
    cases hw : x.blmask.written with
    | false => simp [hw] at ha
    | true =>
      cases hn : x.transport.next? with
      | none => simp [hw, hn] at ha
      | some q =>
        obtain ⟨ack, tr⟩ := q
        simp only [hw, hn, if_true, ActResult.goesOn.injEq] at ha hstep
        subst ha
        refine .head hstep ?_
        cases ack with
        | true => exact .refl _
        | false =>
          have hx : x.Proceeds := ⟨h.resetInput, h.fault, h.busy, r, hreq, hout⟩
          exact .single (microStep_of_logDue (hx.wroteByte _ false _) rfl)
  | _ => exact .single (by rw [hstep, microAct, ha]; rfl)

/-- An action after which the request goes no further, for a fault or an unanswered write, is one micro-step. -/
theorem State.Doing.microStep_stops {s x y : State} {op : Byte} {bs : List Byte} {a : Act} {rest : List Act}
    (h : s.Doing op bs (a :: rest) x) (ha : runAct a x = .blocked y ∨ runAct a x = .stopped y) :
    microStep x = .next y := by
  rw [h.microStep_eq]
  rcases ha with ha | ha
  · obtain ⟨b, rfl, hw, hn, rfl⟩ := runAct_blocked ha
    rw [microAct, xwrite_eq, if_pos hw, hn]
    rfl
  · obtain ⟨c, rfl, rfl⟩ := runAct_stopped ha
    rfl

/-- Running all the actions left is some number of micro-steps. -/
theorem State.Doing.microReaches {s x t : State} {op : Byte} {bs : List Byte} {left : List Act}
    (h : s.Doing op bs left x) (hw : left.dropLast.all Act.within = true) (hrun : runActs left x = .next t) :
    x.MicroReaches t := by
  induction left generalizing x with
  | nil =>
    obtain rfl := Host.Outcome.next.inj hrun
    exact .refl x
  | cons a rest ih =>
    rw [runActs] at hrun
    split at hrun
    · next y ha =>
      refine (h.microReaches_goesOn ha).trans ?_
      cases rest with
      | nil =>
        obtain rfl := Host.Outcome.next.inj hrun
        exact .refl y
      | cons a' rest =>
        rw [List.dropLast_cons_cons, List.all_cons, Bool.and_eq_true] at hw
        exact ih (h.next ha hw.1) hw.2 hrun
    · next y ha =>
      obtain rfl := Host.Outcome.next.inj hrun
      exact .single (h.microStep_stops (.inl ha))
    · next y ha =>
      obtain rfl := Host.Outcome.next.inj hrun
      exact .single (h.microStep_stops (.inr ha))
    · cases hrun

/-- Only the last action of a request ends it. -/
theorem scriptFor_dropLast_within {op : Byte} (bs : List Byte) (s : State) (hl : legalOpcode op = true) :
    (scriptFor op bs s).dropLast.all Act.within = true := by
  rcases scriptFor_cases op bs s hl with ⟨i, rest, -, -, -, hs⟩ | ⟨-, hs⟩
  · obtain ⟨body, z, hscript, hbody, -⟩ := script_shape i s
    rw [hs, hscript, List.dropLast_concat]
    exact hbody
  · rw [hs]
    have hall := incompleteScript_within s.cfg op bs
    exact List.all_eq_true.mpr fun a ha => List.all_eq_true.mp hall a (List.mem_of_mem_dropLast ha)

/-- Once its opcode byte is fetched, the engine is doing the request. -/
theorem State.doing_started {s : State} {op : Byte} {bs : List Byte} (ha : s.accepting = true)
    (hav : s.available = op :: bs) : s.Doing op bs (scriptFor op bs s) (s.started op) := by
  obtain ⟨hr, hf, -⟩ := State.accepting_iff.mp ha
  have hleft := State.started_available hav
  exact {
    resetInput := hr
    fault := hf
    busy := rfl
    logDue := rfl
    cfg := rfl
    rows := fun _ => rfl
    fetches := hleft ▸ fetches_scriptFor_prefix op bs s
    request := ⟨_, rfl, rfl, rfl, hleft, rfl⟩ }

/-- A micro-step of an engine that takes a request fetches the opcode byte and checks it. -/
theorem microStep_of_accepting {s : State} {op : Byte} {bs : List Byte} (ha : s.accepting = true)
    (hav : s.available = op :: bs) : microStep s = openRequest op s := by
  obtain ⟨hr, hf, hb⟩ := State.accepting_iff.mp ha
  simp [microStep, hr, hf, hb, hav]

/-- Settles O55: the fetch of the opcode byte and its checks are a micro-step, and each action behind it one or two. -/
theorem stepIsItsMicroSteps : Obligations.StepIsItsMicroSteps := by
  unfold Obligations.StepIsItsMicroSteps
  intro s t ha h
  change s.MicroReaches t
  rcases step_next_of_accepting ha h with
    ⟨-, rfl⟩ | ⟨op, bs, hav, ⟨hl, rfl⟩ | ⟨hl, hn, hr, rfl⟩ | ⟨hl, hr, hrun⟩⟩
  · exact .refl t
  · exact .single (by rw [microStep_of_accepting ha hav, openRequest, hl]; rfl)
  · exact .single (by rw [microStep_of_accepting ha hav, openRequest, if_pos hl, beginRequest_notReady hn hr])
  · have hopen : microStep s = .next (s.started op) := by
      rw [microStep_of_accepting ha hav, openRequest, if_pos hl, beginRequest_runs hr]
      rfl
    exact .head hopen ((State.doing_started ha hav).microReaches (scriptFor_dropLast_within bs s hl) hrun)

end Sys2Proof.Machine

/-! SUPPORT. The invariant: once the registers are written every action of a request keeps what it asks (`State.Sound`),
and before that only an INIT that is still fetching its operands is in progress (`runActs_fetchingInit`). -/

namespace Sys2Proof.Machine

/-! ### Actions of a request -/

/-- The action writes to BLMASK nothing but 0x00 or BIT_LED (R23). -/
def Act.masksOk (cfg : Config) : Act → Bool
  | .install _ _ m => m == 0x00 || m == cfg.bitLed
  | .setBacklight m => m == 0x00 || m == cfg.bitLed
  | _ => true

theorem masksOk_of_plain (cfg : Config) (a : Act) (h : a.plain = true) : a.masksOk cfg = true := by
  cases a with
  | install c r m => simp [Act.plain] at h
  | setBacklight m => simp [Act.plain] at h
  | _ => rfl

theorem backlightMask_cases (cfg : Config) (on : Bool) :
    backlightMask cfg on = 0x00 ∨ backlightMask cfg on = cfg.bitLed := by
  cases on
  · exact .inl rfl
  · exact .inr rfl

theorem initTail_masksOk (cfg cfg' : Config) : (initTail cfg').all (Act.masksOk cfg) = true :=
  initTail_all (fun _ => rfl) (fun _ => rfl) (fun _ => rfl) rfl cfg'

theorem script_masksOk (i : Instr) (s : State) : (scriptOf i s).all (Act.masksOk s.cfg) = true := by
  by_cases h1 : ∃ c r, i = .init c r
  · obtain ⟨c, r, rfl⟩ := h1
    rw [scriptOf, initScript_eq, List.all_append, initTail_masksOk]
    simpa [Act.masksOk] using backlightMask_cases s.cfg _
  by_cases h2 : ∃ l, i = .backlight l
  · obtain ⟨l, rfl⟩ := h2
    simpa [scriptOf, backlightScript, Act.masksOk] using backlightMask_cases s.cfg l
  · have hplain := script_plain i s (fun c r hi => h1 ⟨c, r, hi⟩) fun l hi => h2 ⟨l, hi⟩
    exact List.all_eq_true.mpr fun a ha => masksOk_of_plain _ a (List.all_eq_true.mp hplain a ha)

theorem scriptFor_masksOk (op : Byte) (bs : List Byte) (s : State) :
    (scriptFor op bs s).all (Act.masksOk s.cfg) = true := by
  cases hl : legalOpcode op with
  | false => simp [scriptFor_illegal bs s hl]
  | true =>
    rcases scriptFor_cases op bs s hl with ⟨i, rest, -, -, -, hs⟩ | ⟨-, hs⟩
    · rw [hs]
      exact script_masksOk i s
    · rw [hs]
      have hplain := incompleteScript_plain s.cfg op bs
      exact List.all_eq_true.mpr fun a ha => masksOk_of_plain _ a (List.all_eq_true.mp hplain a ha)

/-- Only INIT's actions write INIT_STATE, and INIT needs no READY (R101, R163). -/
theorem scriptFor_keepsInitState {op : Byte} (hn : needsReady op = true) (bs : List Byte) (s : State) :
    (scriptFor op bs s).all Act.keepsInitState = true := by
  refine scriptFor_all_of_plain keepsInitState_of_plain (fun _ => rfl) s fun c r rest hd => ?_
  obtain ⟨rfl, -⟩ := decode_request hd
  exact absurd hn (by decide : ¬ needsReady 0x10 = true)

/-- With ROWS written no action reads an unwritten register but a write of the bus (R37). -/
theorem readUnwritten_not_mem_scriptFor {op : Byte} {bs : List Byte} {s : State} (hrows : s.rows.written = true) :
    Act.readUnwritten ∉ scriptFor op bs s := by
  intro hmem
  cases hl : legalOpcode op with
  | false => simp [scriptFor_illegal bs s hl] at hmem
  | true =>
    rcases scriptFor_cases op bs s hl with ⟨i, rest, -, -, -, hs⟩ | ⟨-, hs⟩
    · rw [hs] at hmem
      simp [(readUnwritten_mem_script hmem).1] at hrows
    · rw [hs] at hmem
      exact Bool.false_ne_true (List.all_eq_true.mp (incompleteScript_within s.cfg op bs) _ hmem)

/-! ### Behind the writes of the registers -/

/-- What every action of the request of the opcode byte `op` keeps, once the registers are written. -/
structure State.Sound (op : Byte) (s : State) : Prop where
  cfg : s.cfg.valid = true
  stream : s.stream.wf
  blmask : s.blmask.value = 0x00 ∨ s.blmask.value = s.cfg.bitLed
  cause : s.cause.toNat ≤ 3 ∧ (s.fault = true ↔ s.cause ≠ 0)
  written : s.registersWritten = true
  busy : s.busy = s.request.isSome
  request : ∀ r, s.request = some r → r.opcode = op ∧ s.fault = false
  ready : needsReady op = true → s.ready = true
  logDue : s.logDue = none

theorem State.requestOk_iff {s : State} {r : Progress} : s.requestOk r = true ↔
    s.fault = false ∧ legalOpcode r.opcode = true ∧ (r.fetchingInit = true ∨ s.registersWritten = true) ∧
      (needsReady r.opcode = true → s.ready = true) := by
  cases hn : needsReady r.opcode <;> simp [State.requestOk, hn, and_assoc]

theorem State.Sound.inv {op : Byte} {s : State} (h : s.Sound op) (hl : legalOpcode op = true) : s.Inv where
  cfg := h.cfg
  stream := h.stream
  blmask := h.blmask
  cause := h.cause
  ready := fun _ => h.written
  busy := h.busy
  request := fun r hr => by
    obtain ⟨rfl, hf⟩ := h.request r hr
    exact State.requestOk_iff.mpr ⟨hf, hl, .inr h.written, h.ready⟩
  logDue := fun hdue => by simp [h.logDue] at hdue

theorem State.Inv.sound {s : State} {r : Progress} (h : s.Inv) (hreq : s.request = some r)
    (hw : s.registersWritten = true) (hdue : s.logDue = none) : s.Sound r.opcode := by
  obtain ⟨hf, -, -, hready⟩ := State.requestOk_iff.mp (h.request r hreq)
  exact {
    cfg := h.cfg
    stream := h.stream
    blmask := h.blmask
    cause := h.cause
    written := hw
    busy := h.busy
    request := fun q hq => by
      obtain rfl := Option.some.inj (hreq.symm.trans hq)
      exact ⟨rfl, hf⟩
    ready := hready
    logDue := hdue }

theorem Cause.code_cases (c : Cause) : c.code.toNat ≤ 3 ∧ c.code ≠ 0 := by
  cases c <;> decide

theorem State.registersWritten_iff {s : State} :
    s.registersWritten = true ↔ s.cols.written = true ∧ s.rows.written = true ∧ s.blmask.written = true := by
  simp [State.registersWritten, and_assoc]

/-- An action that goes on leaves the registers written where they were. -/
theorem runAct_goesOn_registersWritten {a : Act} {s t : State} (h : runAct a s = .goesOn t)
    (hw : s.registersWritten = true) : t.registersWritten = true := by
  rw [State.registersWritten_iff] at hw ⊢
  rcases runAct_goesOn h with ⟨b, rfl, rfl⟩ | ⟨c, r, m, rfl, rfl⟩ | ⟨m, rfl, rfl⟩ | ⟨i, rfl, rfl⟩ |
    ⟨b, ack, tr, rfl, -, -, rfl⟩ | ⟨us, rfl, rfl⟩ | ⟨rfl, rfl⟩ <;> simp [hw, DisplayReg.of]

/-- An action that goes on leaves BLMASK at one of the values it may have (R23). -/
theorem runAct_goesOn_blmask {a : Act} {s t : State} {cfg : Config} (h : runAct a s = .goesOn t)
    (hm : a.masksOk cfg = true) (hs : s.blmask.value = 0x00 ∨ s.blmask.value = cfg.bitLed) :
    t.blmask.value = 0x00 ∨ t.blmask.value = cfg.bitLed := by
  rcases runAct_goesOn h with ⟨b, rfl, rfl⟩ | ⟨c, r, m, rfl, rfl⟩ | ⟨m, rfl, rfl⟩ | ⟨i, rfl, rfl⟩ |
    ⟨b, ack, tr, rfl, -, -, rfl⟩ | ⟨us, rfl, rfl⟩ | ⟨rfl, rfl⟩
  case inr.inl => simpa [Act.masksOk, DisplayReg.of] using hm
  case inr.inr.inl => simpa [Act.masksOk, DisplayReg.of] using hm
  case inr.inr.inr.inr.inl => rwa [State.wrote_blmask]
  all_goals exact hs

/-- An action that goes on goes on with the request in progress, or ends it (R34, R82). -/
theorem runAct_goesOn_request {a : Act} {s t : State} (h : runAct a s = .goesOn t) :
    (t.busy = s.busy ∧ ∃ f : Progress → Progress, t.request = s.request.map f ∧ ∀ r, (f r).opcode = r.opcode) ∨
    (t.busy = false ∧ t.request = none) := by
  rcases runAct_goesOn h with ⟨b, rfl, rfl⟩ | ⟨c, r, m, rfl, rfl⟩ | ⟨m, rfl, rfl⟩ | ⟨i, rfl, rfl⟩ |
    ⟨b, ack, tr, rfl, -, -, rfl⟩ | ⟨us, rfl, rfl⟩ | ⟨rfl, rfl⟩
  case inr.inr.inr.inr.inl => exact .inl ⟨State.wrote_busy .., _, State.wrote_request .., fun _ => rfl⟩
  case inr.inr.inr.inr.inr.inl => exact .inl ⟨rfl, _, State.waited_request s us, fun _ => rfl⟩
  case inr.inr.inr.inr.inr.inr => exact .inr ⟨rfl, rfl⟩
  all_goals exact .inl ⟨rfl, _, rfl, fun _ => rfl⟩

/-- A raise drops the request, with one of the three causes (R161). -/
theorem State.Sound.raised {op : Byte} {s : State} (h : s.Sound op) (c : Cause) : (s.raised c).Sound op where
  cfg := h.cfg
  stream := h.stream
  blmask := h.blmask
  cause := ⟨c.code_cases.1, iff_of_true rfl c.code_cases.2⟩
  written := h.written
  busy := rfl
  request := nofun
  ready := h.ready
  logDue := h.logDue

theorem State.Sound.stalled {op : Byte} {s : State} (h : s.Sound op) (w : BusWrite) : (s.stalled w).Sound op where
  cfg := h.cfg
  stream := h.stream
  blmask := h.blmask
  cause := h.cause
  written := h.written
  busy := by simpa using h.busy
  request := fun r hr => by
    obtain ⟨q, hq, rfl⟩ : ∃ q, s.request = some q ∧ { q with outstanding := some w } = r := by simpa using hr
    exact h.request q hq
  ready := h.ready
  logDue := h.logDue

/-- One action that goes on, of a request that has found READY = 1 where it needs it, keeps all of it. -/
theorem State.Sound.runAct {op : Byte} {a : Act} {s t : State} (h : s.Sound op) (ha : runAct a s = .goesOn t)
    (hm : a.masksOk s.cfg = true) (hi : needsReady op = true → a.keepsInitState = true) : t.Sound op := by
  obtain ⟨hcfg, -, hstream, -, hfault, hcause⟩ := runAct_goesOn_const ha
  have hreq : t.busy = t.request.isSome ∧ ∀ r, t.request = some r → r.opcode = op ∧ s.fault = false := by
    rcases runAct_goesOn_request ha with ⟨hb, f, hf, hop⟩ | ⟨hb, hnone⟩
    · refine ⟨by rw [hb, hf, Option.isSome_map, h.busy], fun r hr => ?_⟩
      obtain ⟨q, hq, rfl⟩ := Option.map_eq_some_iff.mp (hf ▸ hr)
      exact ⟨(hop q).trans (h.request q hq).1, (h.request q hq).2⟩
    · exact ⟨by rw [hb, hnone]; rfl, fun r hr => by simp [hnone] at hr⟩
  exact {
    cfg := hcfg ▸ h.cfg
    stream := hstream ▸ h.stream
    blmask := hcfg ▸ runAct_goesOn_blmask ha hm h.blmask
    cause := by rw [hcause, hfault]; exact h.cause
    written := runAct_goesOn_registersWritten ha h.written
    busy := hreq.1
    request := fun r hr => hfault ▸ hreq.2 r hr
    ready := fun hn => by rw [State.ready, runAct_keepsInitState (hi hn) ha]; exact h.ready hn
    logDue := (GoesOn.cons ha (.nil t)).logDue h.logDue }

theorem State.Sound.runActs {op : Byte} {as : List Act} {s t : State} (h : s.Sound op)
    (hrun : runActs as s = .next t) (hm : as.all (Act.masksOk s.cfg) = true)
    (hi : needsReady op = true → as.all Act.keepsInitState = true) : t.Sound op := by
  have hkeeps := runActs_keeps (P := fun x => x.Sound op ∧ x.cfg = s.cfg) hrun
    (fun a ha x y hact ⟨hx, hcfg⟩ =>
      ⟨hx.runAct hact (hcfg ▸ List.all_eq_true.mp hm a ha) fun hn => List.all_eq_true.mp (hi hn) a ha,
        (runAct_goesOn_const hact).1.trans hcfg⟩)
    (fun c _ x ⟨hx, hcfg⟩ => ⟨hx.raised c, hcfg⟩) (fun w x ⟨hx, hcfg⟩ => ⟨hx.stalled w, hcfg⟩) ⟨h, rfl⟩
  exact hkeeps.1

/-! ### Before the writes of the registers -/

/-- INIT has one legal opcode byte (R68, R71). -/
theorem eq_init_of_opField : ∀ op : Byte, legalOpcode op = true → opField op = 0x1 → op = 0x10 := by decide

/-- The bytes behind INIT's opcode byte are its two operands and more, or fewer than two (R61). -/
theorem decode_init (bs : List Byte) :
    (∃ c r rest, bs = c :: r :: rest ∧ decode (0x10 :: bs) = .request (.init c r) rest) ∨
    (bs.length < 2 ∧ decode (0x10 :: bs) = .incomplete 0x10 bs) := by
  have hop : decodeOpcode 0x10 = some .init := by decide
  match bs with
  | [] => exact .inr ⟨by simp, by simp only [decode, hop, decodeOperands]⟩
  | [c] => exact .inr ⟨by simp, by simp only [decode, hop, decodeOperands]⟩
  | c :: r :: rest => exact .inl ⟨c, r, rest, rfl, decode_encode (i := .init c r) rfl rest⟩

/-- The state in which INIT has written its registers, with some of its operands still to fetch before (R100). -/
def State.initBegun (s : State) (fetched : List Byte) (c r : Byte) : State :=
  ((s.fetchedAll fetched).initStateSet .poweredUnknown).installed c r (backlightMask s.cfg s.cfg.initBacklight)

theorem Progress.fetchingInit_iff {r : Progress} (hl : legalOpcode r.opcode = true) :
    r.fetchingInit = true ↔ r.opcode = 0x10 ∧ r.operands.length < 2 ∧ r.next = r.operands.length := by
  have hop : opField r.opcode = 0x1 ↔ r.opcode = 0x10 := ⟨eq_init_of_opField _ hl, fun h => by rw [h]; decide⟩
  simp only [Progress.fetchingInit, Bool.and_eq_true, beq_iff_eq, decide_eq_true_eq, hop, and_assoc]

/-- An INIT that is still fetching comes to its registers and runs on, or fetches what there is and waits. -/
theorem runActs_fetchingInit {s : State} {r : Progress} (hop : r.opcode = 0x10) (hlen : r.operands.length < 2)
    (hnext : r.next = r.operands.length) :
    (∃ fetched c q, runActs (remainingActs r s) s = runActs (initTail s.cfg) (s.initBegun fetched c q)) ∨
    ((r.operands ++ s.available).length < 2 ∧ runActs (remainingActs r s) s = .next (s.fetchedAll s.available)) := by
  rw [remainingActs, hop, hnext]
  rcases decode_init (r.operands ++ s.available) with ⟨c, q, rest, hbytes, hd⟩ | ⟨hshort, hd⟩
  · refine .inl ⟨[c, q].drop r.operands.length, c, q, ?_⟩
    have hscript : scriptFor 0x10 (r.operands ++ s.available) s = [c, q].map .fetch ++
        ([.setInitState .poweredUnknown, .install c q (backlightMask s.cfg s.cfg.initBacklight)] ++ initTail s.cfg) := by
      simp only [scriptFor, hd, scriptOf, initScript_eq, List.map_cons, List.map_nil, List.cons_append, List.nil_append]
    rw [hscript, List.drop_append_of_le_length (by simpa using hlen.le), ← List.map_drop,
      (goesOn_fetchedAll _ s).runActs_append]
    simp only [List.cons_append, List.nil_append, runActs, runAct, State.initBegun]
  · refine .inr ⟨hshort, ?_⟩
    have hscript : scriptFor 0x10 (r.operands ++ s.available) s = r.operands.map .fetch ++ s.available.map .fetch := by
      simp only [scriptFor, hd]
      rw [incompleteScript_of_ne_wrstr (by decide) (by decide), List.map_append]
    rw [hscript, List.drop_left' (List.length_map _), (goesOn_fetchedAll _ s).runActs]

/-- Once INIT has written its registers, all is as its actions keep it. -/
theorem State.Inv.sound_initBegun {s : State} {r : Progress} (h : s.Inv) (hreq : s.request = some r)
    (hop : r.opcode = 0x10) (hdue : s.logDue = none) (fetched : List Byte) (c q : Byte) :
    (s.initBegun fetched c q).Sound r.opcode := by
  obtain ⟨hf, -⟩ := State.requestOk_iff.mp (h.request r hreq)
  exact {
    cfg := h.cfg
    stream := h.stream
    blmask := backlightMask_cases s.cfg s.cfg.initBacklight
    cause := h.cause
    written := rfl
    busy := h.busy.trans (by simp [State.initBegun, State.fetchedAll, hreq])
    request := fun p hp => by
      obtain rfl : _ = p := by simpa [State.initBegun, State.fetchedAll, hreq] using hp
      exact ⟨rfl, hf⟩
    ready := fun hn => by rw [hop] at hn; exact absurd hn (by decide)
    logDue := hdue }

/-- An INIT that has fetched what there is, and not both its operands, waits in a state that meets the invariant. -/
theorem State.Inv.fetchedAll {s : State} {r : Progress} (h : s.Inv) (hreq : s.request = some r) {bs : List Byte}
    (hfetching : ∀ q : Progress, q.opcode = r.opcode → q.operands = r.operands ++ bs → q.next = r.next + bs.length →
      q.fetchingInit = true) : (s.fetchedAll bs).Inv := by
  obtain ⟨hf, hl, -, hready⟩ := State.requestOk_iff.mp (h.request r hreq)
  exact {
    cfg := h.cfg
    stream := h.stream
    blmask := h.blmask
    cause := h.cause
    ready := h.ready
    busy := h.busy.trans (by simp [State.fetchedAll])
    request := fun q hq => by
      obtain rfl : _ = q := by simpa [State.fetchedAll, hreq] using hq
      exact State.requestOk_iff.mpr ⟨hf, hl, .inl (hfetching _ rfl rfl rfl), hready⟩
    logDue := h.logDue }

/-! ### The request in progress -/

/-- What the invariant says of the request in progress: its opcode byte is legal, and it finds the registers written or
is an INIT that is still fetching. -/
theorem State.Inv.request_cases {s : State} {r : Progress} (h : s.Inv) (hreq : s.request = some r) :
    legalOpcode r.opcode = true ∧ (s.registersWritten = true ∨
      (r.opcode = 0x10 ∧ r.operands.length < 2 ∧ r.next = r.operands.length)) := by
  obtain ⟨-, hl, hway, -⟩ := State.requestOk_iff.mp (h.request r hreq)
  rw [Progress.fetchingInit_iff hl] at hway
  exact ⟨hl, hway.symm⟩

/-- Going on with a sound request keeps the invariant. -/
theorem State.Inv.runs {s t : State} {r : Progress} (h : s.Inv) (hreq : s.request = some r) (hdue : s.logDue = none)
    (hrun : runActs (remainingActs r s) s = .next t) : t.Inv := by
  obtain ⟨hl, hw | ⟨hop, hlen, hnext⟩⟩ := h.request_cases hreq
  · have hdrop : ∀ p : Act → Bool, (scriptFor r.opcode (r.operands ++ s.available) s).all p = true →
        (remainingActs r s).all p = true :=
      fun p hp => List.all_eq_true.mpr fun a ha => List.all_eq_true.mp hp a (List.mem_of_mem_drop ha)
    have hsound := (h.sound hreq hw hdue).runActs hrun (hdrop _ (scriptFor_masksOk ..))
      fun hn => hdrop _ (scriptFor_keepsInitState hn ..)
    exact hsound.inv hl
  · rcases runActs_fetchingInit (s := s) hop hlen hnext with ⟨fetched, c, q, heq⟩ | ⟨hshort, heq⟩
    · rw [heq] at hrun
      have hsound := (h.sound_initBegun hreq hop hdue fetched c q).runActs hrun (initTail_masksOk ..)
        fun hn => by rw [hop] at hn; exact absurd hn (by decide)
      exact hsound.inv hl
    · obtain rfl := Host.Outcome.next.inj (heq.symm.trans hrun)
      refine h.fetchedAll hreq fun q hqop hqs hqn => ?_
      rw [Progress.fetchingInit_iff (hqop ▸ hl)]
      exact ⟨hqop.trans hop, hqs ▸ hshort, by rw [hqn, hqs, hnext, List.length_append]⟩

/-- Going on with a sound request answers a next state. -/
theorem State.Inv.answers {s : State} {r : Progress} (h : s.Inv) (hreq : s.request = some r) :
    ∃ t, runActs (remainingActs r s) s = .next t := by
  obtain ⟨-, hw | ⟨hop, hlen, hnext⟩⟩ := h.request_cases hreq
  · obtain ⟨-, hrows, hmask⟩ := State.registersWritten_iff.mp hw
    exact runActs_answers (fun hmem => readUnwritten_not_mem_scriptFor hrows (List.mem_of_mem_drop hmem)) hmask
  · rcases runActs_fetchingInit (s := s) hop hlen hnext with ⟨fetched, c, q, heq⟩ | ⟨-, heq⟩
    · have hu : (initTail s.cfg).all (· != Act.readUnwritten) = true :=
        initTail_all (fun _ => rfl) (fun _ => rfl) (fun _ => rfl) rfl _
      rw [heq]
      exact runActs_answers (fun hmem => by simpa using List.all_eq_true.mp hu _ hmem) rfl
    · exact ⟨_, heq⟩

/-! ### The step -/

/-- The fetch of a legal opcode byte that passes the check of READY begins a sound request (R163). -/
theorem State.Inv.started {s : State} (h : s.Inv) (hf : s.fault = false) {op : Byte} (hl : legalOpcode op = true)
    (hr : needsReady op = false ∨ s.ready = true) : (s.started op).Inv where
  cfg := h.cfg
  stream := h.stream
  blmask := h.blmask
  cause := h.cause
  ready := h.ready
  busy := rfl
  request := fun q hq => by
    obtain rfl := Option.some.inj hq
    refine State.requestOk_iff.mpr ⟨hf, hl, ?_, fun hn => hr.resolve_left (by simp [hn])⟩
    rcases hr with hn | hready
    · have hop : op = 0x10 := eq_init_of_opField op hl (by simpa only [needsReady, bne_eq_false_iff_eq] using hn)
      exact .inl ((Progress.fetchingInit_iff (r := ⟨op, [], 0, 0, none⟩) hl).mpr ⟨hop, Nat.two_pos, rfl⟩)
    · exact .inr (h.ready hready)
  logDue := nofun

/-- A fault in place of a request that begins (R162, R163). -/
theorem State.Inv.refused {s : State} (h : s.Inv) (op : Byte) (c : Cause) : ((s.started op).raised c).Inv where
  cfg := h.cfg
  stream := h.stream
  blmask := h.blmask
  cause := ⟨c.code_cases.1, iff_of_true rfl c.code_cases.2⟩
  ready := h.ready
  busy := rfl
  request := nofun
  logDue := nofun

theorem State.Inv.afterReset {s : State} (h : s.Inv) : s.afterReset.Inv where
  cfg := h.cfg
  stream := List.Pairwise.nil
  blmask := .inl rfl
  cause := ⟨Nat.zero_le 3, by simp⟩
  ready := nofun
  busy := rfl
  request := nofun
  logDue := nofun

/-- The log event that is due moves the index of the request's next event alone. -/
theorem State.Inv.logged {s : State} (h : s.Inv) : s.logged.Inv := by
  cases hdue : s.logDue with
  | none => rwa [State.logged_of_none hdue]
  | some b =>
    have hlogged : s.logged = { s.emitted [.l b] with logDue := none } := by rw [State.logged, hdue]
    rw [hlogged]
    exact {
      cfg := h.cfg
      stream := h.stream
      blmask := h.blmask
      cause := h.cause
      ready := h.ready
      busy := h.busy.trans (by simp)
      request := fun q hq => by
        obtain ⟨r, hr, rfl⟩ : ∃ r, s.request = some r ∧ { r with event := r.event + 1 } = q := by simpa using hq
        exact h.request r hr
      logDue := nofun }

/-- The request in progress has the actions left after a log event that it had before. -/
theorem State.logged_remainingActs {s : State} {r : Progress} (hreq : s.request = some r) :
    ∃ q, s.logged.request = some q ∧ remainingActs q s.logged = remainingActs r s := by
  cases hdue : s.logDue with
  | none => exact ⟨r, by rw [State.logged_of_none hdue, hreq], by rw [State.logged_of_none hdue]⟩
  | some b =>
    refine ⟨{ r with event := r.event + 1 }, by simp [State.logged, hdue, hreq], ?_⟩
    have hav : s.logged.available = s.available := by simp [State.available, State.logged, hdue]
    rw [remainingActs, hav, scriptFor_congr (s := s) _ (State.logged_cfg s) fun _ => State.logged_rows s, remainingActs]

/-- From a state that meets the invariant a step comes to one that does, or runs the actions that a request in progress
has left, from a state that does. -/
theorem State.Inv.step_cases {s : State} (h : s.Inv) :
    (∃ t, step s = .next t ∧ t.Inv) ∨
    ∃ x r, x.Inv ∧ x.request = some r ∧ x.logDue = none ∧ step s = runActs (remainingActs r x) x := by
  cases hr : s.resetInput with
  | true => exact .inl ⟨_, step_of_resetInput hr, h.afterReset⟩
  | false =>
  cases hf : s.fault with
  | true => exact .inl ⟨s, step_of_fault hr hf, h⟩
  | false =>
  cases hb : s.busy with
  | true =>
    obtain ⟨r, hreq⟩ := Option.isSome_iff_exists.mp (h.busy.symm.trans hb)
    cases hout : r.outstanding with
    | some w =>
      have hwait := step_of_outstanding hr hf hb (by simp [State.outstanding, hreq, hout])
      exact .inl ⟨s, hwait, h⟩
    | none =>
      obtain ⟨q, hq, hacts⟩ := State.logged_remainingActs hreq
      refine .inr ⟨s.logged, q, h.logged, hq, State.logged_logDue s, ?_⟩
      rw [hacts]
      simp [step, resume, hr, hf, hb, hreq, hout]
  | false =>
    have ha : s.accepting = true := State.accepting_iff.mpr ⟨hr, hf, hb⟩
    cases hav : s.available with
    | nil => exact .inl ⟨s, step_of_no_byte ha hav, h⟩
    | cons op bs =>
      rw [step_of_accepting ha hav]
      cases hl : legalOpcode op with
      | false => exact .inl ⟨_, rfl, h.refused op .illegalRequest⟩
      | true =>
        rw [if_pos rfl]
        by_cases hready : needsReady op = false ∨ s.ready = true
        · refine .inr ⟨s.started op, _, h.started hf hl hready, rfl, rfl, ?_⟩
          rw [beginRequest_runs hready, remainingActs, State.started_available hav]
          exact congrArg (runActs · _) (scriptFor_congr bs rfl fun _ => rfl).symm
        · obtain ⟨hn, hnot⟩ := not_or.mp hready
          exact .inl ⟨_, beginRequest_notReady (by simpa using hn) (by simpa using hnot), h.refused op .notReady⟩

/-- Settles O57: the actions of a sound request keep the invariant, and so does a step that runs none. -/
theorem stepKeepsInvariant : Obligations.StepKeepsInvariant := by
  unfold Obligations.StepKeepsInvariant
  intro s t hinv h
  rcases hinv.step_cases with ⟨u, hu, huinv⟩ | ⟨x, r, hx, hreq, hdue, hstep⟩
  · exact Host.Outcome.next.inj (hu.symm.trans h) ▸ huinv
  · exact hx.runs hreq hdue (hstep.symm.trans h)

/-- Settles O59: the actions of a sound request read no register before INIT has written it. -/
theorem noUnwrittenRegisterIsRead : Obligations.NoUnwrittenRegisterIsRead := by
  unfold Obligations.NoUnwrittenRegisterIsRead
  intro s hinv
  rcases hinv.step_cases with ⟨u, hu, -⟩ | ⟨x, r, hx, hreq, -, hstep⟩
  · exact ⟨u, hu⟩
  · exact hstep ▸ hx.answers hreq

end Sys2Proof.Machine
